-- ==== Sys2Proof/Word.lean ====
section
/-!
DEFINITION. The word types of the block: bytes, 16-bit values, 32-bit linear addresses and 64-bit
command words (00_scope.md R2, R12; 30_encoding.md R78).
-/

namespace Sys2Proof

/-- A `u8`. -/
abbrev Byte := BitVec 8

/-- A `u16`: a glyph cell, a selector, a table limit, a port number. -/
abbrev Half := BitVec 16

/-- A `u32`: a linear address or a handler offset (R2). -/
abbrev Addr := BitVec 32

/-- A 64-bit command word of format `CMD64` (R78). -/
abbrev CmdWord := BitVec 64

end Sys2Proof
end

