-- ==== Sys2Proof/Config.lean ====
section
/-!
DEFINITION. The configuration of 00_scope.md R9: the constants the spec fixes for the geometry of the
block, and the parameters it leaves open. A `Config` is plain data held in the state, never changed by
a step, so a statement about every state ranges over every configuration (log 3).
-/

namespace Sys2Proof

/-- `COLS` (R9). -/
abbrev COLS : Nat := 80
/-- `ROWS` (R9). -/
abbrev ROWS : Nat := 25
/-- `CELLS = COLS * ROWS` (R9). -/
abbrev CELLS : Nat := 2000
/-- `CELL_BYTES` (R9). -/
abbrev CELL_BYTES : Nat := 2
/-- `IDT_ENTRIES` (R9). -/
abbrev IDT_ENTRIES : Nat := 256
/-- `DESC_BYTES` (R9). -/
abbrev DESC_BYTES : Nat := 8
/-- Bytes of the framebuffer region (R51). -/
abbrev FB_BYTES : Nat := 4000
/-- Bytes of the descriptor table region (R51). -/
abbrev IDT_BYTES : Nat := 2048

/-- `REMAP_ORDER` (R9, R107): the order of the two controllers' initialization writes. -/
inductive RemapOrder where
  | controllerMajor
  | stepMajor
deriving DecidableEq, Repr

/-- `EOI_ORDER` (R9, R111): which controller gets the EOI first. -/
inductive EoiOrder where
  | slaveFirst
  | masterFirst
deriving DecidableEq, Repr

/-- `CONSOLE_RACE_MODEL` (R9, R90, R95). -/
inductive RaceModel where
  | fault
  | interleave
deriving DecidableEq, Repr

/-- A range of linear memory `[base, base + size)`. -/
structure Region where
  base : Nat
  size : Nat
deriving DecidableEq, Repr

/-- The parameters of R9 that are open or have a default (93_implementation_defined.md part 2); the values R9 fixes
are constants. `occupied` lists the memory that holds code
or the stack, which the block's regions may not overlap (R10). -/
structure Config where
  fbBase : Addr
  idtBase : Addr
  defaultAttr : Byte
  explicitUnmask : Bool
  remapOrder : RemapOrder
  eoiOrder : EoiOrder
  testVectorA : Byte
  testVectorB : Byte
  raceModel : RaceModel
  exposeIntermediateColumn : Bool
  maxNest : Nat
  /-- `HANDLERS`, as a list of offset and program pairs; the first pair of an offset counts. -/
  handlers : List (Addr × List CmdWord)
  timerEntry : Addr
  smokeTestAfterSti : Bool
  occupied : List Region
deriving DecidableEq, Repr

/-- The configuration of `State.reset`. The open parameters have no value in the spec: each value here
that R9 does not give is the model's (log 3, DESIGN CHOICE), and no statement rests on it. -/
def Config.launch : Config where
  fbBase := 0x00010000
  idtBase := 0x00020000
  defaultAttr := 0x00
  explicitUnmask := false
  remapOrder := .controllerMajor
  eoiOrder := .slaveFirst
  testVectorA := 0x30
  testVectorB := 0x31
  raceModel := .fault
  exposeIntermediateColumn := true
  maxNest := 1
  handlers := []
  timerEntry := 0x00000000
  smokeTestAfterSti := true
  occupied := []

end Sys2Proof
end

