-- ==== Sys2Proof/Syntax.lean ====
section
/-!
DEFINITION. The abstract syntax: the ten commands of spec/opcode_table.json (30_encoding.md R79), their
kinds, and the five fields of a command word (R78).
-/

namespace Sys2Proof

/-- One constructor per row of spec/opcode_table.json. Operands are unsigned and fill their field (R80). -/
inductive Instr where
  /-- CINIT, `cinit` (R91). -/
  | cinit
  /-- SETCOLOR, `setcolor a` (R92). -/
  | setcolor (a : Byte)
  /-- PUTCHAR, `putc c` (R93). -/
  | putchar (ch : Byte)
  /-- IDTBUILD, `idt.build` (R97). -/
  | idtbuild
  /-- IDTREG, `idt.reg v, h, t` (R98), operands in the order of the source's call. -/
  | idtreg (v : Byte) (h : Addr) (t : Byte)
  /-- PICREMAP, `pic.remap mb, sb` (R108). -/
  | picremap (mb : Byte) (sb : Byte)
  /-- PICEOI, `pic.eoi` (R111). -/
  | piceoi
  /-- CLI, `cli` (R116). -/
  | cli
  /-- STI, `sti` (R117). -/
  | sti
  /-- SWINT, `int v` (R118). -/
  | swint (v : Byte)
deriving DecidableEq, Repr

/-- The kind of a command, as `inOp` and the faults record it (10_state.md R41, 60_exceptions.md R119). -/
inductive Kind where
  | cinit | setcolor | putchar | idtbuild | idtreg | picremap | piceoi | cli | sti | swint
deriving DecidableEq, Repr

/-- The kind of a command. -/
def Instr.kind : Instr → Kind
  | .cinit => .cinit
  | .setcolor _ => .setcolor
  | .putchar _ => .putchar
  | .idtbuild => .idtbuild
  | .idtreg _ _ _ => .idtreg
  | .picremap _ _ => .picremap
  | .piceoi => .piceoi
  | .cli => .cli
  | .sti => .sti
  | .swint _ => .swint

/-- A Console command is CINIT, SETCOLOR or PUTCHAR (41_console.md R90). -/
def Kind.isConsole : Kind → Bool
  | .cinit | .setcolor | .putchar => true
  | .idtbuild | .idtreg | .picremap | .piceoi | .cli | .sti | .swint => false

/-- The fields of a command word (R78). -/
structure CmdFields where
  op : Byte
  a : Byte
  b : Byte
  c : Addr
  rsv : Byte
deriving DecidableEq, Repr

end Sys2Proof
end

