-- ==== Sys2Proof/Machine/State.lean ====
section
/-!
DEFINITION. The state of the block, as plain data: every piece of state 10_state.md names, the program
text and the configuration it takes as parameters (log 3, log 4), and the run's choices (log 2); the faults
and refusals of 60_exceptions.md R119; and the state at reset (10_state.md R43).
-/

namespace Sys2Proof.Machine

/-- The two interrupt controllers: `M` (master) and `S` (slave) (10_state.md R33). -/
inductive Ctrl where
  | M
  | S
deriving DecidableEq, Repr

/-- Where `PIC_UNCONFIGURED` was raised (R119: "which step"). -/
inductive PicStep where
  | delivery
  | piceoi
deriving DecidableEq, Repr

/-- The faults of 60_exceptions.md R119, each with the info it records. A fault stops every agent (R120);
every one of them is safe, since the model stops where a chip would do something the spec does not choose. -/
inductive Fault where
  /-- SETCOLOR or PUTCHAR while `con.ready` is false, which is before CINIT (R23, R92, R93, R95 `u1`). Safe. -/
  | consoleNotReady (kind : Kind)
  /-- A Console command started inside a preempted Console command, race model `fault` (R90). Safe. -/
  | consoleRace (preempted new : Kind)
  /-- IDTREG before IDTBUILD (R98). Safe. -/
  | idtNotBuilt (vector : Byte)
  /-- IDTBUILD with `IF = 1` (R97). Safe. -/
  | buildInterruptible
  /-- Delivery while `IDTR = none` (R126). Safe. -/
  | noIdt (vector : Byte)
  /-- Delivery of a vector beyond the limit or not present (R126). Safe. -/
  | unhandledVector (vector : Byte)
  /-- Delivery through a present descriptor that is no 32-bit gate with selector 8 (R126). Safe. -/
  | unsupportedGate (vector : Byte) (typeByte : Byte) (selector : Half)
  /-- Delivery to an offset with no program in `HANDLERS` (R126). Safe. -/
  | noHandlerCode (vector : Byte) (offset : Addr)
  /-- Hardware delivery during PICREMAP (R109). Safe. -/
  | remapInterrupted
  /-- Delivery or PICEOI with a controller this run has not initialized (R111, R125). Safe. -/
  | picUnconfigured (step : PicStep)
  /-- PUTCHAR read a cursor outside the screen, race model `interleave` (R95). Safe. -/
  | cursorOutOfRange (row col : Nat)
  /-- A command-port byte the abstract controller gives no meaning (R102); no command writes one. Safe. -/
  | picProtocol (ctrl : Ctrl) (byte : Byte)
  /-- Delivery nested deeper than `MAX_NEST` (R126). Safe. -/
  | stackExhausted (vector : Byte)
  /-- The MODEL's own: delivery would read a descriptor byte that nothing has written (10_state.md R43: "any
  read of it faults or is refused"). No run from reset reaches it (log 7). Safe. -/
  | unwrittenDescriptor (vector : Byte)
deriving DecidableEq, Repr

/-- The refusals of 60_exceptions.md R119. A refused run supports no claim (R120). -/
inductive Refusal where
  /-- `exec`'s arm of a command that has no meaning yet. Safe. -/
  | notModelled (mnemonic : String)
  /-- The running context reached an undecodable command word (R81). Safe. -/
  | illegalCommand
  /-- A controller was initialized with bytes other than the admitted ones (R103). Safe. -/
  | picModeUnmodelled
  /-- The configuration breaks R10 or R47, gives no room for a handler, or makes a test vector of the boot program the
  timer's (log 8). Safe. -/
  | badConfig
  /-- The MODEL's own: a byte was written to a port with no modelled device (log 14). No command writes
  one. Safe. -/
  | portUnmodelled (port : Half)
deriving DecidableEq, Repr

/-- The Console registers (R20 to R23). -/
structure Console where
  row : Nat
  col : Nat
  attr : Byte
  ready : Bool
deriving DecidableEq, Repr

/-- The table register's value (R31, R66). -/
structure TableReg where
  limit : Half
  base : Addr
deriving DecidableEq, Repr

/-- Which initialization byte a controller's data port expects next (R33). -/
inductive PicPhase where
  | idle
  | wICW2
  | wICW3
  | wICW4
deriving DecidableEq, Repr

/-- One controller's register set (R33). -/
structure Pic where
  configured : Bool
  phase : PicPhase
  icw1 : Byte
  vbase : Byte
  icw3 : Byte
  icw4 : Byte
  imr : Byte
  irr : Byte
  isr : Byte
deriving DecidableEq, Repr

/-- The events of the privileged-operation trace (R39). -/
inductive Event where
  | lidt (limit : Half) (base : Addr)
  | irqOff
  | irqRestore (b : Bool)
  | cli
  | sti
  | int (v : Byte)
  | iret (b : Bool)
deriving DecidableEq, Repr

/-- The micro-steps whose order the `interleave` race model leaves to the run (41_console.md R95). -/
inductive Micro where
  /-- CINIT stores `con.attr`. -/
  | initAttr
  /-- CINIT stores `con.row`. -/
  | initRow
  /-- CINIT stores `con.col`. -/
  | initCol
  /-- CINIT stores `con.ready`. -/
  | initReady
  /-- PUTCHAR's read of `con.row`. -/
  | readRow
  /-- PUTCHAR's read of `con.col`. -/
  | readCol
  /-- PUTCHAR's read of `con.attr`. -/
  | readAttr
  /-- PUTCHAR `u5`, the column store. -/
  | storeCol
  /-- PUTCHAR `u6` with the intermediate column exposed: the column wraps. -/
  | wrapCol
  /-- PUTCHAR's row store: `u7` with the intermediate column exposed, else `u6`. -/
  | storeRow
deriving DecidableEq, Repr

/-- What a running flow holds: its program and place in it (R27), the command it is inside (R41), and the
values its current command has read (the locals `r`, `c`, `a` of R93 and R95) with the unordered micro-steps
done (log 17). -/
structure Frame where
  prog : List CmdWord
  pc : Nat
  mu : Nat
  inOp : Option Kind
  row : Nat
  col : Nat
  attr : Byte
  done : List Micro
deriving DecidableEq, Repr

/-- The phase of an interrupt context (R28, R128). -/
inductive Phase where
  | body
  | eoi
  | ret
deriving DecidableEq, Repr

/-- An interrupt context (R28). -/
structure IrqContext where
  vector : Byte
  phase : Phase
  savedIF : Bool
  frame : Frame
deriving DecidableEq, Repr

/-- Which agent moves next (R11, R131.4): the running context, taking `pick` where R95 leaves it an order;
the delivery step; or the environment, raising a line. -/
inductive Choice where
  | run (pick : Nat)
  | deliver
  | raiseLine (c : Ctrl) (line : Fin 8)
deriving DecidableEq, Repr

/-- Linear memory: the bytes that have been written, by rising address. A byte at an address not listed
is unwritten and has no value (R43, log 7). -/
abbrev Memory := List Host.Cell

/-- The block state (R19). `main` and `irqs` together are `ctx`: `main` is the bottom entry, which always
exists, and `irqs` lists the interrupt contexts above it, the top one first (R28). -/
structure State where
  con : Console
  idtBuilt : Bool
  IF : Bool
  idtr : Option TableReg
  main : Frame
  irqs : List IrqContext
  picM : Pic
  picS : Pic
  trace : List (Half × Byte)
  ptrace : List Event
  fault : Option Fault
  refused : Option Refusal
  mem : Memory
  /-- The configuration (R9), never changed. -/
  cfg : Config
  /-- The coming moves; when it is empty the running context moves (log 2). -/
  sched : List Choice
  /-- The order the current move takes where R95 leaves one open (log 2). -/
  pick : Nat
deriving DecidableEq, Repr

/-- A flow about to start `prog` (R28, R126: `pc = 0`, `mu = 0`, `inOp = none`). -/
def Frame.start (prog : List CmdWord) : Frame where
  prog := prog
  pc := 0
  mu := 0
  inOp := none
  row := 0
  col := 0
  attr := 0
  done := []

/-- A controller at reset: the values R43 gives, and 0 in each register it leaves unwritten (log 6). -/
def Pic.reset : Pic where
  configured := false
  phase := .idle
  icw1 := 0
  vbase := 0
  icw3 := 0
  icw4 := 0
  imr := 0
  irr := 0
  isr := 0

/-- The launch of a machine with a given configuration and entry program (R43, R140). -/
def State.launch (cfg : Config) (prog : List CmdWord) : State where
  con := { row := 0, col := 0, attr := 0, ready := false }
  idtBuilt := false
  IF := false
  idtr := none
  main := Frame.start prog
  irqs := []
  picM := Pic.reset
  picS := Pic.reset
  trace := []
  ptrace := []
  fault := none
  refused := none
  mem := []
  cfg := cfg
  sched := []
  pick := 0

/-- The machine right after reset, with no program loaded (R43, log 3, log 4). -/
def State.reset : State := State.launch Config.launch []

end Sys2Proof.Machine
end

