-- ==== Sys2Proof/Machine/Flags.lean ====
section
/-!
DEFINITION. The one flag of the block, the interrupt-enable flag `IF` (10_state.md R29). The block has no
condition codes, no arithmetic flags and no predicates (R30), so there is no other flag computation.
-/

namespace Sys2Proof.Machine

/-- `IF <- b` (R29). -/
def State.setIF (b : Bool) (s : State) : State := { s with IF := b }

/-- The `IF` a context starts with: an interrupt gate clears it, a trap gate leaves it (R65, R127). -/
def ifAfterGate (interruptGate : Bool) (before : Bool) : Bool := !interruptGate && before

/-- Append an event to the privileged-operation trace (R39). -/
def State.logEvent (e : Event) (s : State) : State := { s with ptrace := s.ptrace ++ [e] }

/-- The critical section of IDTREG: `IF` is saved and cleared, `body` runs, `IF` is restored, and both ends
are recorded (R98). -/
def State.critical (body : State → State) (s : State) : State :=
  let inside := body ((s.setIF false).logEvent .irqOff)
  (inside.setIF s.IF).logEvent (.irqRestore s.IF)

end Sys2Proof.Machine
end

