-- ==== Sys2Proof/WellFormed.lean ====
section
/-!
DEFINITION. Well-formedness of the five fields of a command word (30_encoding.md R79, R81) and of a
command's operands (R80). A command's operands fill their fields exactly, so every term of `Instr` is well
formed; the checks that can fail are those on the fields.
-/

namespace Sys2Proof

/-- Which of the fields `A`, `B` and `C` carry an operand. -/
structure FieldUse where
  a : Bool
  b : Bool
  c : Bool
deriving DecidableEq, Repr

/-- The opcode map's use of the fields: `none` where `op` is not in the map (R79). -/
def fieldUse (op : Byte) : Option FieldUse :=
  if op = 0x01 then some ⟨false, false, false⟩
  else if op = 0x02 then some ⟨true, false, false⟩
  else if op = 0x03 then some ⟨true, false, false⟩
  else if op = 0x10 then some ⟨false, false, false⟩
  else if op = 0x11 then some ⟨true, true, true⟩
  else if op = 0x20 then some ⟨true, true, false⟩
  else if op = 0x21 then some ⟨false, false, false⟩
  else if op = 0x30 then some ⟨false, false, false⟩
  else if op = 0x31 then some ⟨false, false, false⟩
  else if op = 0x32 then some ⟨true, false, false⟩
  else none

/-- `op` is in the map (R81, first bullet). -/
def CmdFields.opKnown (f : CmdFields) : Bool := (fieldUse f.op).isSome

/-- `rsv` is 0 (R81, second bullet). -/
def CmdFields.rsvZero (f : CmdFields) : Bool := f.rsv == 0

/-- Every field the map lists as "0" is 0 (R81, third bullet). -/
def CmdFields.unusedZero (f : CmdFields) : Bool :=
  match fieldUse f.op with
  | none => true
  | some u => (u.a || f.a == 0) && (u.b || f.b == 0) && (u.c || f.c == 0)

/-- The fields form a legal command word (R81). -/
def CmdFields.wf (f : CmdFields) : Bool := f.opKnown && f.rsvZero && f.unusedZero

/-- Every operand lies in the range of its field (R80). -/
def Instr.wf : Instr → Bool
  | .setcolor a => a.toNat < 256
  | .putchar ch => ch.toNat < 256
  | .idtreg v h t => v.toNat < 256 && h.toNat < 2 ^ 32 && t.toNat < 256
  | .picremap mb sb => mb.toNat < 256 && sb.toNat < 256
  | .swint v => v.toNat < 256
  | .cinit | .idtbuild | .piceoi | .cli | .sti => true

end Sys2Proof
end

