-- ==== Sys2Proof/Decode.lean ====
section
/-!
DEFINITION. Decoding a command word, total on every word and on every byte list, rejecting by name
(30_encoding.md R78 to R83), and the encoder.
-/

namespace Sys2Proof

/-- Why a command word is illegal (R81), or why a byte list is no command word (R83). -/
inductive DecodeError where
  /-- `op` is not in the map of R79. -/
  | unknownOpcode
  /-- `rsv` is not 0. -/
  | reservedNonzero
  /-- A field the map lists as "0" is not 0. -/
  | unusedFieldNonzero
  /-- Fewer than the 8 bytes of a command word (R83). -/
  | tooFewBytes
deriving DecidableEq, Repr

/-- The low `n` bytes of `v`, least significant first (20_memory.md R45, 30_encoding.md R78). -/
def leBytes : Nat → Nat → List Byte
  | 0, _ => []
  | n + 1, v => BitVec.ofNat 8 v :: leBytes n (v / 256)

/-- The number a little-endian byte list stands for (R45). -/
def leValue : List Byte → Nat
  | [] => 0
  | b :: bs => b.toNat + 256 * leValue bs

/-- The fields of a command word: `op` 7:0, `A` 15:8, `B` 23:16, `C` 55:24, `rsv` 63:56 (R78). -/
def CmdFields.ofWord (w : CmdWord) : CmdFields where
  op := w.extractLsb' 0 8
  a := w.extractLsb' 8 8
  b := w.extractLsb' 16 8
  c := w.extractLsb' 24 32
  rsv := w.extractLsb' 56 8

/-- The command word of five fields (R78). -/
def CmdFields.toWord (f : CmdFields) : CmdWord :=
  f.rsv ++ f.c ++ f.b ++ f.a ++ f.op

/-- The fields of a command, by the opcode map (R79, R80). -/
def Instr.fields : Instr → CmdFields
  | .cinit => ⟨0x01, 0, 0, 0, 0⟩
  | .setcolor a => ⟨0x02, a, 0, 0, 0⟩
  | .putchar ch => ⟨0x03, ch, 0, 0, 0⟩
  | .idtbuild => ⟨0x10, 0, 0, 0, 0⟩
  | .idtreg v h t => ⟨0x11, v, t, h, 0⟩
  | .picremap mb sb => ⟨0x20, mb, sb, 0, 0⟩
  | .piceoi => ⟨0x21, 0, 0, 0, 0⟩
  | .cli => ⟨0x30, 0, 0, 0, 0⟩
  | .sti => ⟨0x31, 0, 0, 0, 0⟩
  | .swint v => ⟨0x32, v, 0, 0, 0⟩

/-- The command the opcode map gives for the fields, `none` where `op` is not in it (R79, R80). The
decoder reads `op` first (R78). -/
def CmdFields.instr? (f : CmdFields) : Option Instr :=
  if f.op = 0x01 then some .cinit
  else if f.op = 0x02 then some (.setcolor f.a)
  else if f.op = 0x03 then some (.putchar f.a)
  else if f.op = 0x10 then some .idtbuild
  else if f.op = 0x11 then some (.idtreg f.a f.c f.b)
  else if f.op = 0x20 then some (.picremap f.a f.b)
  else if f.op = 0x21 then some .piceoi
  else if f.op = 0x30 then some .cli
  else if f.op = 0x31 then some .sti
  else if f.op = 0x32 then some (.swint f.a)
  else none

/-- Decode a command word: the command, or the reason R81 gives against the word. Once `op` and `rsv`
are legal, a field the map lists as "0" is nonzero exactly when the fields are not the command's own. -/
def decode (w : CmdWord) : Except DecodeError Instr :=
  match (CmdFields.ofWord w).instr? with
  | none => .error .unknownOpcode
  | some i =>
    if (CmdFields.ofWord w).rsv ≠ 0 then .error .reservedNonzero
    else if CmdFields.ofWord w = i.fields then .ok i
    else .error .unusedFieldNonzero

/-- Decode the first command of a byte list, stored little-endian; the decoder always consumes 8 bytes
(R78, R83). -/
def decodeBytes (bs : List Byte) : Except DecodeError (Instr × List Byte) :=
  if bs.length < 8 then .error .tooFewBytes
  else
    match decode (BitVec.ofNat 64 (leValue (bs.take 8))) with
    | .ok i => .ok (i, bs.drop 8)
    | .error e => .error e

/-- The command word of a command (R79). -/
def encode (i : Instr) : CmdWord := i.fields.toWord

/-- The bytes of a command, lowest address first (R78). -/
def encodeBytes (i : Instr) : List Byte := leBytes 8 (encode i).toNat

/-- The 64-bit command word whose low `nbits` bits are those of `w`, the bits above them 0. -/
def tableWord (nbits w : Nat) : CmdWord := BitVec.ofNat 64 (w % 2 ^ nbits)

/-- The command the decoder reads from a row of the opcode table whose bits are `w`: the word is laid
out as 8 little-endian bytes and given to `decodeBytes`. -/
def decodeTableWord (nbits w : Nat) : Option Instr :=
  match decodeBytes (leBytes 8 (tableWord nbits w).toNat) with
  | .ok (i, _) => some i
  | .error _ => none

end Sys2Proof
end

