-- ==== Sys2Proof/Machine/Operands.lean ====
section
/-!
DEFINITION. The binary formats and operand computations of 30_encoding.md and 41_console.md: glyph cell,
attribute byte, descriptor, table register, controller bytes, cell address and cursor advance.
-/

namespace Sys2Proof.Machine

/-- `SPACE_CHAR` (R9, D6). -/
def spaceChar : Byte := 0x20
/-- `CODE_SELECTOR` (R9, R37). -/
def codeSelector : Half := 0x0008
/-- `IDT_LIMIT = 256*8 - 1` (R9, R66). -/
def idtLimit : Half := 0x07FF
/-- `ICW1` (R9, R71). -/
def icw1Byte : Byte := 0x11
/-- `ICW3_MASTER` and `ICW3_SLAVE` (R9, R73): the cascade identity each controller is given. -/
def icw3Byte : Ctrl → Byte
  | .M => 0x04
  | .S => 0x02
/-- `ICW4` (R9, R74). -/
def icw4Byte : Byte := 0x01
/-- The mask PICREMAP writes when `EXPLICIT_UNMASK` is set (R75, R107). -/
def ocw1Unmask : Byte := 0x00
/-- `EOI_BYTE`, the non-specific EOI (R9, R76). -/
def eoiByte : Byte := 0x20
/-- `MASTER_BASE_DEFAULT` (R9). -/
def masterBaseDefault : Byte := 0x20
/-- `SLAVE_BASE_DEFAULT` (R9). -/
def slaveBaseDefault : Byte := 0x28
/-- `TIMER_TYPE`: present, DPL 0, 32-bit interrupt gate (R9, D39). -/
def timerType : Byte := 0x8E
/-- The master line the timer is on (R123, D26). -/
def timerLine : Nat := 0

/-- The command port of a controller (R9, R33, R51). -/
def commandPort : Ctrl → Half
  | .M => 0x0020
  | .S => 0x00A0
/-- The data port of a controller (R9, R33, R51). -/
def dataPort : Ctrl → Half
  | .M => 0x0021
  | .S => 0x00A1

/-- GlyphCell assembly `cell(c, a)` (R68). -/
def glyphCell (c a : Byte) : Half := c.zeroExtend 16 ||| (a.zeroExtend 16 <<< 8)

/-- Attribute assembly `attr(fg, bg)` (R69); each operand is masked to 4 bits (R86). -/
def attrByte (fg bg : Nat) : Byte :=
  BitVec.ofNat 8 (fg % 16) ||| (BitVec.ofNat 8 (bg % 16) <<< 4)

/-- The foreground colour of an attribute, `attr[3:0]` (R22, R69). -/
def attrFg (a : Byte) : Fin 16 := (a.extractLsb' 0 4).toFin
/-- The background colour of an attribute, `attr[7:4]` (R22, R69). -/
def attrBg (a : Byte) : Fin 16 := (a.extractLsb' 4 4).toFin

/-- The colour names in index order (R70); no rule depends on them. -/
def palette : List String :=
  ["black", "blue", "green", "cyan", "red", "magenta", "brown", "light-grey", "dark-grey",
   "light-blue", "light-green", "light-cyan", "light-red", "light-magenta", "light-brown", "white"]

/-- Cell index `idx(r, c)` (R88). -/
def cellIdx (r c : Nat) : Nat := r * COLS + c

/-- The address of cell `i`: `FB_BASE + 2*i` (R36, R88), on natural numbers (R14). -/
def cellAddrOf (cfg : Config) (i : Nat) : Nat := cfg.fbBase.toNat + CELL_BYTES * i

/-- Cell address `cellAddr(r, c)` (R88). -/
def cellAddr (cfg : Config) (r c : Nat) : Nat := cellAddrOf cfg (cellIdx r c)

/-- Cursor advance `next(r, c)` (R89): no scroll. -/
def nextCursor (r c : Nat) : Nat × Nat :=
  if c + 1 < COLS then (r, c + 1)
  else if r + 1 < ROWS then (r + 1, 0)
  else (0, 0)

/-- The address of the descriptor of vector `v` in the configured table (R35, R62). -/
def descAddr (cfg : Config) (v : Byte) : Nat := cfg.idtBase.toNat + DESC_BYTES * v.toNat

/-- Low half of a handler address (R63). -/
def offsetLow (h : Addr) : Half := h.extractLsb' 0 16
/-- High half of a handler address (R63). -/
def offsetHigh (h : Addr) : Half := h.extractLsb' 16 16

/-- Descriptor assembly `D(h, t)` (R62, R63). -/
def descriptor (h : Addr) (t : Byte) : BitVec 64 :=
  (offsetLow h).zeroExtend 64
    ||| (codeSelector.zeroExtend 64 <<< 16)
    ||| ((0x00 : Byte).zeroExtend 64 <<< 32)
    ||| (t.zeroExtend 64 <<< 40)
    ||| ((offsetHigh h).zeroExtend 64 <<< 48)

/-- `typeAttributes`, `D[47:40]` (R62). -/
def descType (d : BitVec 64) : Byte := d.extractLsb' 40 8
/-- `codeSegmentSelector`, `D[31:16]` (R62). -/
def descSelector (d : BitVec 64) : Half := d.extractLsb' 16 16
/-- The 32-bit handler offset, `D[63:48] ++ D[15:0]` (R62, R126). -/
def descOffset (d : BitVec 64) : Addr := d.extractLsb' 48 16 ++ d.extractLsb' 0 16

/-- Bit P of the type byte (R65): the descriptor is present (R64). -/
def gatePresent (t : Byte) : Bool := t.getLsbD 7
/-- Bit S of the type byte (R65): 0 for a gate. -/
def gateSystem (t : Byte) : Bool := t.getLsbD 4
/-- The descriptor privilege level, bits 6:5 of the type byte (R65); the block never checks it. -/
def gateDpl (t : Byte) : BitVec 2 := t.extractLsb' 5 2
/-- The gate type, bits 3:0 of the type byte (R65). -/
def gateType (t : Byte) : BitVec 4 := t.extractLsb' 0 4
/-- A 32-bit interrupt gate: delivery clears `IF` (R65). -/
def isInterruptGate (t : Byte) : Bool := gateType t == 0xE
/-- A 32-bit trap gate: delivery keeps `IF` (R65). -/
def isTrapGate (t : Byte) : Bool := gateType t == 0xF
/-- The gates delivery admits, of those present: `S = 0` and a 32-bit interrupt or trap gate with selector 8
(R65, R126). -/
def gateSupported (t : Byte) (sel : Half) : Bool :=
  !gateSystem t && (isInterruptGate t || isTrapGate t) && sel == codeSelector

/-- The table-register value IDTBUILD loads (R66, R97). -/
def idtRegister (cfg : Config) : TableReg := { limit := idtLimit, base := cfg.idtBase }

/-- The 6-byte memory image of a table-register value, limit first, little-endian (R66). -/
def TableReg.image (r : TableReg) : List Byte := leBytes 2 r.limit.toNat ++ leBytes 4 r.base.toNat

/-- A vector lies inside the table: `8v + 7 <= limit` (R67). -/
def vectorInside (r : TableReg) (v : Byte) : Bool := DESC_BYTES * v.toNat + 7 ≤ r.limit.toNat

/-- What a byte written to a command port is (R77). -/
inductive CommandByte where
  | icw1
  | ocw2
  | ocw3
deriving DecidableEq, Repr

/-- The decoding of a command-port byte by its bits 4 and 3 (R77). -/
def classifyCommand (b : Byte) : CommandByte :=
  if b.getLsbD 4 then .icw1 else if b.getLsbD 3 then .ocw3 else .ocw2

/-- ICW1 bit 0: ICW4 follows (R33, R71). -/
def icw1NeedsIcw4 (b : Byte) : Bool := b.getLsbD 0
/-- ICW1 bit 1: single, no cascade (R33, R71). -/
def icw1Single (b : Byte) : Bool := b.getLsbD 1

/-- The vector base a controller keeps of an ICW2 byte: `b & 0xF8` (R72). -/
def vectorBase (b : Byte) : Byte := b &&& 0xF8

/-- The vector of line `n` of a controller whose vector base is `base`: base plus line number (R72, R106). -/
def vectorOfLine (base : Byte) (n : Nat) : Byte := base + BitVec.ofNat 8 n

/-- `TIMER_VECTOR = masterBase + 0` for a system remapped with `masterBase` (R9, D26): the vector of the timer's
line at the base the master keeps of it (R72, R123, log 24). -/
def timerVector (masterBase : Byte) : Byte := vectorOfLine (vectorBase masterBase) timerLine

/-- One controller's initialization writes: ICW1 to the command port, then vector base, cascade identity
and mode to the data port, then the mask when `EXPLICIT_UNMASK` (R107: `seqM`, `seqS`). -/
def initSequence (cfg : Config) (c : Ctrl) (base : Byte) : List (Half × Byte) :=
  [(commandPort c, icw1Byte), (dataPort c, base), (dataPort c, icw3Byte c), (dataPort c, icw4Byte)]
    ++ if cfg.explicitUnmask then [(dataPort c, ocw1Unmask)] else []

/-- Two lists of one length, element by element in turn, the first list first. -/
def alternate : List (Half × Byte) → List (Half × Byte) → List (Half × Byte)
  | x :: xs, y :: ys => x :: y :: alternate xs ys
  | [], ys => ys
  | xs, [] => xs

/-- The writes of PICREMAP in their global order (R107). -/
def remapSequence (cfg : Config) (mb sb : Byte) : List (Half × Byte) :=
  match cfg.remapOrder with
  | .controllerMajor => initSequence cfg .M mb ++ initSequence cfg .S sb
  | .stepMajor => alternate (initSequence cfg .M mb) (initSequence cfg .S sb)

/-- The two controllers in the order they get the EOI (R111). -/
def eoiFirst (cfg : Config) : Ctrl :=
  match cfg.eoiOrder with
  | .slaveFirst => .S
  | .masterFirst => .M

/-- The controller that gets the second EOI (R111). -/
def eoiSecond (cfg : Config) : Ctrl :=
  match cfg.eoiOrder with
  | .slaveFirst => .M
  | .masterFirst => .S

/-- `HANDLERS(h)` (R9, D38). -/
def handlerAt (cfg : Config) (h : Addr) : Option (List CmdWord) :=
  (cfg.handlers.find? (fun p => p.1 == h)).map (·.2)

/-- Two ranges of memory share no byte. -/
def Region.disjoint (x y : Region) : Bool := x.base + x.size ≤ y.base || y.base + y.size ≤ x.base

/-- The framebuffer `[FB_BASE, FB_BASE + 4000)` (R10, R51). -/
def fbRegion (cfg : Config) : Region := ⟨cfg.fbBase.toNat, FB_BYTES⟩
/-- The descriptor table `[IDT_BASE, IDT_BASE + 2048)` (R10, R51). -/
def idtRegion (cfg : Config) : Region := ⟨cfg.idtBase.toNat, IDT_BYTES⟩

/-- The memory the block's regions may not overlap: code and stack (R10), with the entry byte of every
handler program (R59). -/
def occupiedRegions (cfg : Config) : List Region :=
  cfg.occupied ++ cfg.handlers.map (fun p => ⟨p.1.toNat, 1⟩)

/-- The base alignments of R47 (R9). -/
def configAligned (cfg : Config) : Bool := cfg.fbBase.toNat % 2 == 0 && cfg.idtBase.toNat % 8 == 0

/-- Both regions lie below 2^32 (R10). -/
def configInSpace (cfg : Config) : Bool :=
  cfg.fbBase.toNat + FB_BYTES ≤ 2 ^ 32 && cfg.idtBase.toNat + IDT_BYTES ≤ 2 ^ 32

/-- The regions overlap neither each other nor the memory that holds code or the stack (R10, R59). -/
def configDisjoint (cfg : Config) : Bool :=
  Region.disjoint (fbRegion cfg) (idtRegion cfg)
    && (occupiedRegions cfg).all (fun r => Region.disjoint (fbRegion cfg) r && Region.disjoint (idtRegion cfg) r)

/-- The configuration keeps R10 and R47, and `MAX_NEST` is at least 1 (R9); any other is `BAD_CONFIG` (R119,
log 8). -/
def configOk (cfg : Config) : Bool :=
  configAligned cfg && configInSpace cfg && configDisjoint cfg && decide (1 ≤ cfg.maxNest)

end Sys2Proof.Machine
end

