-- ==== Sys2Proof/Machine/Ops.lean ====
section
/-!
DEFINITION. The named operations over the state: linear memory (00_scope.md R13), the context stack
(10_state.md R27, R28), stops (R16, R40), the controllers' reactions (43_pic.md R102, R103), port writes
(00_scope.md R15), the controllers' request (43_pic.md R105, R106), trap entry (60_exceptions.md R126, R127)
and the return from it (60_exceptions.md R128, R129).
-/

namespace Sys2Proof.Machine

/-! ### Linear memory -/

/-- The canonical form of memory: addresses strictly rising, each below 2^32 (R44). No listed entry equals
what an unlisted address reads as, since an unlisted byte has no value. -/
abbrev Memory.wf (m : Memory) : Prop :=
  m.Pairwise (fun x y => x.1 < y.1) ∧ ∀ x ∈ m, x.1 < 2 ^ 32

/-- The byte at an address; `none` where nothing has written it (R43, log 7). -/
def Memory.byteAt (m : Memory) (a : Nat) : Option Byte :=
  (m.find? (fun x => x.1 == a)).map (·.2)

/-- The entries of a block of bytes from address `a` up. -/
def cellsFrom : Nat → List Byte → Memory
  | _, [] => []
  | a, b :: bs => (a, b) :: cellsFrom (a + 1) bs

/-- Store bytes at consecutive addresses: the entries below, the block, the entries above. -/
def Memory.store (m : Memory) (a : Nat) (bs : List Byte) : Memory :=
  m.filter (fun x => decide (x.1 < a)) ++ cellsFrom a bs
    ++ m.filter (fun x => decide (a + bs.length ≤ x.1))

/-- The bytes at `a .. a+n-1`, lowest address first; `none` where one of them is unwritten. -/
def Memory.bytes (m : Memory) : Nat → Nat → Option (List Byte)
  | _, 0 => some []
  | a, n + 1 =>
    match m.byteAt a, m.bytes (a + 1) n with
    | some b, some bs => some (b :: bs)
    | _, _ => none

/-- `MemRead(addr, n)`: the little-endian value (R13, R45). -/
def State.memRead (s : State) (a n : Nat) : Option Nat := (s.mem.bytes a n).map leValue

/-- `MemWrite(addr, n, v)`: least significant byte at `addr` (R13, R45). -/
def State.memWrite (a n v : Nat) (s : State) : State := { s with mem := s.mem.store a (leBytes n v) }

/-- The 16-bit value of cell `i` of the framebuffer (R36). -/
def State.cellAt (s : State) (i : Nat) : Option Half :=
  (s.memRead (cellAddrOf s.cfg i) CELL_BYTES).map (BitVec.ofNat 16)

/-- The descriptor of vector `v` in the configured table (R35). -/
def State.descAt (s : State) (v : Byte) : Option (BitVec 64) :=
  (s.memRead (descAddr s.cfg v) DESC_BYTES).map (BitVec.ofNat 64)

/-- The write of cell `i` (R36, R48): one 2-byte store. -/
def State.storeCell (i : Nat) (v : Half) (s : State) : State :=
  s.memWrite (cellAddrOf s.cfg i) CELL_BYTES v.toNat

/-! ### Stops -/

/-- `raise F(info)`: the fault is recorded (R16, R40, R120). -/
def State.raise (f : Fault) (s : State) : State := { s with fault := some f }

/-- `refuse R`: the run is marked refused (R16, R40). -/
def State.refuse (r : Refusal) (s : State) : State := { s with refused := some r }

/-- A fault or a refusal is recorded: no agent takes another step (R40, R120). -/
def State.stopped (s : State) : Bool := s.fault.isSome || s.refused.isSome

/-- Go on with `f` unless the step has stopped the machine. -/
def State.andThen (s : State) (f : State → State) : State := if s.stopped then s else f s

/-- The code of a fault (60_exceptions.md R119); the model's own fault has none. -/
def Fault.code : Fault → Option Byte
  | .consoleNotReady _ => some 0x02
  | .consoleRace _ _ => some 0x03
  | .idtNotBuilt _ => some 0x04
  | .buildInterruptible => some 0x05
  | .noIdt _ => some 0x06
  | .unhandledVector _ => some 0x07
  | .unsupportedGate _ _ _ => some 0x08
  | .noHandlerCode _ _ => some 0x09
  | .remapInterrupted => some 0x0A
  | .picUnconfigured _ => some 0x0B
  | .cursorOutOfRange _ _ => some 0x0C
  | .picProtocol _ _ => some 0x0D
  | .stackExhausted _ => some 0x0E
  | .unwrittenDescriptor _ => none

/-- The code of a refusal (60_exceptions.md R119); the model's own refusals have none. -/
def Refusal.code : Refusal → Option Byte
  | .illegalCommand => some 0x81
  | .picModeUnmodelled => some 0x82
  | .badConfig => some 0x83
  | _ => none

/-! ### The context stack -/

/-- The top context's flow; only it runs (R28). -/
def State.top (s : State) : Frame :=
  match s.irqs with
  | [] => s.main
  | k :: _ => k.frame

/-- Replace the top context's flow. -/
def State.setTop (f : Frame) (s : State) : State :=
  { s with
    main := match s.irqs with
      | [] => f
      | _ :: _ => s.main
    irqs := match s.irqs with
      | [] => []
      | k :: rest => { k with frame := f } :: rest }

/-- The flows below the top context, nearest first. -/
def State.below (s : State) : List Frame :=
  match s.irqs with
  | [] => []
  | _ :: rest => rest.map (·.frame) ++ [s.main]

/-- All flows, top first. -/
def State.frames (s : State) : List Frame := s.irqs.map (·.frame) ++ [s.main]

/-- `depth(ctx)` (R28): the main context and the interrupt contexts. -/
def State.depth (s : State) : Nat := s.irqs.length + 1

/-- A micro-step of a command of kind `k` is done and others follow (R27, R41). -/
def Frame.microDone (k : Kind) (f : Frame) : Frame := { f with mu := f.mu + 1, inOp := some k }

/-- The flow at the start of the command at place `pc` of its program, inside no command. -/
def Frame.atCommand (f : Frame) (pc : Nat) : Frame := { Frame.start f.prog with pc := pc }

/-- The last micro-step of the command is done: `pc <- pc + 1` and `mu <- 0` (R27, R41). -/
def Frame.commandDone (f : Frame) : Frame := f.atCommand (f.pc + 1)

/-- The top context has done a micro-step of its command, not the last. -/
def State.microDone (k : Kind) (s : State) : State := s.setTop (s.top.microDone k)

/-- The top context has done the unordered micro-step `m` of its command, not the last (R95). -/
def State.microDoneOf (k : Kind) (m : Micro) (s : State) : State :=
  s.setTop { s.top.microDone k with done := m :: s.top.done }

/-- The top context has completed its command. -/
def State.commandDone (s : State) : State := s.setTop s.top.commandDone

/-- Choose one of the admitted next micro-steps by the run's `pick` (R95). -/
def pickFrom (l : List Micro) (k : Nat) : Option Micro := l[k % l.length]?

/-! ### The controllers -/

/-- `pic[c]` (R33). -/
def State.pic (s : State) : Ctrl → Pic
  | .M => s.picM
  | .S => s.picS

/-- `pic[c] <- p`. -/
def State.setPic (c : Ctrl) (p : Pic) (s : State) : State :=
  match c with
  | .M => { s with picM := p }
  | .S => { s with picS := p }

/-- What a port write may end in. -/
inductive Stop where
  | fault (f : Fault)
  | refusal (r : Refusal)
deriving DecidableEq, Repr

/-- Record a stop, if there is one. -/
def State.stopWith (st : Option Stop) (s : State) : State :=
  match st with
  | none => s
  | some (.fault f) => s.raise f
  | some (.refusal r) => s.refuse r

/-- The lowest-numbered set bit of a controller register: its highest-priority line (R102). -/
def lowestLine (b : Byte) : Option Nat := (List.range 8).find? (fun n => b.getLsbD n)

/-- Clear bit `n`. -/
def clearLine (b : Byte) (n : Nat) : Byte := b &&& ~~~(1#8 <<< n)

/-- Set bit `n`. -/
def setLine (b : Byte) (n : Nat) : Byte := b ||| (1#8 <<< n)

/-- The non-specific EOI: clear the lowest-numbered in-service bit, if there is one (R102). -/
def Pic.endOfInterrupt (p : Pic) : Pic :=
  match lowestLine p.isr with
  | none => p
  | some n => { p with isr := clearLine p.isr n }

/-- ICW1 restarts the initialization and clears mask, in-service and request registers (R102). -/
def Pic.startInit (p : Pic) (b : Byte) : Pic :=
  { p with icw1 := b, phase := .wICW2, configured := false, imr := 0, isr := 0, irr := 0 }

/-- Controller `c`'s reaction to a byte on its command port (R102): its registers after, and the stop. -/
def Pic.command (c : Ctrl) (b : Byte) (p : Pic) : Pic × Option Stop :=
  match classifyCommand b with
  | .icw1 => (p.startInit b, none)
  | .ocw2 =>
    if p.phase ≠ .idle then (p, some (.fault (.picProtocol c b)))
    else if b = eoiByte then (p.endOfInterrupt, none)
    else (p, some (.fault (.picProtocol c b)))
  | .ocw3 => (p, some (.fault (.picProtocol c b)))

/-- The end of an initialization sequence: the admitted bytes configure the controller, others are refused
(R103). -/
def Pic.finishInit (c : Ctrl) (p : Pic) : Pic × Option Stop :=
  if p.icw1 = icw1Byte ∧ p.icw3 = icw3Byte c ∧ p.icw4 = icw4Byte then ({ p with configured := true }, none)
  else (p, some (.refusal .picModeUnmodelled))

/-- Take the next initialization phase; the sequence ends when it is `idle` (R103). -/
def Pic.enterPhase (c : Ctrl) (ph : PicPhase) (p : Pic) : Pic × Option Stop :=
  match ph with
  | .idle => Pic.finishInit c { p with phase := .idle }
  | .wICW2 => ({ p with phase := .wICW2 }, none)
  | .wICW3 => ({ p with phase := .wICW3 }, none)
  | .wICW4 => ({ p with phase := .wICW4 }, none)

/-- The phase after the cascade identity, and after the vector base of a single controller (R103). -/
def phaseBeforeMode (icw1 : Byte) : PicPhase := if icw1NeedsIcw4 icw1 then .wICW4 else .idle

/-- Controller `c`'s reaction to a byte on its data port (R103). -/
def Pic.data (c : Ctrl) (b : Byte) (p : Pic) : Pic × Option Stop :=
  match p.phase with
  | .wICW2 =>
    Pic.enterPhase c (if icw1Single p.icw1 then phaseBeforeMode p.icw1 else .wICW3)
      { p with vbase := vectorBase b }
  | .wICW3 => Pic.enterPhase c (phaseBeforeMode p.icw1) { p with icw3 := b }
  | .wICW4 => Pic.enterPhase c .idle { p with icw4 := b }
  | .idle => ({ p with imr := b }, none)

/-- Drive controller `c` with one of its two reactions. -/
def State.drivePic (c : Ctrl) (react : Pic → Pic × Option Stop) (s : State) : State :=
  (s.setPic c (react (s.pic c)).1).stopWith (react (s.pic c)).2

/-- Deliver a byte to the device at a port (R15, R51). No command writes any other port (R135, log 14). -/
def State.devicePort (port : Half) (b : Byte) (s : State) : State :=
  if port = commandPort .M then s.drivePic .M (Pic.command .M b)
  else if port = dataPort .M then s.drivePic .M (Pic.data .M b)
  else if port = commandPort .S then s.drivePic .S (Pic.command .S b)
  else if port = dataPort .S then s.drivePic .S (Pic.data .S b)
  else s.refuse (.portUnmodelled port)

/-- Append a write to the port trace (R38). -/
def State.logPort (port : Half) (b : Byte) (s : State) : State := { s with trace := s.trace ++ [(port, b)] }

/-- `PortWrite(port, b)` (R15). -/
def State.portWrite (port : Half) (b : Byte) (s : State) : State := (s.logPort port b).devicePort port b

/-- A line of equal or higher priority is in service: `blocked(c, n)` (R105). -/
def Pic.blocked (p : Pic) (n : Nat) : Bool := (List.range (n + 1)).any (fun k => p.isr.getLsbD k)

/-- `candS`: the slave's line that asks for service (R105). -/
def State.candS (s : State) : Option Nat :=
  (List.range 8).find? (fun m => s.picS.irr.getLsbD m && !s.picS.imr.getLsbD m && !s.picS.blocked m)

/-- `reqM(n)`: master line `n` asks for service; line 2 carries the slave (R105). -/
def State.reqM (s : State) (n : Nat) : Bool := if n = 2 then s.candS.isSome else s.picM.irr.getLsbD n

/-- `candM`: the master's line that asks for service (R105). -/
def State.candM (s : State) : Option Nat :=
  (List.range 8).find? (fun n => s.reqM n && !s.picM.imr.getLsbD n && !s.picM.blocked n)

/-- The request the controller pair presents to the CPU (R105). -/
def State.request (s : State) : Option (Ctrl × Nat) :=
  match s.candM with
  | none => none
  | some n => if n = 2 then s.candS.map (fun m => (.S, m)) else some (.M, n)

/-- The vector of an acknowledged line: base plus line number (R106). -/
def State.lineVector (s : State) (c : Ctrl) (n : Nat) : Byte := vectorOfLine (s.pic c).vbase n

/-- `TIMER_VECTOR = pic[M].vbase + 0`: the vector the timer's line has as the master now stands (R123). -/
def State.timerVector (s : State) : Byte := s.lineVector .M timerLine

/-- Line `n` of a controller goes from requested to in service (R106). -/
def Pic.takeLine (p : Pic) (n : Nat) : Pic := { p with irr := clearLine p.irr n, isr := setLine p.isr n }

/-- The acknowledgment of a request by the delivery step (R106); a slave line also puts master line 2 in
service. -/
def State.acknowledge (c : Ctrl) (n : Nat) (s : State) : State :=
  match c with
  | .M => { s with picM := s.picM.takeLine n }
  | .S => { s with picS := s.picS.takeLine n, picM := { s.picM with isr := setLine s.picM.isr 2 } }

/-! ### Trap entry and return -/

/-- The table-load primitive (44_privileged.md R115). -/
def State.loadTableRegister (x : TableReg) (s : State) : State :=
  { s with idtr := some x }.logEvent (.lidt x.limit x.base)

/-- Push an interrupt context: the preempted contexts stay as they are, `IF` is saved (R126, R127). -/
def State.pushContext (v : Byte) (prog : List CmdWord) (s : State) : State :=
  { s with irqs := { vector := v, phase := .body, savedIF := s.IF, frame := Frame.start prog } :: s.irqs }

/-- Delivery through a descriptor's fields: type byte `t`, selector `sel`, handler offset `h` (R126). -/
def State.enterGate (v t : Byte) (sel : Half) (h : Addr) (s : State) : State :=
  if !gatePresent t then s.raise (.unhandledVector v)
  else if !gateSupported t sel then s.raise (.unsupportedGate v t sel)
  else
    match handlerAt s.cfg h with
    | none => s.raise (.noHandlerCode v h)
    | some prog =>
      if s.cfg.maxNest ≤ s.irqs.length then s.raise (.stackExhausted v)
      else (s.pushContext v prog).setIF (ifAfterGate (isInterruptGate t) s.IF)

/-- `Deliver(v, kind)`, hardware and software alike: the checks, and trap entry (R126, R127). -/
def State.deliver (v : Byte) (s : State) : State :=
  match s.idtr with
  | none => s.raise (.noIdt v)
  | some r =>
    if !vectorInside r v then s.raise (.unhandledVector v)
    else
      match s.memRead (r.base.toNat + DESC_BYTES * v.toNat) DESC_BYTES with
      | none => s.raise (.unwrittenDescriptor v)
      | some n =>
        s.enterGate v (descType (BitVec.ofNat 64 n)) (descSelector (BitVec.ofNat 64 n))
          (descOffset (BitVec.ofNat 64 n))

/-- Return from a trap, the `ret` phase of the trampoline: `IF` is restored, the return recorded, the
context popped, and nothing else changes (R128, R129). -/
def State.interruptReturn (s : State) : State :=
  match s.irqs with
  | [] => s
  | k :: rest => { s with IF := k.savedIF, ptrace := s.ptrace ++ [.iret k.savedIF], irqs := rest }

end Sys2Proof.Machine
end

