-- ==== Sys2Proof/Machine/PicCommands.lean ====
section
/-!
DEFINITION. The interrupt controller commands PICREMAP and PICEOI (43_pic.md R107, R108, R111). Each meaning
is one micro-step of the command, the one the running context's `mu` names (log 1).
-/

namespace Sys2Proof.Machine

/-- PICREMAP (R108): the write of the ordered sequence that `mu` names; the last one completes the command. -/
def execPicremap (mb sb : Byte) (s : State) : Host.Outcome State Fault Refusal :=
  .next (match (remapSequence s.cfg mb sb)[s.top.mu]? with
    | none => s.commandDone
    | some w =>
      (s.portWrite w.1 w.2).andThen
        (if s.top.mu + 1 < (remapSequence s.cfg mb sb).length then State.microDone .picremap
          else State.commandDone))

/-- Both controllers have completed an initialization sequence of this run. -/
def State.picsConfigured (s : State) : Bool := s.picM.configured && s.picS.configured

/-- A micro-step of the EOI pair, for PICEOI and for the trampoline's `eoi` phase: the configuration check
and the first write, or the second write, after which `finish` runs in the same step (R111, R128, log 9). -/
def State.eoiMicro (finish : State → State) (s : State) : State :=
  match s.top.mu with
  | 0 =>
    if !s.picsConfigured then s.raise (.picUnconfigured .piceoi)
    else (s.portWrite (commandPort (eoiFirst s.cfg)) eoiByte).andThen (State.microDone .piceoi)
  | _ + 1 => (s.portWrite (commandPort (eoiSecond s.cfg)) eoiByte).andThen finish

/-- PICEOI (R111). -/
def execPiceoi (s : State) : Host.Outcome State Fault Refusal :=
  .next (s.eoiMicro State.commandDone)

end Sys2Proof.Machine
end

