-- ==== Sys2Proof/Machine/Agents.lean ====
section
/-!
DEFINITION. The agents other than a running command: the environment (43_pic.md R104), the hardware delivery
step (60_exceptions.md R125, R126; 43_pic.md R109) and the trampoline's phases (60_exceptions.md R128).
-/

namespace Sys2Proof.Machine

/-- The environment raises a line; it never raises master line 2 (R104). -/
def State.raiseIrq (c : Ctrl) (n : Nat) (s : State) : State :=
  match c with
  | .M => if n = 2 then s else { s with picM := { s.picM with irr := setLine s.picM.irr n } }
  | .S => { s with picS := { s.picS with irr := setLine s.picS.irr n } }

/-- A request waits on a controller this run has not initialized (R125). -/
def State.unconfiguredRequest (s : State) : Bool :=
  (!s.picM.configured && s.picM.irr != 0) || (!s.picS.configured && s.picS.irr != 0)

/-- The request is routed through a controller this run has not initialized: a slave request also goes
through the master (R34, R125, log 11). -/
def State.unconfiguredRoute (s : State) : Bool :=
  match s.request with
  | none => false
  | some (.M, _) => !s.picM.configured
  | some (.S, _) => !s.picM.configured || !s.picS.configured

/-- A hardware delivery is enabled (R126). Between two steps the top context is always at a preemption point
(R17, log 1). -/
def State.deliveryEnabled (s : State) : Bool :=
  !s.stopped && s.IF && (s.request.isSome || s.unconfiguredRequest)

/-- Some context is inside PICREMAP (R109). -/
def State.remapInProgress (s : State) : Bool := s.frames.any (fun f => f.inOp == some .picremap)

/-- The hardware delivery step, in the order of R131: `REMAP_INTERRUPTED`, `PIC_UNCONFIGURED`,
acknowledgment, then `Deliver` (R126). Where it is not enabled it does nothing. -/
def State.hardwareDelivery (s : State) : State :=
  if !s.deliveryEnabled then s
  else if s.remapInProgress then s.raise .remapInterrupted
  else if s.unconfiguredRequest || s.unconfiguredRoute then s.raise (.picUnconfigured .delivery)
  else
    match s.request with
    | none => s
    | some (c, n) => (s.acknowledge c n).deliver (s.lineVector c n)

/-- Put the top interrupt context in a phase, between micro-steps. -/
def State.setPhase (ph : Phase) (s : State) : State :=
  match s.irqs with
  | [] => s
  | k :: rest =>
    { s with irqs := { k with phase := ph, frame := k.frame.atCommand k.frame.pc } :: rest }

/-- The `eoi` phase of the trampoline: the micro-steps of PICEOI, then the `ret` phase (R128). That `phase <- ret` is
part of the second EOI write's step, and no step of its own, is the model's choice (DESIGN CHOICE, log 9). -/
def State.trampolineEoi (s : State) : State := s.eoiMicro (State.setPhase .ret)

end Sys2Proof.Machine
end

