-- ==== Sys2Proof/Machine/Console.lean ====
section
/-!
DEFINITION. The Console commands CINIT, SETCOLOR and PUTCHAR (41_console.md R90 to R95). Each meaning is one
micro-step of the command, the one the running context's `mu` names (log 1).
-/

namespace Sys2Proof.Machine

/-- The Console command a context below the running one is inside, the nearest one (R90, log 10). -/
def State.preemptedConsole (s : State) : Option Kind :=
  s.below.findSome? (fun f => f.inOp.filter Kind.isConsole)

/-- The Console race check at a command's first micro-step: the fault, under the race model `fault` (R90). -/
def State.raceFault (k : Kind) (s : State) : Option Fault :=
  match s.cfg.raceModel with
  | .interleave => none
  | .fault => s.preemptedConsole.map (fun k' => .consoleRace k' k)

/-- Start a Console command: the race check, then `f` (R90). -/
def State.startConsole (k : Kind) (f : State → State) (s : State) : State :=
  match s.raceFault k with
  | some e => s.raise e
  | none => f s

/-- Start a Console command that needs CINIT to have run: race check, then readiness, in that order of
precedence (R92, R93, R131). -/
def State.startReady (k : Kind) (f : State → State) (s : State) : State :=
  s.startConsole k (fun s => if s.con.ready then f s else s.raise (.consoleNotReady k))

/-! ### The Console registers -/

/-- `con.row <- r` (R20). -/
def Console.setRow (r : Nat) (c : Console) : Console := { c with row := r }
/-- `con.col <- k` (R21). -/
def Console.setCol (k : Nat) (c : Console) : Console := { c with col := k }
/-- `con.attr <- a` (R22). -/
def Console.setAttr (a : Byte) (c : Console) : Console := { c with attr := a }

/-- An interleaved PUTCHAR may do its read `m`: `u1`, the read of `con.row`, checks `con.ready`, and no other
micro-step does (R23, R95, log 12). A register that nothing has written reads as its value at reset (log 6). -/
def Console.readable (c : Console) (m : Micro) : Bool :=
  match m with
  | .readRow => c.ready
  | .readCol | .readAttr | .initAttr | .initRow | .initCol | .initReady | .storeCol | .wrapCol | .storeRow => true

/-! ### CINIT -/

/-- The Console registers after CINIT's stores (R91 `m0`). -/
def initialConsole (cfg : Config) : Console :=
  { row := 0, col := 0, attr := cfg.defaultAttr, ready := true }

/-- The blank cell: a space at the default attribute, not at `con.attr` (R91). -/
def blankCell (cfg : Config) : Half := glyphCell spaceChar cfg.defaultAttr

/-- CINIT's write of cell `i`, in ascending order; cell 1999 is the last (R91). -/
def State.initCell (i : Nat) (s : State) : State :=
  if i + 1 < CELLS then (s.storeCell i (blankCell s.cfg)).microDone .cinit
  else if i < CELLS then (s.storeCell i (blankCell s.cfg)).commandDone
  else s.commandDone

/-- CINIT's four register stores, each a micro-step of its own under `interleave` (R95). -/
def initStores : List Micro := [.initAttr, .initRow, .initCol, .initReady]

/-- One of CINIT's four register stores (R95). -/
def State.initStore (m : Micro) (s : State) : State :=
  match m with
  | .initAttr => { s with con := s.con.setAttr s.cfg.defaultAttr }
  | .initRow => { s with con := s.con.setRow 0 }
  | .initCol => { s with con := s.con.setCol 0 }
  | .initReady => { s with con := { s.con with ready := true } }
  | .readRow | .readCol | .readAttr | .storeCol | .wrapCol | .storeRow => s

/-- A micro-step of CINIT under the race model `fault` (R91). -/
def State.cinitMicro (s : State) : State :=
  match s.top.mu with
  | 0 => s.startConsole .cinit (fun s => { s with con := initialConsole s.cfg }.microDone .cinit)
  | i + 1 => s.initCell i

/-- A micro-step of CINIT under `interleave`: the stores in any order the run picks, then the cells (R95). -/
def State.cinitInterleaved (s : State) : State :=
  if s.top.mu < initStores.length then
    match pickFrom (initStores.filter (fun m => !s.top.done.contains m)) s.pick with
    | some m => (s.initStore m).microDoneOf .cinit m
    | none => s.microDone .cinit
  else s.initCell (s.top.mu - initStores.length)

/-- CINIT (R91, R95). -/
def execCinit (s : State) : Host.Outcome State Fault Refusal :=
  .next (match s.cfg.raceModel with
    | .fault => s.cinitMicro
    | .interleave => s.cinitInterleaved)

/-! ### SETCOLOR -/

/-- SETCOLOR (R92); one micro-step under either race model (R95). -/
def execSetcolor (a : Byte) (s : State) : Host.Outcome State Fault Refusal :=
  .next (s.startReady .setcolor (fun s => { s with con := s.con.setAttr a }.commandDone))

/-! ### PUTCHAR -/

/-- PUTCHAR reads `con.row`, `con.col` and `con.attr` into its locals (R93 `m0`). -/
def State.readCursor (s : State) : State :=
  s.setTop { s.top with row := s.con.row, col := s.con.col, attr := s.con.attr }

/-- PUTCHAR writes its glyph at the cursor it read (R93 `m1`, R95 `u4`). -/
def State.writeGlyph (ch : Byte) (s : State) : State :=
  s.memWrite (cellAddr s.cfg s.top.row s.top.col) CELL_BYTES (glyphCell ch s.top.attr).toNat

/-- PUTCHAR stores the cursor that follows the one it read (R93 `m2`). -/
def State.advanceCursor (s : State) : State :=
  { s with con :=
      (s.con.setCol (nextCursor s.top.row s.top.col).2).setRow (nextCursor s.top.row s.top.col).1 }

/-- A micro-step of PUTCHAR under the race model `fault` (R93). -/
def State.putcharMicro (ch : Byte) (s : State) : State :=
  match s.top.mu with
  | 0 => s.startReady .putchar (fun s => s.readCursor.microDone .putchar)
  | 1 => (s.writeGlyph ch).microDone .putchar
  | _ + 2 => s.advanceCursor.commandDone

/-- PUTCHAR's three reads under `interleave` (R95 `u1..u3`). -/
def cursorReads : List Micro := [.readRow, .readCol, .readAttr]

/-- A flow with what its read `m` takes from the Console registers (R95 `u1..u3`). -/
def Frame.takeRead (c : Console) (m : Micro) (f : Frame) : Frame :=
  match m with
  | .readRow => { f with row := c.row }
  | .readCol => { f with col := c.col }
  | .readAttr => { f with attr := c.attr }
  | .initAttr | .initRow | .initCol | .initReady | .storeCol | .wrapCol | .storeRow => f

/-- One of PUTCHAR's three reads, `u1` with its check of `con.ready` (R23, R95). -/
def State.cursorRead (m : Micro) (s : State) : State :=
  if s.con.readable m then (s.setTop (s.top.takeRead s.con m)).microDoneOf .putchar m
  else s.raise (.consoleNotReady .putchar)

/-- The cursor stores PUTCHAR may do next under `interleave`: with the intermediate column exposed, `u6`
only after `u5` and `u7` at any place; without it, the two stores in either order (R95). -/
def cursorStoresLeft (expose : Bool) (done : List Micro) : List Micro :=
  if expose then
    [Micro.storeCol, .wrapCol, .storeRow].filter
      (fun m => !done.contains m && (m != .wrapCol || done.contains .storeCol))
  else [Micro.storeCol, .storeRow].filter (fun m => !done.contains m)

/-- One of PUTCHAR's cursor stores, always computed from the values it read (R95 `u5..u7`). -/
def State.cursorStore (m : Micro) (s : State) : State :=
  match m with
  | .storeCol =>
    if s.cfg.exposeIntermediateColumn then { s with con := s.con.setCol (s.top.col + 1) }
    else { s with con := s.con.setCol (nextCursor s.top.row s.top.col).2 }
  | .wrapCol => if s.top.col + 1 = COLS then { s with con := s.con.setCol 0 } else s
  | .storeRow =>
    if s.cfg.exposeIntermediateColumn then
      if s.top.col + 1 = COLS then
        { s with con := s.con.setRow (if s.top.row + 1 < ROWS then s.top.row + 1 else 0) }
      else s
    else if (nextCursor s.top.row s.top.col).1 ≠ s.top.row then
      { s with con := s.con.setRow (nextCursor s.top.row s.top.col).1 }
    else s
  | .initAttr | .initRow | .initCol | .initReady | .readRow | .readCol | .readAttr => s

/-- How many micro-steps PUTCHAR has under `interleave`: `u1..u7`, or `u1..u6` (R95). -/
def putcharSteps (expose : Bool) : Nat := if expose then 7 else 6

/-- PUTCHAR's glyph write under `interleave`, with its range check (R95 `u4`). -/
def State.checkedGlyph (ch : Byte) (s : State) : State :=
  if ROWS ≤ s.top.row ∨ COLS ≤ s.top.col then s.raise (.cursorOutOfRange s.top.row s.top.col)
  else (s.writeGlyph ch).microDone .putchar

/-- PUTCHAR's cursor stores under `interleave`; the last one completes the command (R95). -/
def State.cursorStoreMicro (s : State) : State :=
  match pickFrom (cursorStoresLeft s.cfg.exposeIntermediateColumn s.top.done) s.pick with
  | some m =>
    if s.top.mu + 1 < putcharSteps s.cfg.exposeIntermediateColumn then (s.cursorStore m).microDoneOf .putchar m
    else (s.cursorStore m).commandDone
  | none => s.commandDone

/-- A micro-step of PUTCHAR under `interleave` (R95). -/
def State.putcharInterleaved (ch : Byte) (s : State) : State :=
  if s.top.mu < cursorReads.length then
    match pickFrom (cursorReads.filter (fun m => !s.top.done.contains m)) s.pick with
    | some m => s.cursorRead m
    | none => s.microDone .putchar
  else if s.top.mu = cursorReads.length then s.checkedGlyph ch
  else s.cursorStoreMicro

/-- PUTCHAR (R93, R95). -/
def execPutchar (ch : Byte) (s : State) : Host.Outcome State Fault Refusal :=
  .next (match s.cfg.raceModel with
    | .fault => s.putcharMicro ch
    | .interleave => s.putcharInterleaved ch)

end Sys2Proof.Machine
end

