-- ==== Sys2Proof/Machine/Idt.lean ====
section
/-!
DEFINITION. The descriptor table commands IDTBUILD and IDTREG (42_idt.md R97, R98). Both are one atomic
micro-step.
-/

namespace Sys2Proof.Machine

/-- The 2048 bytes of the table written with 0: the loop of R97, whose byte writes no agent can observe one
by one (20_memory.md R48), as one block. -/
def State.zeroTable (s : State) : State :=
  { s with mem := s.mem.store s.cfg.idtBase.toNat (List.replicate IDT_BYTES 0) }

/-- IDTBUILD (R97). -/
def execIdtbuild (s : State) : Host.Outcome State Fault Refusal :=
  .next (if s.IF then s.raise .buildInterruptible
    else { s.zeroTable.loadTableRegister (idtRegister s.cfg) with idtBuilt := true }.commandDone)

/-- The five field writes of IDTREG at the descriptor's address `d`, in the order of R98. -/
def State.writeDescriptor (d : Nat) (h : Addr) (t : Byte) (s : State) : State :=
  ((((s.memWrite (d + 2) 2 codeSelector.toNat).memWrite (d + 0) 2 (offsetLow h).toNat).memWrite
    (d + 6) 2 (offsetHigh h).toNat).memWrite (d + 5) 1 t.toNat).memWrite (d + 4) 1 0

/-- IDTREG (R98). -/
def execIdtreg (v : Byte) (h : Addr) (t : Byte) (s : State) : Host.Outcome State Fault Refusal :=
  .next (if !s.idtBuilt then s.raise (.idtNotBuilt v)
    else (s.critical (State.writeDescriptor (descAddr s.cfg v) h t)).commandDone)

end Sys2Proof.Machine
end

