-- ==== Sys2Proof/Machine/Privileged.lean ====
section
/-!
DEFINITION. The privileged commands CLI, STI and SWINT (44_privileged.md R116 to R118). The block runs at
CPL 0 only, so no command checks a privilege (R114).
-/

namespace Sys2Proof.Machine

/-- CLI (R116). -/
def execCli (s : State) : Host.Outcome State Fault Refusal :=
  .next ((s.setIF false).logEvent .cli).commandDone

/-- STI (R117); nothing delays a delivery after it. -/
def execSti (s : State) : Host.Outcome State Fault Refusal :=
  .next ((s.setIF true).logEvent .sti).commandDone

/-- SWINT (R118): the return point is the next command, then the delivery, whatever `IF` is. -/
def execSwint (v : Byte) (s : State) : Host.Outcome State Fault Refusal :=
  .next ((s.logEvent (.int v)).commandDone.deliver v)

end Sys2Proof.Machine
end

