-- ==== Sys2Proof/Machine/Dispatch.lean ====
section
/-!
DEFINITION. `exec`: one micro-step of a command in the running context, one arm per command.
-/

namespace Sys2Proof.Machine

def exec (i : Instr) (s : State) : Host.Outcome State Fault Refusal :=
  match i with
  | .cinit => Sys2Proof.Machine.execCinit s
  | .setcolor a => Sys2Proof.Machine.execSetcolor a s
  | .putchar ch => Sys2Proof.Machine.execPutchar ch s
  | .idtbuild => Sys2Proof.Machine.execIdtbuild s
  | .idtreg v h t => Sys2Proof.Machine.execIdtreg v h t s
  | .picremap mb sb => Sys2Proof.Machine.execPicremap mb sb s
  | .piceoi => Sys2Proof.Machine.execPiceoi s
  | .cli => Sys2Proof.Machine.execCli s
  | .sti => Sys2Proof.Machine.execSti s
  | .swint v => Sys2Proof.Machine.execSwint v s

end Sys2Proof.Machine
end

