-- ==== Sys2Proof/Machine/Run.lean ====
section
/-!
DEFINITION. What the running context does at a step: it fetches the command at its `pc`, decodes it and runs
one micro-step of it, or moves through the trampoline (10_state.md R27; 30_encoding.md R81; 60_exceptions.md
R128; 70_reset_and_hazards.md R144).
-/

namespace Sys2Proof.Machine

/-- The command word at a flow's `pc`; `none` when the flow has finished (R27). -/
def Frame.fetch (f : Frame) : Option CmdWord := f.prog[f.pc]?

/-- The flow has finished its command list (R27, R144). -/
def Frame.finished (f : Frame) : Bool := f.prog.length ≤ f.pc

/-- Decode a fetched word and run one micro-step of its command; an illegal word is refused (R81). -/
def State.runWord (w : CmdWord) (s : State) : Host.Outcome State Fault Refusal :=
  match decode w with
  | .error _ => .next (s.refuse .illegalCommand)
  | .ok i => exec i s

/-- A step of the running context, the top one (R28): the main context takes no step once it has finished
(R144); an interrupt context goes through its phases (R128). -/
def State.runTop (s : State) : Host.Outcome State Fault Refusal :=
  match s.irqs with
  | [] =>
    match s.main.fetch with
    | none => .next s
    | some w => s.runWord w
  | k :: _ =>
    match k.phase with
    | .body =>
      match k.frame.fetch with
      | none => .next (s.setPhase .eoi)
      | some w => s.runWord w
    | .eoi => .next s.trampolineEoi
    | .ret => .next s.interruptReturn

/-- The coming move: the schedule's next, or the running context's when the schedule is empty (log 2). -/
def State.nextChoice (s : State) : Choice := s.sched.headD (.run 0)

/-- The schedule moves on; a move of the running context brings the order it picks. -/
def State.popChoice (s : State) : State :=
  { s with
    sched := s.sched.tail
    pick := match s.nextChoice with
      | .run k => k
      | .deliver => s.pick
      | .raiseLine _ _ => s.pick }

/-- One move of one agent (R11, R131). -/
def State.move (c : Choice) (s : State) : Host.Outcome State Fault Refusal :=
  match c with
  | .run _ => s.runTop
  | .deliver => .next s.hardwareDelivery
  | .raiseLine c n => .next (s.raiseIrq c n.val)

/-- Micro-steps of one command in the running context with no other agent between them, one for each entry of
`picks`, which gives the order taken where R95 leaves one; they end where the machine stops. -/
def execMicros (i : Instr) : List Nat → State → Host.Outcome State Fault Refusal
  | [], s => .next s
  | k :: picks, s =>
    if s.stopped then .next s
    else
      match exec i { s with pick := k } with
      | .next t => execMicros i picks t
      | .fault f => .fault f
      | .refused r => .refused r

/-- How many micro-steps a command has (R91, R93, R95, R97, R98, R108, R111, R116 to R118). -/
def microCount (cfg : Config) : Instr → Nat
  | .cinit =>
    match cfg.raceModel with
    | .fault => 1 + CELLS
    | .interleave => 4 + CELLS
  | .putchar _ =>
    match cfg.raceModel with
    | .fault => 3
    | .interleave => putcharSteps cfg.exposeIntermediateColumn
  | .picremap mb sb => (remapSequence cfg mb sb).length
  | .piceoi => 2
  | .setcolor _ | .idtbuild | .idtreg _ _ _ | .cli | .sti | .swint _ => 1

end Sys2Proof.Machine
end

