-- ==== Sys2Proof/Machine/Step.lean ====
section
/-!
DEFINITION. One step of the machine: no agent moves once a fault or a refusal is recorded (10_state.md R40,
60_exceptions.md R120); a configuration that breaks 00_scope.md R10 or 20_memory.md R47 is refused; else the
agent the schedule names makes one move.
-/

namespace Sys2Proof.Machine

/-- One step. The outcomes `fault` and `refused` report the fault or refusal the state has recorded. -/
def step (s : State) : Host.Outcome State Fault Refusal :=
  match s.fault with
  | some f => .fault f
  | none =>
    match s.refused with
    | some r => .refused r
    | none =>
      if configOk s.cfg then s.popChoice.move s.nextChoice
      else .next (s.refuse .badConfig)

/-- A program with word `w` at place `pc`, kept as it is elsewhere. -/
def placeWord : Nat → CmdWord → List CmdWord → List CmdWord
  | 0, w, [] => [w]
  | 0, w, _ :: rest => w :: rest
  | n + 1, w, [] => 0 :: placeWord n w []
  | n + 1, w, x :: rest => x :: placeWord n w rest

/-- The schedule with the running context's move first. -/
def runFirst : List Choice → List Choice
  | [] => []
  | .run k :: rest => .run k :: rest
  | .deliver :: rest => .run 0 :: .deliver :: rest
  | .raiseLine c n :: rest => .run 0 :: .raiseLine c n :: rest

/-- `s` with the command word of `w` placed where the running context fetches its next command, that context
at the start of a command, and its move the next one. -/
def State.withFetchWord (s : State) (nbits w : Nat) : State :=
  let f : Frame := { s.top.atCommand s.top.pc with prog := placeWord s.top.pc (tableWord nbits w) s.top.prog }
  match s.irqs with
  | [] => { s with main := f, sched := runFirst s.sched }
  | k :: rest => { s with irqs := { k with phase := .body, frame := f } :: rest, sched := runFirst s.sched }

end Sys2Proof.Machine
end

