-- ==== Sys2Proof/Machine/Boot.lean ====
section
/-!
DEFINITION. The reference entry program of 70_reset_and_hazards.md R142 and its launch. No step reads this file: any
entry program may be run (R143), and the two test vectors are parameters of this program alone.
-/

namespace Sys2Proof.Machine

/-- The entry program of the source's control flow, with the vector bases it gives PICREMAP; the timer's handler is
registered at `TIMER_VECTOR`, and the two smoke-test interrupts come after or before `sti` by `SMOKE_TEST_AFTER_STI`
(R123, R142). -/
def bootProgram (cfg : Config) (masterBase slaveBase : Byte) : List Instr :=
  let smoke := [Instr.swint cfg.testVectorA, Instr.swint cfg.testVectorB]
  let boot := [Instr.cinit, .idtbuild, .picremap masterBase slaveBase,
    .idtreg (timerVector masterBase) cfg.timerEntry timerType]
  if cfg.smokeTestAfterSti then boot ++ [.sti] ++ smoke else boot ++ smoke ++ [.sti]

/-- The reference entry program, with the default bases (R142). -/
def referenceProgram (cfg : Config) : List Instr := bootProgram cfg masterBaseDefault slaveBaseDefault

/-- The test vectors differ from `TIMER_VECTOR` (R142, D17). -/
def configTestVectors (cfg : Config) (masterBase : Byte) : Bool :=
  cfg.testVectorA != timerVector masterBase && cfg.testVectorB != timerVector masterBase

/-- The launch of the boot program. A test vector that is the timer's is `BAD_CONFIG` (R142, D17, log 8). -/
def State.launchBoot (cfg : Config) (masterBase slaveBase : Byte) : State :=
  let s := State.launch cfg ((bootProgram cfg masterBase slaveBase).map encode)
  if configTestVectors cfg masterBase then s else s.refuse .badConfig

end Sys2Proof.Machine
end

