-- ==== Sys2Proof/Safety.lean ====
section
/-!
DEFINITION. The terms statements use: a machine that can move, end of run (70_reset_and_hazards.md R144), what
a step leaves unchanged, and the invariants of the machine.
-/

namespace Sys2Proof.Machine

/-! ### Running and ending -/

/-- Nothing has stopped the machine and its configuration is admitted, so an agent may move (R10, R40). -/
def State.canMove (s : State) : Prop := s.fault = none ∧ s.refused = none ∧ configOk s.cfg = true

/-- The running context is in a program: the main context, or an interrupt context in its body (R128). -/
def State.inProgram (s : State) : Prop := ∀ k, s.irqs.head? = some k → k.phase = .body

/-- The coming move is the running context's. -/
def Choice.isRun : Choice → Bool
  | .run _ => true
  | .deliver => false
  | .raiseLine _ _ => false

/-- A quiescent end state (R144). -/
def State.quiescent (s : State) : Bool :=
  s.main.finished && s.irqs.isEmpty && s.fault.isNone && s.refused.isNone

/-! ### What stays the same -/

/-- Every byte of memory reads as before. -/
def keepsMemory (s t : State) : Prop := ∀ a, t.mem.byteAt a = s.mem.byteAt a

/-- Every byte of memory outside the `n` bytes from `lo` reads as before. -/
def keepsMemoryOutside (lo n : Nat) (s t : State) : Prop :=
  ∀ a, a < lo ∨ lo + n ≤ a → t.mem.byteAt a = s.mem.byteAt a

/-- The Console registers are as before. -/
def keepsConsole (s t : State) : Prop := t.con = s.con

/-- The table register and the build mark are as before. -/
def keepsTable (s t : State) : Prop := t.idtr = s.idtr ∧ t.idtBuilt = s.idtBuilt

/-- Both controllers are as before. -/
def keepsPics (s t : State) : Prop := t.picM = s.picM ∧ t.picS = s.picS

/-- The interrupt-enable flag is as before. -/
def keepsIF (s t : State) : Prop := t.IF = s.IF

/-- The port trace is as before. -/
def keepsTrace (s t : State) : Prop := t.trace = s.trace

/-- The privileged-operation trace is as before. -/
def keepsPtrace (s t : State) : Prop := t.ptrace = s.ptrace

/-- No fault and no refusal is recorded or cleared. -/
def keepsStops (s t : State) : Prop := t.fault = s.fault ∧ t.refused = s.refused

/-- The configuration and the schedule are as before. -/
def keepsInputs (s t : State) : Prop := t.cfg = s.cfg ∧ t.sched = s.sched

/-- Every context is as before. -/
def keepsContexts (s t : State) : Prop := t.main = s.main ∧ t.irqs = s.irqs

/-- The contexts are as before but for the top one's flow, which is `f`. -/
def contextsWithTop (f : Frame) (s t : State) : Prop :=
  t.main = (s.setTop f).main ∧ t.irqs = (s.setTop f).irqs

/-- The top context has completed its command: `pc` one further, `mu` 0, inside no command; every other
context is as before (R27). -/
def advances (s t : State) : Prop := contextsWithTop s.top.commandDone s t

/-! ### Conditions of the rules -/

/-- No context below the running one is inside a Console command. -/
def noConsoleBelow (s : State) : Prop := ∀ f ∈ s.below, ∀ k, f.inOp = some k → k.isConsole = false

/-- The controller a PICEOI writes first (R111). -/
def firstEoi (cfg : Config) : Ctrl := if cfg.eoiOrder = .slaveFirst then .S else .M

/-- A source asks for service: it is requested, not masked, and no line of equal or higher priority is in
service at its controller; a slave line also needs master line 2 free (R105). -/
def asks (s : State) : Ctrl × Nat → Prop
  | (.M, n) => n < 8 ∧ n ≠ 2 ∧ s.picM.irr.getLsbD n = true ∧ s.picM.imr.getLsbD n = false ∧
      ∀ k, k ≤ n → s.picM.isr.getLsbD k = false
  | (.S, m) => m < 8 ∧ s.picS.irr.getLsbD m = true ∧ s.picS.imr.getLsbD m = false ∧
      (∀ k, k ≤ m → s.picS.isr.getLsbD k = false) ∧ s.picM.imr.getLsbD 2 = false ∧
      ∀ k, k ≤ 2 → s.picM.isr.getLsbD k = false

/-- The fixed priority of R131: master 0, 1, the slave's 0 to 7, master 3 to 7. -/
def sourceRank : Ctrl × Nat → Nat
  | (.M, n) => if n < 2 then n else n + 8
  | (.S, m) => m + 2

/-- The descriptor `d` is what delivery of vector `v` reads through the table register `r` (R126). -/
def readsDescriptor (s : State) (r : TableReg) (v : Byte) (d : BitVec 64) : Prop :=
  s.idtr = some r ∧ 8 * v.toNat + 7 ≤ r.limit.toNat ∧ s.memRead (r.base.toNat + 8 * v.toNat) 8 = some d.toNat

/-- The descriptor is a present 32-bit interrupt or trap gate with selector 8 (R65, R126). -/
def goodGate (d : BitVec 64) : Prop :=
  d.getLsbD 47 = true ∧ d.getLsbD 44 = false ∧
    (d.extractLsb' 40 4 = 0xE ∨ d.extractLsb' 40 4 = 0xF) ∧ d.extractLsb' 16 16 = 8

/-- The fault of delivering vector `v`, the earliest that applies of R126 and R131: no table, beyond the limit, not
present, unsupported gate, no handler program, nesting too deep. -/
def deliveryFault (s : State) (v : Byte) (f : Fault) : Prop :=
  (s.idtr = none ∧ f = .noIdt v) ∨
  (∃ r, s.idtr = some r ∧ r.limit.toNat < 8 * v.toNat + 7 ∧ f = .unhandledVector v) ∨
  ∃ r d, readsDescriptor s r v d ∧
    ((d.getLsbD 47 = false ∧ f = .unhandledVector v) ∨
      (d.getLsbD 47 = true ∧ ¬ goodGate d ∧ f = .unsupportedGate v (d.extractLsb' 40 8) (d.extractLsb' 16 16)) ∨
      (goodGate d ∧ handlerAt s.cfg (d.extractLsb' 48 16 ++ d.extractLsb' 0 16) = none ∧
        f = .noHandlerCode v (d.extractLsb' 48 16 ++ d.extractLsb' 0 16)) ∨
      (goodGate d ∧ handlerAt s.cfg (d.extractLsb' 48 16 ++ d.extractLsb' 0 16) ≠ none ∧
        s.cfg.maxNest ≤ s.irqs.length ∧ f = .stackExhausted v))

/-- Everything is as before but the contexts and the Console registers. -/
def keepsRest (s t : State) : Prop :=
  keepsMemory s t ∧ keepsTable s t ∧ keepsPics s t ∧ keepsIF s t ∧ keepsTrace s t ∧ keepsPtrace s t ∧
    keepsStops s t ∧ keepsInputs s t

/-- The register stores of an interleaved CINIT the running flow has still to do (R95). -/
def initLeft (s : State) (m : Micro) : Prop :=
  (m = .initAttr ∨ m = .initRow ∨ m = .initCol ∨ m = .initReady) ∧ m ∉ s.top.done

/-- The running CINIT does its register store `m`, and nothing else changes (R95). -/
def doesInit (m : Micro) (s t : State) : Prop :=
  t.con =
    { row := if m = .initRow then 0 else s.con.row
      col := if m = .initCol then 0 else s.con.col
      attr := if m = .initAttr then s.cfg.defaultAttr else s.con.attr
      ready := s.con.ready || decide (m = .initReady) } ∧
    contextsWithTop { s.top.microDone .cinit with done := m :: s.top.done } s t ∧ keepsRest s t

/-- A read of an interleaved PUTCHAR is CONSOLE_NOT_READY: `u1`, the read of `con.row`, where `con.ready` is false (R23,
R95, log 12). -/
def readRaises (c : Console) (m : Micro) : Prop := m = .readRow ∧ c.ready = false

/-- The reads of an interleaved PUTCHAR the running flow has still to do (R95 `u1..u3`). -/
def readLeft (s : State) (m : Micro) : Prop :=
  (m = .readRow ∨ m = .readCol ∨ m = .readAttr) ∧ m ∉ s.top.done

/-- The running PUTCHAR takes its read `m` of a Console register, and nothing else changes (R95 `u1..u3`). -/
def takesRead (m : Micro) (s t : State) : Prop :=
  contextsWithTop
    { s.top.microDone .putchar with
      row := if m = .readRow then s.con.row else s.top.row
      col := if m = .readCol then s.con.col else s.top.col
      attr := if m = .readAttr then s.con.attr else s.top.attr
      done := m :: s.top.done } s t ∧
    keepsConsole s t ∧ keepsRest s t

/-- The cursor stores the running PUTCHAR may do next (R95 `u5..u7`): the intermediate column's wrap only where it is
exposed, and only after the column store. -/
def storeLeft (s : State) (m : Micro) : Prop :=
  m ∉ s.top.done ∧ (m = .storeCol ∨ m = .storeRow ∨
    (m = .wrapCol ∧ s.cfg.exposeIntermediateColumn = true ∧ Micro.storeCol ∈ s.top.done))

/-- The Console registers after the store `m` of a PUTCHAR that has read row `r` and column `c` (R95 `u5..u7`). -/
def storedConsole (expose : Bool) (r c : Nat) (m : Micro) (con : Console) : Console :=
  match expose, m with
  | true, .storeCol => { con with col := c + 1 }
  | true, .wrapCol => if c + 1 = 80 then { con with col := 0 } else con
  | true, .storeRow =>
    if c + 1 = 80 then { con with row := if r + 1 < 25 then r + 1 else 0 } else con
  | false, .storeCol => { con with col := (nextCursor r c).2 }
  | false, .storeRow =>
    if (nextCursor r c).1 ≠ r then { con with row := (nextCursor r c).1 } else con
  | _, _ => con

/-- The running PUTCHAR does its cursor store `m` from the row and column it has read, completing the command if it is
the last one, and nothing else changes (R95 `u5..u7`). -/
def doesStore (m : Micro) (s t : State) : Prop :=
  t.con = storedConsole s.cfg.exposeIntermediateColumn s.top.row s.top.col m s.con ∧
    contextsWithTop
      (if s.top.mu + 1 < (if s.cfg.exposeIntermediateColumn then 7 else 6) then
        { s.top.microDone .putchar with done := m :: s.top.done }
      else s.top.commandDone) s t ∧
    keepsRest s t

/-! ### Invariants -/

/-- A flow in a program is inside no command when `mu = 0`, and else inside the command at its `pc` (R41). -/
def Frame.inStep (f : Frame) : Prop :=
  (f.mu = 0 ∧ f.inOp = none) ∨
    (f.mu ≠ 0 ∧ ∃ w i, f.fetch = some w ∧ decode w = .ok i ∧ f.inOp = some i.kind)

/-- An interrupt context's flow fits its phase (R41, R128): in the `eoi` phase it is inside no command or
inside the EOI pair (log 9). -/
def IrqContext.inStep (k : IrqContext) : Prop :=
  match k.phase with
  | .body => k.frame.inStep
  | .eoi => (k.frame.mu = 0 ∧ k.frame.inOp = none) ∨ (k.frame.mu ≠ 0 ∧ k.frame.inOp = some .piceoi)
  | .ret => k.frame.mu = 0 ∧ k.frame.inOp = none

/-- Every context's `mu` and `inOp` fit (R41). -/
def State.inStep (s : State) : Prop := s.main.inStep ∧ ∀ k ∈ s.irqs, k.inStep

/-- What a flow has read of the cursor: inside the screen, but for a column of 80 that an interleaved PUTCHAR
has read and not yet checked (R95). -/
def Frame.localsOk (cfg : Config) (f : Frame) : Prop :=
  f.row < ROWS ∧
    (f.col < COLS ∨ (cfg.raceModel = .interleave ∧ f.col = COLS ∧ f.mu ≤ 3 ∧ f.inOp = some .putchar))

/-- What every flow has read of the cursor is as `Frame.localsOk` says. -/
def State.localsOk (s : State) : Prop := ∀ f ∈ s.frames, f.localsOk s.cfg

/-- The micro-steps an interleaved PUTCHAR has done fit its place in the command: three reads, the glyph, then its
stores, `u6` only after `u5`; a flow at the start of a command has done none (R95). -/
def Frame.doneOk (cfg : Config) (f : Frame) : Prop :=
  (f.mu = 0 → f.done = []) ∧
    (cfg.raceModel = .interleave → f.inOp = some .putchar →
      f.done.Nodup ∧
        ((f.mu ≤ 3 ∧ f.done.length = f.mu ∧ ∀ m ∈ f.done, m ∈ cursorReads) ∨
          (4 ≤ f.mu ∧ f.mu < putcharSteps cfg.exposeIntermediateColumn ∧ f.done.length + 1 = f.mu ∧
            (∀ m ∈ cursorReads, m ∈ f.done) ∧
            (∀ m ∈ f.done, m ∈ cursorReads ∨ m = .storeCol ∨ m = .storeRow ∨
              (m = .wrapCol ∧ cfg.exposeIntermediateColumn = true)) ∧
            (Micro.wrapCol ∈ f.done → Micro.storeCol ∈ f.done))))

/-- The flow is inside a PUTCHAR at the end of a row, between its `u5` and its `u6` (R95). -/
def Frame.wrapsNext (f : Frame) : Prop :=
  f.inOp = some .putchar ∧ Micro.storeCol ∈ f.done ∧ Micro.wrapCol ∉ f.done ∧ f.col + 1 = COLS

/-- The cursor is inside the screen (R24). Only under `interleave` with the intermediate column exposed may the
column be 80, and then some context is between `u5` and `u6` of a PUTCHAR at the end of a row (R95, C7). -/
def State.cursorOk (s : State) : Prop :=
  s.con.row < ROWS ∧
    (s.con.col < COLS ∨ (s.cfg.raceModel = .interleave ∧ s.cfg.exposeIntermediateColumn = true ∧
      s.con.col = COLS ∧ ∃ f ∈ s.frames, f.wrapsNext)) ∧
    s.localsOk ∧ ∀ f ∈ s.frames, f.doneOk s.cfg

/-- Under the race model `fault`, at most one context is inside a Console command (R90). -/
def State.noRace (s : State) : Prop :=
  s.cfg.raceModel = .fault → (s.frames.filter (fun f => (f.inOp.filter Kind.isConsole).isSome)).length ≤ 1

/-- The nesting stays within `MAX_NEST` (R28, R130). -/
def State.nestOk (s : State) : Prop := s.irqs.length ≤ s.cfg.maxNest

/-- A controller's vector base has its low three bits 0 (R33), and a configured controller is not in the middle
of a sequence and holds the admitted bytes (R34, R103). -/
def Pic.ok (c : Ctrl) (p : Pic) : Prop :=
  p.vbase &&& 7 = 0 ∧
    (p.configured = true → p.phase = .idle ∧ p.icw1 = icw1Byte ∧ p.icw3 = icw3Byte c ∧ p.icw4 = icw4Byte)

/-- How many of PICREMAP's first `n` writes go to controller `c` (R107). -/
def remapDone (cfg : Config) (c : Ctrl) (mb sb : Byte) (n : Nat) : Nat :=
  ((remapSequence cfg mb sb).take n).countP (fun w => w.1 == commandPort c || w.1 == dataPort c)

/-- Where controller `c` stands after `n` writes of its initialization sequence (R103, R107). -/
def Pic.atInit (c : Ctrl) (n : Nat) (p : Pic) : Prop :=
  match n with
  | 0 => p.phase = .idle
  | 1 => p.phase = .wICW2 ∧ p.icw1 = icw1Byte
  | 2 => p.phase = .wICW3 ∧ p.icw1 = icw1Byte
  | 3 => p.phase = .wICW4 ∧ p.icw1 = icw1Byte ∧ p.icw3 = icw3Byte c
  | _ + 4 => p.phase = .idle

/-- How many writes PICREMAP makes (R107, R108). -/
def remapWrites (cfg : Config) : Nat := if cfg.explicitUnmask then 10 else 8

/-- The controller that micro-step `mu` of PICREMAP writes, and the place of that write in the controller's own
sequence (R107): the master's whole sequence first, or step by step with the master first. -/
def remapPlace (cfg : Config) (mu : Nat) : Ctrl × Nat :=
  match cfg.remapOrder with
  | .controllerMajor =>
    if mu < (if cfg.explicitUnmask then 5 else 4) then (.M, mu)
    else (.S, mu - (if cfg.explicitUnmask then 5 else 4))
  | .stepMajor => (if mu % 2 = 0 then .M else .S, mu / 2)

/-- The port and byte at place `n` of a controller's initialization sequence, with vector base `base` (R107). -/
def remapWrite : Ctrl → Byte → Nat → Half × Byte
  | .M, _, 0 => (0x20, 0x11)
  | .M, base, 1 => (0x21, base)
  | .M, _, 2 => (0x21, 0x04)
  | .M, _, 3 => (0x21, 0x01)
  | .M, _, _ + 4 => (0x21, 0x00)
  | .S, _, 0 => (0xA0, 0x11)
  | .S, base, 1 => (0xA1, base)
  | .S, _, 2 => (0xA1, 0x02)
  | .S, _, 3 => (0xA1, 0x01)
  | .S, _, _ + 4 => (0xA1, 0x00)

/-- The registers a controller has after the write at place `n` of its sequence, from registers `p` (R102, R103):
ICW1 restarts it, the vector base loses its low three bits, the mode configures it, and the mask unmasks every line. -/
def remapReaction (c : Ctrl) (base : Byte) (n : Nat) (p : Pic) : Pic :=
  match n with
  | 0 => { p with icw1 := 0x11, phase := .wICW2, configured := false, imr := 0, isr := 0, irr := 0 }
  | 1 => { p with vbase := base &&& 0xF8, phase := .wICW3 }
  | 2 => { p with icw3 := match c with | .M => 0x04 | .S => 0x02, phase := .wICW4 }
  | 3 => { p with icw4 := 0x01, phase := .idle, configured := true }
  | _ + 4 => { p with imr := 0 }

/-- Only the top context can be inside PICREMAP; then both controllers stand where its writes have brought
them, and else no controller is in the middle of a sequence (R103, R107, R109). -/
def State.remapOk (s : State) : Prop :=
  (∀ f ∈ s.below, f.inOp ≠ some .picremap) ∧
    (s.top.inOp = some .picremap → ∃ w mb sb, s.top.fetch = some w ∧ decode w = .ok (.picremap mb sb) ∧
      Pic.atInit .M (remapDone s.cfg .M mb sb s.top.mu) s.picM ∧
      Pic.atInit .S (remapDone s.cfg .S mb sb s.top.mu) s.picS) ∧
    (s.top.inOp ≠ some .picremap → s.picM.phase = .idle ∧ s.picS.phase = .idle)

/-- Both controllers are in order, and master line 2 has no request of its own (R104). -/
def State.picsOk (s : State) : Prop :=
  Pic.ok .M s.picM ∧ Pic.ok .S s.picS ∧ s.picM.irr.getLsbD 2 = false ∧ s.remapOk

/-- The table register is loaded exactly when the table has been built, with the value of R66, and then each
descriptor of the table is zero or one that IDTREG assembles (R31, R35, R82). -/
def State.tableOk (s : State) : Prop :=
  (s.idtr = if s.idtBuilt then some (idtRegister s.cfg) else none) ∧
    (s.idtBuilt = true → ∀ v, s.descAt v = some 0 ∨ ∃ h t, s.descAt v = some (descriptor h t))

/-- The invariant of the machine. -/
def State.Inv (s : State) : Prop :=
  s.inStep ∧ s.cursorOk ∧ s.noRace ∧ s.nestOk ∧ s.picsOk ∧ s.tableOk ∧ s.mem.wf

end Sys2Proof.Machine
end

