-- ==== Sys2Proof/Certificates/Slice0/Obligations.lean ====
section
/-!
DEFINITION. The statements for the provers, in the order of OBLIGATIONS.json. A docstring names the rules of
spec/ a statement is about; where a clause rests on a choice of the model it names the log entry.
-/

open Sys2Proof Sys2Proof.Machine

/-! ### Encoding (30_encoding.md) -/

/-- R79: decoding the word of a command gives the command back, with every operand at every value. -/
def Obligations.DecodeOfEncode : Prop :=
  ∀ i : Instr, i.wf = true → decode (encode i) = .ok i

/-- R78, R79: a word that decodes is the word of the command it decodes to, so no bit of it is dropped. -/
def Obligations.EncodeOfDecode : Prop :=
  ∀ (w : CmdWord) (i : Instr), decode w = .ok i → encode i = w

/-- R81: the illegal words are those whose `op` is not in the map, whose `rsv` is not 0, or that hold a nonzero
field the map lists as "0"; reaching one is refused as ILLEGAL_COMMAND, code 0x81, and then no agent takes another
step. That the step uses up its entry of the schedule is the model's choice (log 2), and that it records the refusal,
which the next step answers, its reading (log 5). -/
def Obligations.IllegalWordRefused : Prop :=
  ∀ w : CmdWord,
    ((∀ i, decode w ≠ .ok i) ↔
      fieldUse (CmdFields.ofWord w).op = none ∨ (CmdFields.ofWord w).rsv ≠ 0 ∨
        ∃ u, fieldUse (CmdFields.ofWord w).op = some u ∧
          ((u.a = false ∧ (CmdFields.ofWord w).a ≠ 0) ∨ (u.b = false ∧ (CmdFields.ofWord w).b ≠ 0) ∨
            (u.c = false ∧ (CmdFields.ofWord w).c ≠ 0))) ∧
    ∀ s : State, s.canMove → s.nextChoice.isRun = true → s.inProgram → s.top.fetch = some w →
      (∀ i, decode w ≠ .ok i) →
      step s = .next { s.popChoice with refused := some .illegalCommand } ∧
        step { s.popChoice with refused := some .illegalCommand } = .refused .illegalCommand ∧
        Refusal.code .illegalCommand = some 0x81

/-- R78, R83: a command stored little-endian decodes from its 8 bytes, the decoder consumes exactly these,
and fewer bytes are no command. -/
def Obligations.ByteStreamDecodes : Prop :=
  (∀ (i : Instr) (rest : List Byte),
    (encodeBytes i).length = 8 ∧ decodeBytes (encodeBytes i ++ rest) = .ok (i, rest)) ∧
  ∀ bs : List Byte, bs.length < 8 → decodeBytes bs = .error .tooFewBytes

/-- Words written out from R78 and R79 decode to the commands they stand for. -/
def Obligations.SampleWordsDecode : Prop :=
  decode 0x0000000000000001 = .ok .cinit ∧
  decode 0x0000000000001F02 = .ok (.setcolor 0x1F) ∧
  decode 0x0000000000004103 = .ok (.putchar 0x41) ∧
  decode 0x0000000000000010 = .ok .idtbuild ∧
  decode 0x00001012348E2011 = .ok (.idtreg 0x20 0x00101234 0x8E) ∧
  decode 0x0000000000282020 = .ok (.picremap 0x20 0x28) ∧
  decode 0x0000000000003032 = .ok (.swint 0x30) ∧
  decode 0x0100000000000001 = .error .reservedNonzero ∧
  decode 0x0000000000000101 = .error .unusedFieldNonzero

/-- R68, R69, R86: the glyph cell is `c | a << 8`, the attribute byte `fg | bg << 4` with each colour in its
half, operands above 15 masked. -/
def Obligations.CellAndAttributeFields : Prop :=
  (∀ c a : Byte, (glyphCell c a).extractLsb' 0 8 = c ∧ (glyphCell c a).extractLsb' 8 8 = a ∧
    (glyphCell c a).toNat = c.toNat + 256 * a.toNat) ∧
  ∀ fg bg : Nat, (attrByte fg bg).toNat = fg % 16 + 16 * (bg % 16) ∧
    (attrFg (attrByte fg bg)).val = fg % 16 ∧ (attrBg (attrByte fg bg)).val = bg % 16

/-- R62, R63: each field of an assembled descriptor, and its eight bytes lowest address first. -/
def Obligations.DescriptorFields : Prop :=
  ∀ (h : Addr) (t : Byte),
    descOffset (descriptor h t) = h ∧ descSelector (descriptor h t) = 0x0008 ∧
    descType (descriptor h t) = t ∧ (descriptor h t).extractLsb' 32 8 = 0 ∧
    leBytes 8 (descriptor h t).toNat =
      [h.extractLsb' 0 8, h.extractLsb' 8 8, 0x08, 0x00, 0x00, t, h.extractLsb' 16 8, h.extractLsb' 24 8]

/-! ### A step (10_state.md R27, R40, R43; 70_reset_and_hazards.md R140, R144) -/

/-- When the word at the running context's `pc` decodes to a command, a step on which that context moves is
one `exec` of the command, at the state with the move taken off the schedule (log 1, log 2). -/
def Obligations.StepRunsDecoded : Prop :=
  ∀ (s : State) (w : CmdWord) (i : Instr), s.canMove → s.nextChoice.isRun = true → s.inProgram →
    s.top.fetch = some w → decode w = .ok i → step s = exec i s.popChoice

/-- R43, R140: what launch leaves, wherever the spec gives the value, for every configuration and program. -/
def Obligations.LaunchState : Prop :=
  ∀ (cfg : Config) (prog : List CmdWord),
    (State.launch cfg prog).con.ready = false ∧ (State.launch cfg prog).idtBuilt = false ∧
    (State.launch cfg prog).idtr = none ∧ (State.launch cfg prog).IF = false ∧
    (State.launch cfg prog).depth = 1 ∧ (State.launch cfg prog).top.pc = 0 ∧
    (State.launch cfg prog).top.mu = 0 ∧ (State.launch cfg prog).top.inOp = none ∧
    (∀ c, ((State.launch cfg prog).pic c).configured = false ∧ ((State.launch cfg prog).pic c).phase = .idle ∧
      ((State.launch cfg prog).pic c).irr = 0) ∧
    (State.launch cfg prog).trace = [] ∧ (State.launch cfg prog).ptrace = [] ∧
    (State.launch cfg prog).fault = none ∧ (State.launch cfg prog).refused = none ∧
    (∀ a, (State.launch cfg prog).mem.byteAt a = none)

/-- R120 (and R40): once a fault or a refusal is recorded no agent takes another step, the state keeps it, and it is no
successful end of a run; reset records neither. -/
def Obligations.StoppedStaysStopped : Prop :=
  State.reset.fault = none ∧ State.reset.refused = none ∧
  (∀ (s : State) (f : Fault), s.fault = some f → step s = .fault f ∧ s.quiescent = false) ∧
  ∀ (s : State) (r : Refusal), s.refused = some r →
    (s.fault = none → step s = .refused r) ∧ (∀ t, step s ≠ .next t) ∧ s.quiescent = false

/-- R9, R10, R47, R59, R142: a configuration with a misaligned base, a region past 2^32, overlapping regions, a region
over a handler's entry, or no room for a handler is refused, and then no agent takes another step. The boot program,
with any bases, is launched as it is when neither test vector is TIMER_VECTOR of its master base, and is refused when
one is. That the first happens at the first step, what counts as occupied memory, and that MAX_NEST and the test vectors
are BAD_CONFIG too, is the model's (log 8). -/
def Obligations.BadConfigRefused : Prop :=
  (∀ s : State, s.fault = none → s.refused = none →
    (s.cfg.fbBase.toNat % 2 ≠ 0 ∨ s.cfg.idtBase.toNat % 8 ≠ 0 ∨
      2 ^ 32 < s.cfg.fbBase.toNat + 4000 ∨ 2 ^ 32 < s.cfg.idtBase.toNat + 2048 ∨
      (∃ a, s.cfg.fbBase.toNat ≤ a ∧ a < s.cfg.fbBase.toNat + 4000 ∧
        s.cfg.idtBase.toNat ≤ a ∧ a < s.cfg.idtBase.toNat + 2048) ∨
      (∃ r ∈ s.cfg.occupied, ∃ a, r.base ≤ a ∧ a < r.base + r.size ∧
        ((s.cfg.fbBase.toNat ≤ a ∧ a < s.cfg.fbBase.toNat + 4000) ∨
          (s.cfg.idtBase.toNat ≤ a ∧ a < s.cfg.idtBase.toNat + 2048))) ∨
      (∃ p ∈ s.cfg.handlers,
        (s.cfg.fbBase.toNat ≤ p.1.toNat ∧ p.1.toNat < s.cfg.fbBase.toNat + 4000) ∨
          (s.cfg.idtBase.toNat ≤ p.1.toNat ∧ p.1.toNat < s.cfg.idtBase.toNat + 2048)) ∨
      s.cfg.maxNest = 0) →
    step s = .next { s with refused := some .badConfig } ∧
      step { s with refused := some .badConfig } = .refused .badConfig) ∧
  ∀ (cfg : Config) (mb sb : Byte),
    (cfg.testVectorA ≠ mb &&& 0xF8 → cfg.testVectorB ≠ mb &&& 0xF8 →
      State.launchBoot cfg mb sb = State.launch cfg ((bootProgram cfg mb sb).map encode)) ∧
    (cfg.testVectorA = mb &&& 0xF8 ∨ cfg.testVectorB = mb &&& 0xF8 →
      State.launchBoot cfg mb sb =
        { State.launch cfg ((bootProgram cfg mb sb).map encode) with refused := some .badConfig } ∧
      step (State.launchBoot cfg mb sb) = .refused .badConfig)

/-- R144: the main context, once finished, takes no more steps; its moves change nothing but the schedule. -/
def Obligations.FinishedMainIdles : Prop :=
  ∀ s : State, s.canMove → s.nextChoice.isRun = true → s.irqs = [] → s.main.pc = s.main.prog.length →
    step s = .next s.popChoice ∧ s.popChoice.quiescent = true

/-! ### Linear memory (00_scope.md R13, 20_memory.md R45) -/

/-- R13, R45: `MemRead` gives back what `MemWrite` stored, the least significant byte at the lowest address, and
every byte outside the store reads as before. -/
def Obligations.MemReadAfterMemWrite : Prop :=
  ∀ (s : State) (a n v : Nat),
    (s.memWrite a n v).memRead a n = some (v % 256 ^ n) ∧
    (∀ i, i < n → (s.memWrite a n v).mem.byteAt (a + i) = some (BitVec.ofNat 8 (v / 256 ^ i))) ∧
    keepsMemoryOutside a n s (s.memWrite a n v)

/-! ### Console (41_console.md) -/

/-- R88, R89: the cursor advance, which never scrolls: after any number of advances from a cell of the screen
the cursor stands that many cells further, counted round the 2000 cells. -/
def Obligations.CursorAdvance : Prop :=
  ∀ r c : Nat, r < 25 → c < 80 →
    (c + 1 < 80 → nextCursor r c = (r, c + 1)) ∧
    (c + 1 = 80 → r + 1 < 25 → nextCursor r c = (r + 1, 0)) ∧
    (c + 1 = 80 → r + 1 = 25 → nextCursor r c = (0, 0)) ∧
    ∀ n, ((fun p => nextCursor p.1 p.2)^[n] (r, c)).1 < 25 ∧ ((fun p => nextCursor p.1 p.2)^[n] (r, c)).2 < 80 ∧
      cellIdx ((fun p => nextCursor p.1 p.2)^[n] (r, c)).1 ((fun p => nextCursor p.1 p.2)^[n] (r, c)).2
        = (cellIdx r c + n) % 2000

/-- R91, R95: CINIT's micro-steps, from any state, so with any other context's moves between them: the four register
stores, one micro-step under the race model `fault`; under `interleave` each store that is left can come next; then the
write of each cell. The list of the stores done is the model's own (log 17). -/
def Obligations.CinitMicroSteps : Prop :=
  (∀ s : State, s.cfg.raceModel = .fault → s.top.mu = 0 → noConsoleBelow s →
    ∃ t, exec .cinit s = .next t ∧
      t.con = { row := 0, col := 0, attr := s.cfg.defaultAttr, ready := true } ∧
      contextsWithTop (s.top.microDone .cinit) s t ∧ keepsMemory s t ∧ keepsTable s t ∧ keepsPics s t ∧
      keepsIF s t ∧ keepsTrace s t ∧ keepsPtrace s t ∧ keepsStops s t ∧ keepsInputs s t) ∧
  (∀ s : State, s.cfg.raceModel = .interleave → s.top.mu < 4 →
    (∀ m, initLeft s m → ∃ k t, exec .cinit { s with pick := k } = .next t ∧ doesInit m s t) ∧
    ((∃ m, initLeft s m) → ∃ m t, initLeft s m ∧ exec .cinit s = .next t ∧ doesInit m s t)) ∧
  ∀ (s : State) (i : Nat), i < 2000 → s.top.mu = i + (if s.cfg.raceModel = .fault then 1 else 4) →
    ∃ t, exec .cinit s = .next t ∧
      t.cellAt i = some (glyphCell 0x20 s.cfg.defaultAttr) ∧
      keepsMemoryOutside (cellAddrOf s.cfg i) 2 s t ∧
      contextsWithTop (if i = 1999 then s.top.commandDone else s.top.microDone .cinit) s t ∧
      keepsConsole s t ∧ keepsTable s t ∧ keepsPics s t ∧ keepsIF s t ∧ keepsTrace s t ∧ keepsPtrace s t ∧
      keepsStops s t ∧ keepsInputs s t

/-- R91, R95: an uninterrupted CINIT, under either race model and in every order of its register stores, leaves
every one of the 2000 cells blank and the cursor at (0, 0), and changes nothing else of the spec's state. The list of
micro-steps done that is empty at its start is the model's own (log 17). -/
def Obligations.CinitWhole : Prop :=
  ∀ (s : State) (picks : List Nat), s.stopped = false → picks.length = microCount s.cfg .cinit →
    s.top.mu = 0 → s.top.done = [] → (s.cfg.raceModel = .fault → noConsoleBelow s) →
    ∃ t, execMicros .cinit picks s = .next t ∧
      t.con = { row := 0, col := 0, attr := s.cfg.defaultAttr, ready := true } ∧
      (∀ i, i < 2000 → t.cellAt i = some (glyphCell 0x20 s.cfg.defaultAttr)) ∧
      keepsMemoryOutside s.cfg.fbBase.toNat 4000 s t ∧
      advances s t ∧ keepsTable s t ∧ keepsPics s t ∧ keepsIF s t ∧ keepsTrace s t ∧ keepsPtrace s t ∧
      keepsStops s t ∧ keepsInputs s t

/-- R92: SETCOLOR sets the attribute and changes nothing else; every value is accepted. -/
def Obligations.SetcolorCompletes : Prop :=
  ∀ (s : State) (a : Byte), s.con.ready = true → (s.cfg.raceModel = .fault → noConsoleBelow s) →
    ∃ t, exec (.setcolor a) s = .next t ∧
      t.con = { s.con with attr := a } ∧
      advances s t ∧ keepsMemory s t ∧ keepsTable s t ∧ keepsPics s t ∧ keepsIF s t ∧ keepsTrace s t ∧
      keepsPtrace s t ∧ keepsStops s t ∧ keepsInputs s t

/-- R23, R92, R93, R95: SETCOLOR and PUTCHAR with `con.ready` false record CONSOLE_NOT_READY at their first micro-step,
where no race outranks it. Under `interleave` a PUTCHAR does so when the run takes its `u1`, and must where that read is
the one left; an uninterrupted PUTCHAR does so in every order of its reads, having written nothing. That `u1` is the
read of `con.row` is the model's reading of R95 (log 12), and the list of the reads done is its own (log 17). -/
def Obligations.ConsoleNotReady : Prop :=
  (∀ (s : State) (a : Byte), s.con.ready = false → (s.cfg.raceModel = .fault → noConsoleBelow s) →
    exec (.setcolor a) s = .next { s with fault := some (.consoleNotReady .setcolor) }) ∧
  (∀ (s : State) (ch : Byte), s.con.ready = false → s.cfg.raceModel = .fault → s.top.mu = 0 → noConsoleBelow s →
    exec (.putchar ch) s = .next { s with fault := some (.consoleNotReady .putchar) }) ∧
  ∀ (s : State) (ch : Byte), s.cfg.raceModel = .interleave → s.con.ready = false →
    (s.top.mu < 3 → readLeft s .readRow →
      (∃ k, exec (.putchar ch) { s with pick := k } =
        .next { s with pick := k, fault := some (.consoleNotReady .putchar) }) ∧
      ((∀ m, readLeft s m → m = .readRow) →
        exec (.putchar ch) s = .next { s with fault := some (.consoleNotReady .putchar) })) ∧
    ∀ picks : List Nat, 3 ≤ picks.length → s.stopped = false → s.top.mu = 0 → s.top.done = [] →
      ∃ t f, execMicros (.putchar ch) picks s = .next t ∧ t.fault = some (.consoleNotReady .putchar) ∧
        contextsWithTop f s t ∧ f.prog = s.top.prog ∧ f.pc = s.top.pc ∧
        keepsMemory s t ∧ keepsConsole s t ∧ keepsTable s t ∧ keepsPics s t ∧ keepsIF s t ∧ keepsTrace s t ∧
        keepsPtrace s t ∧ t.refused = s.refused ∧ keepsInputs s t

/-- R90: a Console command that starts its first micro-step while a context below is inside a Console command
records CONSOLE_RACE with the two kinds under `fault`; with no such context, and under `interleave`, no
CONSOLE_RACE is recorded. -/
def Obligations.ConsoleRace : Prop :=
  ∀ (s : State) (i : Instr), i.kind.isConsole = true → s.top.mu = 0 →
    (s.cfg.raceModel = .fault → ¬ noConsoleBelow s →
      ∃ f ∈ s.below, ∃ k, f.inOp = some k ∧ k.isConsole = true ∧
        exec i s = .next { s with fault := some (.consoleRace k i.kind) }) ∧
    ((s.cfg.raceModel = .interleave ∨ noConsoleBelow s) →
      ∃ t, exec i s = .next t ∧ (t.fault = s.fault ∨ t.fault = some (.consoleNotReady i.kind)))

/-- R93, R95: PUTCHAR's micro-steps, from any state, so with any other context's moves between them. Under the race
model `fault`: the reads, the glyph, the cursor. Under `interleave`: each read that is left and raises
nothing can come next, and whichever comes takes its register, or records CONSOLE_NOT_READY where it is `u1` and
`con.ready` is false (log 12); the glyph goes to the cell the command has read, and each cursor store that is left can
come next, computed from the row and column the command has read. The list of what is done is the model's own
(log 17). -/
def Obligations.PutcharMicroSteps : Prop :=
  (∀ (s : State) (ch : Byte), s.cfg.raceModel = .fault →
    (s.top.mu = 0 → s.con.ready = true → noConsoleBelow s →
      ∃ t, exec (.putchar ch) s = .next t ∧
        contextsWithTop { s.top.microDone .putchar with row := s.con.row, col := s.con.col, attr := s.con.attr } s t ∧
        keepsMemory s t ∧ keepsConsole s t ∧ keepsTable s t ∧ keepsPics s t ∧ keepsIF s t ∧ keepsTrace s t ∧
        keepsPtrace s t ∧ keepsStops s t ∧ keepsInputs s t) ∧
    (s.top.mu = 1 →
      ∃ t, exec (.putchar ch) s = .next t ∧
        t.memRead (cellAddr s.cfg s.top.row s.top.col) 2 = some (glyphCell ch s.top.attr).toNat ∧
        keepsMemoryOutside (cellAddr s.cfg s.top.row s.top.col) 2 s t ∧
        contextsWithTop (s.top.microDone .putchar) s t ∧
        keepsConsole s t ∧ keepsTable s t ∧ keepsPics s t ∧ keepsIF s t ∧ keepsTrace s t ∧ keepsPtrace s t ∧
        keepsStops s t ∧ keepsInputs s t) ∧
    (s.top.mu = 2 →
      ∃ t, exec (.putchar ch) s = .next t ∧
        t.con = { s.con with
          row := (nextCursor s.top.row s.top.col).1, col := (nextCursor s.top.row s.top.col).2 } ∧
        advances s t ∧ keepsMemory s t ∧ keepsTable s t ∧ keepsPics s t ∧ keepsIF s t ∧ keepsTrace s t ∧
        keepsPtrace s t ∧ keepsStops s t ∧ keepsInputs s t)) ∧
  ∀ (s : State) (ch : Byte), s.cfg.raceModel = .interleave →
    (s.top.mu < 3 →
      (∀ m, readLeft s m → ¬ readRaises s.con m →
        ∃ k t, exec (.putchar ch) { s with pick := k } = .next t ∧ takesRead m s t) ∧
      ((∃ m, readLeft s m) → ∃ m t, readLeft s m ∧ exec (.putchar ch) s = .next t ∧
        ((¬ readRaises s.con m ∧ takesRead m s t) ∨
          (readRaises s.con m ∧ t = { s with fault := some (.consoleNotReady .putchar) })))) ∧
    (s.top.mu = 3 → s.top.row < 25 → s.top.col < 80 →
      ∃ t, exec (.putchar ch) s = .next t ∧
        t.memRead (cellAddr s.cfg s.top.row s.top.col) 2 = some (glyphCell ch s.top.attr).toNat ∧
        keepsMemoryOutside (cellAddr s.cfg s.top.row s.top.col) 2 s t ∧
        contextsWithTop (s.top.microDone .putchar) s t ∧
        keepsConsole s t ∧ keepsTable s t ∧ keepsPics s t ∧ keepsIF s t ∧ keepsTrace s t ∧ keepsPtrace s t ∧
        keepsStops s t ∧ keepsInputs s t) ∧
    (4 ≤ s.top.mu →
      (∀ m, storeLeft s m → ∃ k t, exec (.putchar ch) { s with pick := k } = .next t ∧ doesStore m s t) ∧
      ((∃ m, storeLeft s m) → ∃ m t, storeLeft s m ∧ exec (.putchar ch) s = .next t ∧ doesStore m s t))

/-- R93, R95: an uninterrupted PUTCHAR, under either race model and in every order of its reads and stores,
writes its glyph at the cell the cursor was at, with the current attribute, advances the cursor, and changes
nothing else; no byte is special. -/
def Obligations.PutcharWhole : Prop :=
  ∀ (s : State) (ch : Byte) (picks : List Nat), s.stopped = false →
    picks.length = microCount s.cfg (.putchar ch) → s.top.mu = 0 → s.top.done = [] → s.con.ready = true →
    (s.cfg.raceModel = .fault → noConsoleBelow s) → s.con.row < 25 → s.con.col < 80 →
    ∃ t, execMicros (.putchar ch) picks s = .next t ∧
      t.cellAt (cellIdx s.con.row s.con.col) = some (glyphCell ch s.con.attr) ∧
      keepsMemoryOutside (cellAddr s.cfg s.con.row s.con.col) 2 s t ∧
      t.con = { s.con with
        row := (nextCursor s.con.row s.con.col).1, col := (nextCursor s.con.row s.con.col).2 } ∧
      advances s t ∧ keepsTable s t ∧ keepsPics s t ∧ keepsIF s t ∧ keepsTrace s t ∧ keepsPtrace s t ∧
      keepsStops s t ∧ keepsInputs s t

/-- R95: under `interleave`, a PUTCHAR that has read a row of 25 or more or a column of 80 or more records
CURSOR_OUT_OF_RANGE instead of writing. That this comes at `u4`, and not at the read, is the model's reading of R95
(log 12). -/
def Obligations.PutcharOutOfRange : Prop :=
  ∀ (s : State) (ch : Byte), s.cfg.raceModel = .interleave → s.top.mu = 3 → (25 ≤ s.top.row ∨ 80 ≤ s.top.col) →
    exec (.putchar ch) s = .next { s with fault := some (.cursorOutOfRange s.top.row s.top.col) }

/-! ### Descriptor table (42_idt.md) -/

/-- R97: with `IF = 0`, IDTBUILD zeroes the 2048 bytes of the table, loads the table register with
`0x07FF` and the table's base, records the load, marks the table built, and changes nothing else. -/
def Obligations.IdtbuildCompletes : Prop :=
  ∀ s : State, s.IF = false →
    ∃ t, exec .idtbuild s = .next t ∧
      (∀ a, s.cfg.idtBase.toNat ≤ a → a < s.cfg.idtBase.toNat + 2048 → t.mem.byteAt a = some 0) ∧
      (∀ v, t.descAt v = some 0) ∧
      keepsMemoryOutside s.cfg.idtBase.toNat 2048 s t ∧
      t.idtr = some { limit := 0x07FF, base := s.cfg.idtBase } ∧ t.idtBuilt = true ∧
      t.ptrace = s.ptrace ++ [.lidt 0x07FF s.cfg.idtBase] ∧
      advances s t ∧ keepsConsole s t ∧ keepsPics s t ∧ keepsIF s t ∧ keepsTrace s t ∧ keepsStops s t ∧
      keepsInputs s t

/-- R97, R98: IDTBUILD with `IF = 1` records BUILD_INTERRUPTIBLE, IDTREG before IDTBUILD records IDT_NOT_BUILT, and
nothing else changes. -/
def Obligations.IdtPreconditions : Prop :=
  (∀ s : State, s.IF = true → exec .idtbuild s = .next { s with fault := some .buildInterruptible }) ∧
  ∀ (s : State) (v : Byte) (h : Addr) (t : Byte), s.idtBuilt = false →
    exec (.idtreg v h t) s = .next { s with fault := some (.idtNotBuilt v) }

/-- R97: the zeroing of the table as one block is the rule's loop of 2048 one-byte writes. -/
def Obligations.ZeroTableIsByteLoop : Prop :=
  ∀ s : State, s.zeroTable =
    (List.range 2048).foldl (fun s i => s.memWrite (s.cfg.idtBase.toNat + i) 1 0) s

/-- R98: after IDTBUILD has run, IDTREG writes the descriptor `D(h, t)` of its vector, keeps `IF`, records the
critical section with the saved flag, and changes nothing else: every other descriptor is untouched. -/
def Obligations.IdtregCompletes : Prop :=
  ∀ (s : State) (v : Byte) (h : Addr) (ty : Byte), s.idtBuilt = true →
    ∃ t, exec (.idtreg v h ty) s = .next t ∧
      t.descAt v = some (descriptor h ty) ∧ (∀ u, u ≠ v → t.descAt u = s.descAt u) ∧
      keepsMemoryOutside (descAddr s.cfg v) 8 s t ∧
      keepsIF s t ∧ t.ptrace = s.ptrace ++ [.irqOff, .irqRestore s.IF] ∧
      advances s t ∧ keepsConsole s t ∧ keepsTable s t ∧ keepsPics s t ∧ keepsTrace s t ∧ keepsStops s t ∧
      keepsInputs s t

/-- R99: a descriptor that IDTREG writes is the one the next delivery of its vector goes through: the delivery
enters the handler program of the registered offset, by the registered gate, for every type byte of a present 32-bit
interrupt or trap gate, whatever its privilege level (R65). -/
def Obligations.RegisteredVectorDelivers : Prop :=
  ∀ (s : State) (v : Byte) (h : Addr) (ty : Byte) (prog : List CmdWord), s.idtBuilt = true → s.tableOk →
    ty.getLsbD 7 = true → ty.getLsbD 4 = false → (ty.extractLsb' 0 4 = 0xE ∨ ty.extractLsb' 0 4 = 0xF) →
    handlerAt s.cfg h = some prog → s.irqs.length < s.cfg.maxNest →
    ∃ t, exec (.idtreg v h ty) s = .next t ∧
      (t.deliver v).irqs = { vector := v, phase := .body, savedIF := s.IF, frame := Frame.start prog } :: t.irqs ∧
      (t.deliver v).IF = (if ty.extractLsb' 0 4 = 0xE then false else s.IF) ∧ (t.deliver v).fault = s.fault

/-! ### Interrupt controllers (43_pic.md) -/

/-- R107, R108, R102, R103: each of PICREMAP's micro-steps, from any state whose controller stands where its own writes so
far have brought it, so with lines raised in between: the write `mu` names, that controller's reaction, and the other
controller as it was. A controller's first write, ICW1, restarts it from any state of its registers. The last write
completes the command. -/
def Obligations.PicremapMicroSteps : Prop :=
  ∀ (s : State) (mb sb : Byte) (c : Ctrl) (n : Nat), s.stopped = false → s.top.mu < remapWrites s.cfg →
    remapPlace s.cfg s.top.mu = (c, n) → (n ≠ 0 → Pic.atInit c n (s.pic c)) →
    ∃ t, exec (.picremap mb sb) s = .next t ∧
      t.trace = s.trace ++ [remapWrite c (if c = .M then mb else sb) n] ∧
      t.pic c = remapReaction c (if c = .M then mb else sb) n (s.pic c) ∧
      (∀ c', c' ≠ c → t.pic c' = s.pic c') ∧ Pic.atInit c (n + 1) (t.pic c) ∧
      contextsWithTop (if s.top.mu + 1 = remapWrites s.cfg then s.top.commandDone else s.top.microDone .picremap) s t ∧
      keepsMemory s t ∧ keepsConsole s t ∧ keepsTable s t ∧ keepsIF s t ∧ keepsPtrace s t ∧ keepsStops s t ∧
      keepsInputs s t

/-- R107, R108, R123: an uninterrupted PICREMAP, from any state of the controllers, leaves both configured with the
given vector bases and no line masked, requested or in service, and TIMER_VECTOR at the master's base, the operand itself
where its low three bits are 0; the trace grows by its writes in the order of REMAP_ORDER; nothing else changes. -/
def Obligations.PicremapWhole : Prop :=
  ∀ (s : State) (mb sb : Byte) (picks : List Nat), s.stopped = false →
    picks.length = microCount s.cfg (.picremap mb sb) → s.top.mu = 0 →
    ∃ t, execMicros (.picremap mb sb) picks s = .next t ∧
      t.picM = ⟨true, .idle, 0x11, mb &&& 0xF8, 0x04, 0x01, 0, 0, 0⟩ ∧
      t.picS = ⟨true, .idle, 0x11, sb &&& 0xF8, 0x02, 0x01, 0, 0, 0⟩ ∧
      t.timerVector = timerVector mb ∧ timerVector mb = mb &&& 0xF8 ∧ (mb &&& 7 = 0 → timerVector mb = mb) ∧
      t.trace = s.trace ++ (match s.cfg.remapOrder with
        | .controllerMajor =>
          [(0x20, 0x11), (0x21, mb), (0x21, 0x04), (0x21, 0x01)] ++
            (if s.cfg.explicitUnmask then [(0x21, 0x00)] else []) ++
          [(0xA0, 0x11), (0xA1, sb), (0xA1, 0x02), (0xA1, 0x01)] ++
            (if s.cfg.explicitUnmask then [(0xA1, 0x00)] else [])
        | .stepMajor =>
          [(0x20, 0x11), (0xA0, 0x11), (0x21, mb), (0xA1, sb), (0x21, 0x04), (0xA1, 0x02), (0x21, 0x01),
            (0xA1, 0x01)] ++ (if s.cfg.explicitUnmask then [(0x21, 0x00), (0xA1, 0x00)] else [])) ∧
      picks.length = (if s.cfg.explicitUnmask then 10 else 8) ∧
      advances s t ∧ keepsMemory s t ∧ keepsConsole s t ∧ keepsTable s t ∧ keepsIF s t ∧ keepsPtrace s t ∧
      keepsStops s t ∧ keepsInputs s t

/-- R110: for any order of the two controllers' writes, and whatever the other agents do between them, what one
PICREMAP adds to the trace on the master's ports is exactly `seqM`, and on the slave's ports exactly `seqS`; with
EXPLICIT_UNMASK false each has exactly 4 entries, one to the command port and three to the data port. The moves run from
the command's first write to its last, with any choices of the schedule between (log 2); they come to an end unless a
delivery among them, with `IF = 1`, is the fault of R109. -/
def Obligations.RemapPortSubsequences : Prop :=
  ∀ (s : State) (w : CmdWord) (mb sb : Byte) (k k' : Nat) (between : List Choice) (rest : List Choice), s.canMove →
    s.inProgram → s.top.fetch = some w → decode w = .ok (.picremap mb sb) → s.top.mu = 0 →
    s.sched = .run k :: between ++ .run k' :: rest → between.countP Choice.isRun + 2 = remapWrites s.cfg →
    (s.IF = false ∨ Choice.deliver ∉ between → ∃ t, Sys2Proof.core.run (between.length + 2) s = .next t) ∧
    ∀ t : State, Sys2Proof.core.run (between.length + 2) s = .next t →
      contextsWithTop s.top.commandDone s t ∧
      ∃ added, t.trace = s.trace ++ added ∧
        added.filter (fun w => w.1 == 0x20 || w.1 == 0x21) =
          [(0x20, 0x11), (0x21, mb), (0x21, 0x04), (0x21, 0x01)] ++
            (if s.cfg.explicitUnmask then [(0x21, 0x00)] else []) ∧
        added.filter (fun w => w.1 == 0xA0 || w.1 == 0xA1) =
          [(0xA0, 0x11), (0xA1, sb), (0xA1, 0x02), (0xA1, 0x01)] ++
            (if s.cfg.explicitUnmask then [(0xA1, 0x00)] else []) ∧
        (s.cfg.explicitUnmask = false →
          added.countP (fun w => w.1 == 0x20) = 1 ∧ added.countP (fun w => w.1 == 0x21) = 3 ∧
          added.countP (fun w => w.1 == 0xA0) = 1 ∧ added.countP (fun w => w.1 == 0xA1) = 3)

/-- R111, R102: PICEOI's two micro-steps, each one non-specific EOI to one controller; the second completes the
command. -/
def Obligations.PiceoiMicroSteps : Prop :=
  ∀ s : State, s.stopped = false → s.picM.phase = .idle → s.picS.phase = .idle →
    (s.top.mu = 0 → s.picM.configured = true → s.picS.configured = true →
      ∃ t, exec .piceoi s = .next t ∧
        t.trace = s.trace ++ [(if firstEoi s.cfg = .S then 0xA0 else 0x20, 0x20)] ∧
        (firstEoi s.cfg = .S → t.picM = s.picM ∧ t.picS = { s.picS with isr := s.picS.isr &&& (s.picS.isr - 1) }) ∧
        (firstEoi s.cfg = .M → t.picS = s.picS ∧ t.picM = { s.picM with isr := s.picM.isr &&& (s.picM.isr - 1) }) ∧
        contextsWithTop (s.top.microDone .piceoi) s t ∧ keepsMemory s t ∧ keepsConsole s t ∧ keepsTable s t ∧
        keepsIF s t ∧ keepsPtrace s t ∧ keepsStops s t ∧ keepsInputs s t) ∧
    (s.top.mu = 1 →
      ∃ t, exec .piceoi s = .next t ∧
        t.trace = s.trace ++ [(if firstEoi s.cfg = .S then 0x20 else 0xA0, 0x20)] ∧
        (firstEoi s.cfg = .S → t.picS = s.picS ∧ t.picM = { s.picM with isr := s.picM.isr &&& (s.picM.isr - 1) }) ∧
        (firstEoi s.cfg = .M → t.picM = s.picM ∧ t.picS = { s.picS with isr := s.picS.isr &&& (s.picS.isr - 1) }) ∧
        advances s t ∧ keepsMemory s t ∧ keepsConsole s t ∧ keepsTable s t ∧ keepsIF s t ∧ keepsPtrace s t ∧
        keepsStops s t ∧ keepsInputs s t)

/-- R111, R112: an uninterrupted PICEOI writes both controllers, whichever line is in service, and clears the
lowest-numbered in-service bit of each. -/
def Obligations.PiceoiWhole : Prop :=
  ∀ (s : State) (picks : List Nat), s.stopped = false → picks.length = 2 → s.top.mu = 0 →
    s.picM.phase = .idle → s.picS.phase = .idle → s.picM.configured = true → s.picS.configured = true →
    ∃ t, execMicros .piceoi picks s = .next t ∧
      t.picM = { s.picM with isr := s.picM.isr &&& (s.picM.isr - 1) } ∧
      t.picS = { s.picS with isr := s.picS.isr &&& (s.picS.isr - 1) } ∧
      t.trace = s.trace ++ (if s.cfg.eoiOrder = .slaveFirst then [(0xA0, 0x20), (0x20, 0x20)]
        else [(0x20, 0x20), (0xA0, 0x20)]) ∧
      advances s t ∧ keepsMemory s t ∧ keepsConsole s t ∧ keepsTable s t ∧ keepsIF s t ∧ keepsPtrace s t ∧
      keepsStops s t ∧ keepsInputs s t

/-- R111: PICEOI with a controller this run has not initialized records PIC_UNCONFIGURED and writes nothing. -/
def Obligations.PiceoiUnconfigured : Prop :=
  ∀ s : State, s.top.mu = 0 → (s.picM.configured = false ∨ s.picS.configured = false) →
    exec .piceoi s = .next { s with fault := some (.picUnconfigured .piceoi) }

/-- R102, R103: port writes outside the protocol: a command-port byte that is neither ICW1 nor the non-specific
EOI records PIC_PROTOCOL; so does an EOI in the middle of a sequence; a byte that ends a sequence with bytes other
than the admitted ones, be it the mode byte, the cascade identity or the vector base, is refused. The write stands in the
trace in each case, and a refused byte in its register (log 20). A byte for an idle data port is the mask. -/
def Obligations.PortProtocolStops : Prop :=
  ∀ (s : State) (c : Ctrl) (b : Byte),
    (b.getLsbD 4 = false → b ≠ 0x20 →
      s.portWrite (commandPort c) b =
        { s with trace := s.trace ++ [(commandPort c, b)], fault := some (.picProtocol c b) }) ∧
    ((s.pic c).phase ≠ .idle →
      s.portWrite (commandPort c) 0x20 =
        { s with trace := s.trace ++ [(commandPort c, 0x20)], fault := some (.picProtocol c 0x20) }) ∧
    ((s.pic c).phase = .wICW4 → ((s.pic c).icw1 ≠ 0x11 ∨ (s.pic c).icw3 ≠ icw3Byte c ∨ b ≠ 0x01) →
      s.portWrite (dataPort c) b =
        { s.setPic c { s.pic c with icw4 := b, phase := .idle } with
          trace := s.trace ++ [(dataPort c, b)], refused := some .picModeUnmodelled }) ∧
    ((s.pic c).phase = .wICW3 → (s.pic c).icw1.getLsbD 0 = false →
      s.portWrite (dataPort c) b =
        { s.setPic c { s.pic c with icw3 := b, phase := .idle } with
          trace := s.trace ++ [(dataPort c, b)], refused := some .picModeUnmodelled }) ∧
    ((s.pic c).phase = .wICW2 → (s.pic c).icw1.getLsbD 1 = true → (s.pic c).icw1.getLsbD 0 = false →
      s.portWrite (dataPort c) b =
        { s.setPic c { s.pic c with vbase := b &&& 0xF8, phase := .idle } with
          trace := s.trace ++ [(dataPort c, b)], refused := some .picModeUnmodelled }) ∧
    ((s.pic c).phase = .idle →
      s.portWrite (dataPort c) b =
        { s.setPic c { s.pic c with imr := b } with trace := s.trace ++ [(dataPort c, b)] })

/-- R105, R131: the request is the source of highest priority among those that ask for service, and there is
none exactly when none asks. -/
def Obligations.RequestIsHighestPriority : Prop :=
  ∀ s : State,
    (∀ x, s.request = some x → asks s x ∧ ∀ y, asks s y → sourceRank x ≤ sourceRank y) ∧
    (s.request = none → ∀ y, ¬ asks s y)

/-- R106: acknowledging a line clears its request bit and sets its in-service bit, a slave line also the
master's bit 2, no other bit of these registers, no other register of the controllers and nothing else of the state
changes, and the vector is the base plus the line, which does not wrap. -/
def Obligations.AcknowledgeLine : Prop :=
  ∀ (s : State) (n : Nat), n < 8 →
    (∀ k, ((s.acknowledge .M n).picM.irr.getLsbD k = (s.picM.irr.getLsbD k && decide (k ≠ n))) ∧
      ((s.acknowledge .M n).picM.isr.getLsbD k = (s.picM.isr.getLsbD k || decide (k = n)))) ∧
    (s.acknowledge .M n).picS = s.picS ∧
    (∀ k, ((s.acknowledge .S n).picS.irr.getLsbD k = (s.picS.irr.getLsbD k && decide (k ≠ n))) ∧
      ((s.acknowledge .S n).picS.isr.getLsbD k = (s.picS.isr.getLsbD k || decide (k = n))) ∧
      ((s.acknowledge .S n).picM.isr.getLsbD k = (s.picM.isr.getLsbD k || decide (k = 2)))) ∧
    (s.acknowledge .S n).picM.irr = s.picM.irr ∧
    s.acknowledge .M n = { s with
      picM := { s.picM with irr := (s.acknowledge .M n).picM.irr, isr := (s.acknowledge .M n).picM.isr } } ∧
    s.acknowledge .S n = { s with
      picM := { s.picM with isr := (s.acknowledge .S n).picM.isr }
      picS := { s.picS with irr := (s.acknowledge .S n).picS.irr, isr := (s.acknowledge .S n).picS.isr } } ∧
    ∀ c, (s.pic c).vbase &&& 7 = 0 → (s.lineVector c n).toNat = (s.pic c).vbase.toNat + n

/-- R104: the environment raises a line by setting its request bit and changes nothing else, and raising a set line
changes nothing. Master line 2 is never raised: an entry of the schedule that names it does nothing, and a move passes the
schedule, which is the model's choice (log 2). -/
def Obligations.EnvironmentRaisesLine : Prop :=
  ∀ (s : State) (c : Ctrl) (n : Fin 8), s.canMove → s.nextChoice = .raiseLine c n →
    ∃ t, step s = .next t ∧
      (∀ k, (t.pic c).irr.getLsbD k =
        ((s.pic c).irr.getLsbD k || decide (k = n.val ∧ ¬ (c = .M ∧ n.val = 2)))) ∧
      ((s.pic c).irr.getLsbD n = true ∨ (c = .M ∧ n.val = 2) → t = s.popChoice) ∧
      t.pic c = { s.pic c with irr := (t.pic c).irr } ∧ (∀ c', c' ≠ c → t.pic c' = s.pic c') ∧
      keepsContexts s t ∧ keepsMemory s t ∧ keepsConsole s t ∧ keepsTable s t ∧ keepsIF s t ∧ keepsTrace s t ∧
      keepsPtrace s t ∧ keepsStops s t

/-! ### Privileged commands (44_privileged.md) -/

/-- R116: CLI clears `IF` and records itself; pending requests and everything else stay. -/
def Obligations.CliCompletes : Prop :=
  ∀ s : State, ∃ t, exec .cli s = .next t ∧ t.IF = false ∧ t.ptrace = s.ptrace ++ [.cli] ∧
    advances s t ∧ keepsMemory s t ∧ keepsConsole s t ∧ keepsTable s t ∧ keepsPics s t ∧ keepsTrace s t ∧
    keepsStops s t ∧ keepsInputs s t

/-- R117: STI sets `IF` and records itself; everything else stays. -/
def Obligations.StiCompletes : Prop :=
  ∀ s : State, ∃ t, exec .sti s = .next t ∧ t.IF = true ∧ t.ptrace = s.ptrace ++ [.sti] ∧
    advances s t ∧ keepsMemory s t ∧ keepsConsole s t ∧ keepsTable s t ∧ keepsPics s t ∧ keepsTrace s t ∧
    keepsStops s t ∧ keepsInputs s t

/-- R118, R126, R127: SWINT through a good gate to a handler program, whatever `IF` is, records itself, moves
past itself, and pushes an interrupt context with `IF` saved; an interrupt gate clears `IF`, a trap gate keeps
it; the controllers and everything else stay. -/
def Obligations.SwintCompletes : Prop :=
  ∀ (s : State) (v : Byte) (r : TableReg) (d : BitVec 64) (prog : List CmdWord),
    readsDescriptor s r v d → goodGate d → handlerAt s.cfg (d.extractLsb' 48 16 ++ d.extractLsb' 0 16) = some prog →
    s.irqs.length < s.cfg.maxNest →
    ∃ t, exec (.swint v) s = .next t ∧
      t.irqs = { vector := v, phase := .body, savedIF := s.IF, frame := Frame.start prog } ::
        (s.setTop s.top.commandDone).irqs ∧
      t.main = (s.setTop s.top.commandDone).main ∧
      t.IF = (if d.extractLsb' 40 4 = 0xE then false else s.IF) ∧
      t.ptrace = s.ptrace ++ [.int v] ∧
      keepsMemory s t ∧ keepsConsole s t ∧ keepsTable s t ∧ keepsPics s t ∧ keepsTrace s t ∧ keepsStops s t ∧
      keepsInputs s t

/-- R118, R124, R126, R131: the faults of a delivery, the earliest of R126's list that applies. In a software delivery
SWINT has recorded itself and moved past itself; in a hardware delivery the line has been acknowledged and stays in
service; nothing else has changed. -/
def Obligations.DeliveryFaultsInOrder : Prop :=
  (∀ (s : State) (v : Byte) (f : Fault), deliveryFault s v f →
    exec (.swint v) s = .next ((s.logEvent (.int v)).commandDone.raise f)) ∧
  ∀ (s : State) (c : Ctrl) (n : Nat) (f : Fault), s.canMove → s.nextChoice = .deliver → s.IF = true →
    s.picM.configured = true → s.picS.configured = true → (∀ f ∈ s.frames, f.inOp ≠ some .picremap) →
    s.request = some (c, n) → deliveryFault s (s.lineVector c n) f →
    step s = .next ((s.popChoice.acknowledge c n).raise f)

/-! ### Interrupt delivery and the trampoline (60_exceptions.md) -/

/-- R126, R127: with `IF = 1`, both controllers configured and no PICREMAP in progress, a delivery move takes
the request: the line is acknowledged and a context is pushed through the descriptor of its vector; the
preempted context keeps its place, `IF` is saved, and memory, Console and traces stay. -/
def Obligations.HardwareDeliveryCompletes : Prop :=
  ∀ (s : State) (c : Ctrl) (n : Nat) (r : TableReg) (d : BitVec 64) (prog : List CmdWord), s.canMove →
    s.nextChoice = .deliver → s.IF = true → s.picM.configured = true → s.picS.configured = true →
    (∀ f ∈ s.frames, f.inOp ≠ some .picremap) → s.request = some (c, n) →
    readsDescriptor s r (s.lineVector c n) d → goodGate d →
    handlerAt s.cfg (d.extractLsb' 48 16 ++ d.extractLsb' 0 16) = some prog → s.irqs.length < s.cfg.maxNest →
    ∃ t, step s = .next t ∧
      t.irqs = { vector := s.lineVector c n, phase := .body, savedIF := true, frame := Frame.start prog } :: s.irqs ∧
      t.main = s.main ∧ t.picM = (s.acknowledge c n).picM ∧ t.picS = (s.acknowledge c n).picS ∧
      t.IF = (if d.extractLsb' 40 4 = 0xE then false else true) ∧
      keepsMemory s t ∧ keepsConsole s t ∧ keepsTable s t ∧ keepsTrace s t ∧ keepsPtrace s t ∧ keepsStops s t

/-- R109, R122, R125, R126, R131: with `IF = 0`, with no line raised, or with every raised line masked or blocked at
configured controllers, a delivery move does nothing but pass the schedule (log 2): the lines stay pending. With
`IF = 1` and a line waiting, a PICREMAP in progress gives REMAP_INTERRUPTED, and else a line waiting on a
controller this run has not initialized gives PIC_UNCONFIGURED, with nothing acknowledged. -/
def Obligations.HardwareDeliveryGuards : Prop :=
  ∀ s : State, s.canMove → s.nextChoice = .deliver →
    (s.IF = false → step s = .next s.popChoice) ∧
    (s.picM.irr = 0 → s.picS.irr = 0 → step s = .next s.popChoice) ∧
    (s.picM.configured = true → s.picS.configured = true → s.request = none → step s = .next s.popChoice) ∧
    (s.IF = true → s.request ≠ none → (∃ f ∈ s.frames, f.inOp = some .picremap) →
      step s = .next { s.popChoice with fault := some .remapInterrupted }) ∧
    (∀ c, s.IF = true → (s.pic c).configured = false → (s.pic c).irr ≠ 0 →
      (∀ f ∈ s.frames, f.inOp ≠ some .picremap) →
      step s = .next { s.popChoice with fault := some (.picUnconfigured .delivery) })

/-- R128: an interrupt context whose program is finished goes on to its `eoi` phase, whose two micro-steps are
those of PICEOI and end in the `ret` phase; nothing else changes. That the change to `eoi` is a step of its own, and the
change to `ret` part of the second write's step, is the model's (log 9). -/
def Obligations.TrampolineEoi : Prop :=
  ∀ (s : State) (k : IrqContext) (rest : List IrqContext), s.canMove → s.nextChoice.isRun = true →
    s.irqs = k :: rest →
    (k.phase = .body → k.frame.pc = k.frame.prog.length →
      step s = .next { s.popChoice with
        irqs := { k with phase := .eoi, frame := k.frame.atCommand k.frame.pc } :: rest }) ∧
    (k.phase = .eoi → k.frame.mu = 0 → step s = exec .piceoi s.popChoice) ∧
    (k.phase = .eoi → k.frame.mu = 1 → s.picM.phase = .idle → s.picS.phase = .idle →
      ∃ t u, exec .piceoi s.popChoice = .next t ∧ step s = .next u ∧
        u = { t with irqs := { k with phase := .ret, frame := k.frame.atCommand k.frame.pc } :: rest })

/-- R129: the return restores `IF` from the saved value and the preempted context, records itself, and restores
nothing else: Console, table, controllers, memory and the port trace keep every change the handler made. -/
def Obligations.TrapReturn : Prop :=
  ∀ (s : State) (k : IrqContext) (rest : List IrqContext), s.canMove → s.nextChoice.isRun = true →
    s.irqs = k :: rest → k.phase = .ret →
    ∃ t, step s = .next t ∧ t.IF = k.savedIF ∧ t.irqs = rest ∧ t.main = s.main ∧
      t.ptrace = s.ptrace ++ [.iret k.savedIF] ∧
      keepsMemory s t ∧ keepsConsole s t ∧ keepsTable s t ∧ keepsPics s t ∧ keepsTrace s t ∧ keepsStops s t

/-! ### Invariants every step keeps -/

/-- The launch state meets the invariant, for every configuration and entry program (it rests on the values log
6 names for the registers the spec leaves unwritten). -/
def Obligations.LaunchMeetsInv : Prop :=
  ∀ (cfg : Config) (prog : List CmdWord), (State.launch cfg prog).Inv

/-- R41: every step keeps `inOp` and `mu` in step: none when `mu = 0`, else the kind of the command at `pc`
(in the trampoline's `eoi` phase the EOI pair, log 9). -/
def Obligations.InStepKept : Prop :=
  ∀ s t : State, s.inStep → step s = .next t → t.inStep

/-- R90: under the race model `fault`, every step keeps at most one context inside a Console command. -/
def Obligations.NoRaceKept : Prop :=
  ∀ s t : State, s.inStep → s.noRace → step s = .next t → t.noRace

/-- R24, R95: every step keeps the cursor on the screen, but that under `interleave` with the intermediate column
exposed it may be 80 while some context is between `u5` and `u6` of a PUTCHAR at the end of a row; and it keeps what
each flow has read, and which micro-steps of its PUTCHAR it has done, in order. -/
def Obligations.CursorKept : Prop :=
  ∀ s t : State, s.inStep → s.cursorOk → step s = .next t → t.cursorOk

/-- R28, R130: every step keeps the nesting within MAX_NEST. -/
def Obligations.NestingKept : Prop :=
  ∀ s t : State, s.nestOk → step s = .next t → t.nestOk

/-- R33, R34, R103, R104, R107: every step keeps the vector bases' low bits 0, a configured controller idle with
the admitted bytes, master line 2 unrequested, and the controllers in the middle of a sequence only where the
running PICREMAP has brought them. -/
def Obligations.ControllersKept : Prop :=
  ∀ s t : State, s.inStep → s.picsOk → step s = .next t → t.picsOk

/-- R31, R35, R82: every step keeps the table register loaded exactly when the table is built, and then every
descriptor zero or one that IDTREG assembles. -/
def Obligations.TableKept : Prop :=
  ∀ s t : State, s.localsOk → s.tableOk → step s = .next t → t.tableOk

/-- Every step keeps memory in its canonical form inside the address space (R44). -/
def Obligations.MemoryFormKept : Prop :=
  ∀ s t : State, s.localsOk → s.mem.wf → step s = .next t → t.mem.wf

/-- Every state a run reaches from launch, with any configuration, entry program and schedule, meets the
invariant, and the faults and refusals that no command produces (R119: PIC_PROTOCOL, PIC_MODE_UNMODELLED; and
the model's own) are never recorded. -/
def Obligations.ReachableStatesInOrder : Prop :=
  ∀ (cfg : Config) (prog : List CmdWord) (sched : List Choice) (n : Nat) (t : State),
    Sys2Proof.core.run n { State.launch cfg prog with sched := sched } = .next t →
    t.Inv ∧ (∀ c b, t.fault ≠ some (.picProtocol c b)) ∧ (∀ v, t.fault ≠ some (.unwrittenDescriptor v)) ∧
      t.refused ≠ some .picModeUnmodelled ∧ ∀ p, t.refused ≠ some (.portUnmodelled p)

/-! ### Rules of the whole machine -/

/-- R19, R59: no step changes the configuration or the program of any context. -/
def Obligations.ProgramsNeverChange : Prop :=
  ∀ s t : State, step s = .next t →
    t.cfg = s.cfg ∧ t.main.prog = s.main.prog ∧
    (t.irqs.map (·.frame.prog) = s.irqs.map (·.frame.prog) ∨
      (∃ h p, handlerAt s.cfg h = some p ∧ t.irqs.map (·.frame.prog) = p :: s.irqs.map (·.frame.prog)) ∨
      t.irqs.map (·.frame.prog) = (s.irqs.map (·.frame.prog)).tail)

/-- R28, R126, R127, R129: only the top context runs. A step keeps every context below it as it is; a delivery
puts one context on top of it, which leaves it as it was or past its SWINT; a return takes it off. -/
def Obligations.OnlyTopContextRuns : Prop :=
  ∀ s t : State, step s = .next t →
    (t.irqs.length = s.irqs.length ∧ t.below = s.below ∧ t.irqs.tail = s.irqs.tail ∧
      t.irqs.map (fun k => (k.vector, k.savedIF)) = s.irqs.map (fun k => (k.vector, k.savedIF)) ∧
      t.top.prog = s.top.prog ∧
      (t.top.pc = s.top.pc ∨ (t.top.pc = s.top.pc + 1 ∧ t.top.mu = 0 ∧ t.top.inOp = none))) ∨
    (∃ k, t.irqs = k :: s.irqs ∧ t.main = s.main ∧ k.savedIF = s.IF ∧ k.phase = .body) ∨
    (∃ k, t.irqs = k :: (s.setTop s.top.commandDone).irqs ∧ t.main = (s.setTop s.top.commandDone).main ∧
      k.savedIF = s.IF ∧ k.phase = .body) ∨
    (∃ k, s.irqs = k :: t.irqs ∧ t.main = s.main ∧ k.phase = .ret ∧ t.IF = k.savedIF)

/-- R35, R36, R48, R51: a step changes a byte of memory only when the running context runs CINIT or PUTCHAR and
the byte is in the framebuffer, or IDTBUILD or IDTREG and the byte is in the descriptor table. -/
def Obligations.MemoryWriters : Prop :=
  ∀ (s t : State) (a : Nat), s.localsOk → step s = .next t → t.mem.byteAt a ≠ s.mem.byteAt a →
    s.nextChoice.isRun = true ∧ ∃ w i, s.top.fetch = some w ∧ decode w = .ok i ∧
      (((i.kind = .cinit ∨ i.kind = .putchar) ∧
          s.cfg.fbBase.toNat ≤ a ∧ a < s.cfg.fbBase.toNat + 4000) ∨
        ((i.kind = .idtbuild ∨ i.kind = .idtreg) ∧
          s.cfg.idtBase.toNat ≤ a ∧ a < s.cfg.idtBase.toNat + 2048))

/-- R29: `IF` changes only by CLI (to 0), STI (to 1), a delivery that pushes a context (to 0), or a return (to the
saved value). -/
def Obligations.InterruptFlagWriters : Prop :=
  ∀ s t : State, step s = .next t → t.IF ≠ s.IF →
    (∃ w, s.top.fetch = some w ∧ ((decode w = .ok .cli ∧ t.IF = false) ∨ (decode w = .ok .sti ∧ t.IF = true))) ∨
    (t.IF = false ∧ t.irqs.length = s.irqs.length + 1) ∨
    (∃ k, s.irqs.head? = some k ∧ k.phase = .ret ∧ t.IF = k.savedIF)

/-- R23, R32, R38, R39: the traces only grow, and nothing clears the Console's and the table's marks. -/
def Obligations.TracesGrowMarksStay : Prop :=
  ∀ s t : State, step s = .next t →
    s.trace <+: t.trace ∧ s.ptrace <+: t.ptrace ∧ (s.con.ready = true → t.con.ready = true) ∧
      (s.idtBuilt = true → t.idtBuilt = true)

/-- R100: no command but SWINT, whose delivery step does, reads linear memory or the table register: run with other
contents of both, a micro-step does the same to the rest of the state, each byte of memory either gets the same
value or is left alone in both runs, and the table register is left alone but by an IDTBUILD that runs, which gives it
the same value. -/
def Obligations.CommandsDoNotReadTable : Prop :=
  ∀ (i : Instr) (s : State) (m : Memory) (x : Option TableReg), i.kind ≠ .swint →
    ∃ t m' x', exec i s = .next t ∧ exec i { s with mem := m, idtr := x } = .next { t with mem := m', idtr := x' } ∧
      (∀ a, m'.byteAt a = t.mem.byteAt a ∨ (m'.byteAt a = m.byteAt a ∧ t.mem.byteAt a = s.mem.byteAt a)) ∧
      (if i = .idtbuild ∧ s.IF = false then x' = t.idtr else x' = x ∧ t.idtr = s.idtr)
end

