-- ==== Sys2Proof/Laws/Boot.lean ====
section
/-!
SUPPORT. The laws of `TIMER_VECTOR` (00_scope.md R9, 60_exceptions.md R123) and of the boot program's launch
(70_reset_and_hazards.md R142).
-/

namespace Sys2Proof.Machine

/-- `TIMER_VECTOR` is the base the master keeps of `masterBase` (R72, R123). -/
theorem timerVector_eq (masterBase : Byte) : timerVector masterBase = masterBase &&& 0xF8 := by
  simp [timerVector, vectorOfLine, vectorBase, timerLine]

/-- `TIMER_VECTOR = masterBase + 0`, for a base with its low three bits 0 (R9, D26). -/
theorem timerVector_of_aligned {masterBase : Byte} (h : masterBase &&& 7 = 0) : timerVector masterBase = masterBase := by
  revert h; rw [timerVector_eq]; revert masterBase; decide

@[simp] theorem State.timerVector_eq_vbase (s : State) : s.timerVector = s.picM.vbase := by
  simp [State.timerVector, State.lineVector, vectorOfLine, timerLine, State.pic]

/-- Where the master keeps the base of `masterBase`, the timer's line has the vector the boot program registers
(R123, R142). -/
theorem State.timerVector_of_vbase {s : State} {masterBase : Byte} (h : s.picM.vbase = vectorBase masterBase) :
    s.timerVector = Machine.timerVector masterBase := by
  rw [State.timerVector_eq_vbase, h, timerVector_eq, vectorBase]

/-- The test vectors are admitted exactly when neither is the timer's (R142, D17). -/
theorem configTestVectors_iff (cfg : Config) (masterBase : Byte) : configTestVectors cfg masterBase = true ↔
    cfg.testVectorA ≠ masterBase &&& 0xF8 ∧ cfg.testVectorB ≠ masterBase &&& 0xF8 := by
  simp [configTestVectors, timerVector_eq]

/-- The boot program is launched, or marked refused with nothing else changed (R142, D17). -/
theorem launchBoot_cases (cfg : Config) (masterBase slaveBase : Byte) :
    (configTestVectors cfg masterBase = true ∧ State.launchBoot cfg masterBase slaveBase =
        State.launch cfg ((bootProgram cfg masterBase slaveBase).map encode)) ∨
      (configTestVectors cfg masterBase = false ∧ State.launchBoot cfg masterBase slaveBase =
        (State.launch cfg ((bootProgram cfg masterBase slaveBase).map encode)).refuse .badConfig) := by
  cases h : configTestVectors cfg masterBase <;> simp [State.launchBoot, h]

end Sys2Proof.Machine
end

