-- ==== Sys2Proof/Laws/State.lean ====
section
/-!
SUPPORT. The small lemmas of the state updates: one per field per update, true by `rfl`, and the context
stack's accessors after an update.
-/

namespace Sys2Proof.Machine

/-! ### `setIF` -/

@[simp] theorem State.setIF_con (b : Bool) (s : State) : (s.setIF b).con = s.con := rfl
@[simp] theorem State.setIF_idtBuilt (b : Bool) (s : State) : (s.setIF b).idtBuilt = s.idtBuilt := rfl
@[simp] theorem State.setIF_IF (b : Bool) (s : State) : (s.setIF b).IF = b := rfl
@[simp] theorem State.setIF_idtr (b : Bool) (s : State) : (s.setIF b).idtr = s.idtr := rfl
@[simp] theorem State.setIF_main (b : Bool) (s : State) : (s.setIF b).main = s.main := rfl
@[simp] theorem State.setIF_irqs (b : Bool) (s : State) : (s.setIF b).irqs = s.irqs := rfl
@[simp] theorem State.setIF_picM (b : Bool) (s : State) : (s.setIF b).picM = s.picM := rfl
@[simp] theorem State.setIF_picS (b : Bool) (s : State) : (s.setIF b).picS = s.picS := rfl
@[simp] theorem State.setIF_trace (b : Bool) (s : State) : (s.setIF b).trace = s.trace := rfl
@[simp] theorem State.setIF_ptrace (b : Bool) (s : State) : (s.setIF b).ptrace = s.ptrace := rfl
@[simp] theorem State.setIF_fault (b : Bool) (s : State) : (s.setIF b).fault = s.fault := rfl
@[simp] theorem State.setIF_refused (b : Bool) (s : State) : (s.setIF b).refused = s.refused := rfl
@[simp] theorem State.setIF_mem (b : Bool) (s : State) : (s.setIF b).mem = s.mem := rfl
@[simp] theorem State.setIF_cfg (b : Bool) (s : State) : (s.setIF b).cfg = s.cfg := rfl
@[simp] theorem State.setIF_sched (b : Bool) (s : State) : (s.setIF b).sched = s.sched := rfl
@[simp] theorem State.setIF_pick (b : Bool) (s : State) : (s.setIF b).pick = s.pick := rfl

/-! ### `logEvent` -/

@[simp] theorem State.logEvent_con (e : Event) (s : State) : (s.logEvent e).con = s.con := rfl
@[simp] theorem State.logEvent_idtBuilt (e : Event) (s : State) : (s.logEvent e).idtBuilt = s.idtBuilt := rfl
@[simp] theorem State.logEvent_IF (e : Event) (s : State) : (s.logEvent e).IF = s.IF := rfl
@[simp] theorem State.logEvent_idtr (e : Event) (s : State) : (s.logEvent e).idtr = s.idtr := rfl
@[simp] theorem State.logEvent_main (e : Event) (s : State) : (s.logEvent e).main = s.main := rfl
@[simp] theorem State.logEvent_irqs (e : Event) (s : State) : (s.logEvent e).irqs = s.irqs := rfl
@[simp] theorem State.logEvent_picM (e : Event) (s : State) : (s.logEvent e).picM = s.picM := rfl
@[simp] theorem State.logEvent_picS (e : Event) (s : State) : (s.logEvent e).picS = s.picS := rfl
@[simp] theorem State.logEvent_trace (e : Event) (s : State) : (s.logEvent e).trace = s.trace := rfl
@[simp] theorem State.logEvent_ptrace (e : Event) (s : State) : (s.logEvent e).ptrace = s.ptrace ++ [e] := rfl
@[simp] theorem State.logEvent_fault (e : Event) (s : State) : (s.logEvent e).fault = s.fault := rfl
@[simp] theorem State.logEvent_refused (e : Event) (s : State) : (s.logEvent e).refused = s.refused := rfl
@[simp] theorem State.logEvent_mem (e : Event) (s : State) : (s.logEvent e).mem = s.mem := rfl
@[simp] theorem State.logEvent_cfg (e : Event) (s : State) : (s.logEvent e).cfg = s.cfg := rfl
@[simp] theorem State.logEvent_sched (e : Event) (s : State) : (s.logEvent e).sched = s.sched := rfl
@[simp] theorem State.logEvent_pick (e : Event) (s : State) : (s.logEvent e).pick = s.pick := rfl

/-! ### `raise` -/

@[simp] theorem State.raise_con (f : Fault) (s : State) : (s.raise f).con = s.con := rfl
@[simp] theorem State.raise_idtBuilt (f : Fault) (s : State) : (s.raise f).idtBuilt = s.idtBuilt := rfl
@[simp] theorem State.raise_IF (f : Fault) (s : State) : (s.raise f).IF = s.IF := rfl
@[simp] theorem State.raise_idtr (f : Fault) (s : State) : (s.raise f).idtr = s.idtr := rfl
@[simp] theorem State.raise_main (f : Fault) (s : State) : (s.raise f).main = s.main := rfl
@[simp] theorem State.raise_irqs (f : Fault) (s : State) : (s.raise f).irqs = s.irqs := rfl
@[simp] theorem State.raise_picM (f : Fault) (s : State) : (s.raise f).picM = s.picM := rfl
@[simp] theorem State.raise_picS (f : Fault) (s : State) : (s.raise f).picS = s.picS := rfl
@[simp] theorem State.raise_trace (f : Fault) (s : State) : (s.raise f).trace = s.trace := rfl
@[simp] theorem State.raise_ptrace (f : Fault) (s : State) : (s.raise f).ptrace = s.ptrace := rfl
@[simp] theorem State.raise_fault (f : Fault) (s : State) : (s.raise f).fault = some f := rfl
@[simp] theorem State.raise_refused (f : Fault) (s : State) : (s.raise f).refused = s.refused := rfl
@[simp] theorem State.raise_mem (f : Fault) (s : State) : (s.raise f).mem = s.mem := rfl
@[simp] theorem State.raise_cfg (f : Fault) (s : State) : (s.raise f).cfg = s.cfg := rfl
@[simp] theorem State.raise_sched (f : Fault) (s : State) : (s.raise f).sched = s.sched := rfl
@[simp] theorem State.raise_pick (f : Fault) (s : State) : (s.raise f).pick = s.pick := rfl

/-! ### `refuse` -/

@[simp] theorem State.refuse_con (r : Refusal) (s : State) : (s.refuse r).con = s.con := rfl
@[simp] theorem State.refuse_idtBuilt (r : Refusal) (s : State) : (s.refuse r).idtBuilt = s.idtBuilt := rfl
@[simp] theorem State.refuse_IF (r : Refusal) (s : State) : (s.refuse r).IF = s.IF := rfl
@[simp] theorem State.refuse_idtr (r : Refusal) (s : State) : (s.refuse r).idtr = s.idtr := rfl
@[simp] theorem State.refuse_main (r : Refusal) (s : State) : (s.refuse r).main = s.main := rfl
@[simp] theorem State.refuse_irqs (r : Refusal) (s : State) : (s.refuse r).irqs = s.irqs := rfl
@[simp] theorem State.refuse_picM (r : Refusal) (s : State) : (s.refuse r).picM = s.picM := rfl
@[simp] theorem State.refuse_picS (r : Refusal) (s : State) : (s.refuse r).picS = s.picS := rfl
@[simp] theorem State.refuse_trace (r : Refusal) (s : State) : (s.refuse r).trace = s.trace := rfl
@[simp] theorem State.refuse_ptrace (r : Refusal) (s : State) : (s.refuse r).ptrace = s.ptrace := rfl
@[simp] theorem State.refuse_fault (r : Refusal) (s : State) : (s.refuse r).fault = s.fault := rfl
@[simp] theorem State.refuse_refused (r : Refusal) (s : State) : (s.refuse r).refused = some r := rfl
@[simp] theorem State.refuse_mem (r : Refusal) (s : State) : (s.refuse r).mem = s.mem := rfl
@[simp] theorem State.refuse_cfg (r : Refusal) (s : State) : (s.refuse r).cfg = s.cfg := rfl
@[simp] theorem State.refuse_sched (r : Refusal) (s : State) : (s.refuse r).sched = s.sched := rfl
@[simp] theorem State.refuse_pick (r : Refusal) (s : State) : (s.refuse r).pick = s.pick := rfl

/-! ### `memWrite` -/

@[simp] theorem State.memWrite_con (a n v : Nat) (s : State) : (s.memWrite a n v).con = s.con := rfl
@[simp] theorem State.memWrite_idtBuilt (a n v : Nat) (s : State) : (s.memWrite a n v).idtBuilt = s.idtBuilt := rfl
@[simp] theorem State.memWrite_IF (a n v : Nat) (s : State) : (s.memWrite a n v).IF = s.IF := rfl
@[simp] theorem State.memWrite_idtr (a n v : Nat) (s : State) : (s.memWrite a n v).idtr = s.idtr := rfl
@[simp] theorem State.memWrite_main (a n v : Nat) (s : State) : (s.memWrite a n v).main = s.main := rfl
@[simp] theorem State.memWrite_irqs (a n v : Nat) (s : State) : (s.memWrite a n v).irqs = s.irqs := rfl
@[simp] theorem State.memWrite_picM (a n v : Nat) (s : State) : (s.memWrite a n v).picM = s.picM := rfl
@[simp] theorem State.memWrite_picS (a n v : Nat) (s : State) : (s.memWrite a n v).picS = s.picS := rfl
@[simp] theorem State.memWrite_trace (a n v : Nat) (s : State) : (s.memWrite a n v).trace = s.trace := rfl
@[simp] theorem State.memWrite_ptrace (a n v : Nat) (s : State) : (s.memWrite a n v).ptrace = s.ptrace := rfl
@[simp] theorem State.memWrite_fault (a n v : Nat) (s : State) : (s.memWrite a n v).fault = s.fault := rfl
@[simp] theorem State.memWrite_refused (a n v : Nat) (s : State) : (s.memWrite a n v).refused = s.refused := rfl
@[simp] theorem State.memWrite_mem (a n v : Nat) (s : State) : (s.memWrite a n v).mem = s.mem.store a (leBytes n v) := rfl
@[simp] theorem State.memWrite_cfg (a n v : Nat) (s : State) : (s.memWrite a n v).cfg = s.cfg := rfl
@[simp] theorem State.memWrite_sched (a n v : Nat) (s : State) : (s.memWrite a n v).sched = s.sched := rfl
@[simp] theorem State.memWrite_pick (a n v : Nat) (s : State) : (s.memWrite a n v).pick = s.pick := rfl

/-! ### `logPort` -/

@[simp] theorem State.logPort_con (p : Half) (b : Byte) (s : State) : (s.logPort p b).con = s.con := rfl
@[simp] theorem State.logPort_idtBuilt (p : Half) (b : Byte) (s : State) : (s.logPort p b).idtBuilt = s.idtBuilt := rfl
@[simp] theorem State.logPort_IF (p : Half) (b : Byte) (s : State) : (s.logPort p b).IF = s.IF := rfl
@[simp] theorem State.logPort_idtr (p : Half) (b : Byte) (s : State) : (s.logPort p b).idtr = s.idtr := rfl
@[simp] theorem State.logPort_main (p : Half) (b : Byte) (s : State) : (s.logPort p b).main = s.main := rfl
@[simp] theorem State.logPort_irqs (p : Half) (b : Byte) (s : State) : (s.logPort p b).irqs = s.irqs := rfl
@[simp] theorem State.logPort_picM (p : Half) (b : Byte) (s : State) : (s.logPort p b).picM = s.picM := rfl
@[simp] theorem State.logPort_picS (p : Half) (b : Byte) (s : State) : (s.logPort p b).picS = s.picS := rfl
@[simp] theorem State.logPort_trace (p : Half) (b : Byte) (s : State) : (s.logPort p b).trace = s.trace ++ [(p, b)] := rfl
@[simp] theorem State.logPort_ptrace (p : Half) (b : Byte) (s : State) : (s.logPort p b).ptrace = s.ptrace := rfl
@[simp] theorem State.logPort_fault (p : Half) (b : Byte) (s : State) : (s.logPort p b).fault = s.fault := rfl
@[simp] theorem State.logPort_refused (p : Half) (b : Byte) (s : State) : (s.logPort p b).refused = s.refused := rfl
@[simp] theorem State.logPort_mem (p : Half) (b : Byte) (s : State) : (s.logPort p b).mem = s.mem := rfl
@[simp] theorem State.logPort_cfg (p : Half) (b : Byte) (s : State) : (s.logPort p b).cfg = s.cfg := rfl
@[simp] theorem State.logPort_sched (p : Half) (b : Byte) (s : State) : (s.logPort p b).sched = s.sched := rfl
@[simp] theorem State.logPort_pick (p : Half) (b : Byte) (s : State) : (s.logPort p b).pick = s.pick := rfl

/-! ### `setTop` -/

@[simp] theorem State.setTop_con (f : Frame) (s : State) : (s.setTop f).con = s.con := rfl
@[simp] theorem State.setTop_idtBuilt (f : Frame) (s : State) : (s.setTop f).idtBuilt = s.idtBuilt := rfl
@[simp] theorem State.setTop_IF (f : Frame) (s : State) : (s.setTop f).IF = s.IF := rfl
@[simp] theorem State.setTop_idtr (f : Frame) (s : State) : (s.setTop f).idtr = s.idtr := rfl
@[simp] theorem State.setTop_picM (f : Frame) (s : State) : (s.setTop f).picM = s.picM := rfl
@[simp] theorem State.setTop_picS (f : Frame) (s : State) : (s.setTop f).picS = s.picS := rfl
@[simp] theorem State.setTop_trace (f : Frame) (s : State) : (s.setTop f).trace = s.trace := rfl
@[simp] theorem State.setTop_ptrace (f : Frame) (s : State) : (s.setTop f).ptrace = s.ptrace := rfl
@[simp] theorem State.setTop_fault (f : Frame) (s : State) : (s.setTop f).fault = s.fault := rfl
@[simp] theorem State.setTop_refused (f : Frame) (s : State) : (s.setTop f).refused = s.refused := rfl
@[simp] theorem State.setTop_mem (f : Frame) (s : State) : (s.setTop f).mem = s.mem := rfl
@[simp] theorem State.setTop_cfg (f : Frame) (s : State) : (s.setTop f).cfg = s.cfg := rfl
@[simp] theorem State.setTop_sched (f : Frame) (s : State) : (s.setTop f).sched = s.sched := rfl
@[simp] theorem State.setTop_pick (f : Frame) (s : State) : (s.setTop f).pick = s.pick := rfl

/-! ### `loadTableRegister` -/

@[simp] theorem State.loadTableRegister_con (x : TableReg) (s : State) : (s.loadTableRegister x).con = s.con := rfl
@[simp] theorem State.loadTableRegister_idtBuilt (x : TableReg) (s : State) : (s.loadTableRegister x).idtBuilt = s.idtBuilt := rfl
@[simp] theorem State.loadTableRegister_IF (x : TableReg) (s : State) : (s.loadTableRegister x).IF = s.IF := rfl
@[simp] theorem State.loadTableRegister_idtr (x : TableReg) (s : State) : (s.loadTableRegister x).idtr = some x := rfl
@[simp] theorem State.loadTableRegister_main (x : TableReg) (s : State) : (s.loadTableRegister x).main = s.main := rfl
@[simp] theorem State.loadTableRegister_irqs (x : TableReg) (s : State) : (s.loadTableRegister x).irqs = s.irqs := rfl
@[simp] theorem State.loadTableRegister_picM (x : TableReg) (s : State) : (s.loadTableRegister x).picM = s.picM := rfl
@[simp] theorem State.loadTableRegister_picS (x : TableReg) (s : State) : (s.loadTableRegister x).picS = s.picS := rfl
@[simp] theorem State.loadTableRegister_trace (x : TableReg) (s : State) : (s.loadTableRegister x).trace = s.trace := rfl
@[simp] theorem State.loadTableRegister_ptrace (x : TableReg) (s : State) : (s.loadTableRegister x).ptrace = s.ptrace ++ [.lidt x.limit x.base] := rfl
@[simp] theorem State.loadTableRegister_fault (x : TableReg) (s : State) : (s.loadTableRegister x).fault = s.fault := rfl
@[simp] theorem State.loadTableRegister_refused (x : TableReg) (s : State) : (s.loadTableRegister x).refused = s.refused := rfl
@[simp] theorem State.loadTableRegister_mem (x : TableReg) (s : State) : (s.loadTableRegister x).mem = s.mem := rfl
@[simp] theorem State.loadTableRegister_cfg (x : TableReg) (s : State) : (s.loadTableRegister x).cfg = s.cfg := rfl
@[simp] theorem State.loadTableRegister_sched (x : TableReg) (s : State) : (s.loadTableRegister x).sched = s.sched := rfl
@[simp] theorem State.loadTableRegister_pick (x : TableReg) (s : State) : (s.loadTableRegister x).pick = s.pick := rfl

/-! ### `pushContext` -/

@[simp] theorem State.pushContext_con (v : Byte) (p : List CmdWord) (s : State) : (s.pushContext v p).con = s.con := rfl
@[simp] theorem State.pushContext_idtBuilt (v : Byte) (p : List CmdWord) (s : State) : (s.pushContext v p).idtBuilt = s.idtBuilt := rfl
@[simp] theorem State.pushContext_IF (v : Byte) (p : List CmdWord) (s : State) : (s.pushContext v p).IF = s.IF := rfl
@[simp] theorem State.pushContext_idtr (v : Byte) (p : List CmdWord) (s : State) : (s.pushContext v p).idtr = s.idtr := rfl
@[simp] theorem State.pushContext_main (v : Byte) (p : List CmdWord) (s : State) : (s.pushContext v p).main = s.main := rfl
@[simp] theorem State.pushContext_irqs (v : Byte) (p : List CmdWord) (s : State) : (s.pushContext v p).irqs = { vector := v, phase := .body, savedIF := s.IF, frame := Frame.start p } :: s.irqs := rfl
@[simp] theorem State.pushContext_picM (v : Byte) (p : List CmdWord) (s : State) : (s.pushContext v p).picM = s.picM := rfl
@[simp] theorem State.pushContext_picS (v : Byte) (p : List CmdWord) (s : State) : (s.pushContext v p).picS = s.picS := rfl
@[simp] theorem State.pushContext_trace (v : Byte) (p : List CmdWord) (s : State) : (s.pushContext v p).trace = s.trace := rfl
@[simp] theorem State.pushContext_ptrace (v : Byte) (p : List CmdWord) (s : State) : (s.pushContext v p).ptrace = s.ptrace := rfl
@[simp] theorem State.pushContext_fault (v : Byte) (p : List CmdWord) (s : State) : (s.pushContext v p).fault = s.fault := rfl
@[simp] theorem State.pushContext_refused (v : Byte) (p : List CmdWord) (s : State) : (s.pushContext v p).refused = s.refused := rfl
@[simp] theorem State.pushContext_mem (v : Byte) (p : List CmdWord) (s : State) : (s.pushContext v p).mem = s.mem := rfl
@[simp] theorem State.pushContext_cfg (v : Byte) (p : List CmdWord) (s : State) : (s.pushContext v p).cfg = s.cfg := rfl
@[simp] theorem State.pushContext_sched (v : Byte) (p : List CmdWord) (s : State) : (s.pushContext v p).sched = s.sched := rfl
@[simp] theorem State.pushContext_pick (v : Byte) (p : List CmdWord) (s : State) : (s.pushContext v p).pick = s.pick := rfl

/-! ### `popChoice` -/

@[simp] theorem State.popChoice_con (s : State) : s.popChoice.con = s.con := rfl
@[simp] theorem State.popChoice_idtBuilt (s : State) : s.popChoice.idtBuilt = s.idtBuilt := rfl
@[simp] theorem State.popChoice_IF (s : State) : s.popChoice.IF = s.IF := rfl
@[simp] theorem State.popChoice_idtr (s : State) : s.popChoice.idtr = s.idtr := rfl
@[simp] theorem State.popChoice_main (s : State) : s.popChoice.main = s.main := rfl
@[simp] theorem State.popChoice_irqs (s : State) : s.popChoice.irqs = s.irqs := rfl
@[simp] theorem State.popChoice_picM (s : State) : s.popChoice.picM = s.picM := rfl
@[simp] theorem State.popChoice_picS (s : State) : s.popChoice.picS = s.picS := rfl
@[simp] theorem State.popChoice_trace (s : State) : s.popChoice.trace = s.trace := rfl
@[simp] theorem State.popChoice_ptrace (s : State) : s.popChoice.ptrace = s.ptrace := rfl
@[simp] theorem State.popChoice_fault (s : State) : s.popChoice.fault = s.fault := rfl
@[simp] theorem State.popChoice_refused (s : State) : s.popChoice.refused = s.refused := rfl
@[simp] theorem State.popChoice_mem (s : State) : s.popChoice.mem = s.mem := rfl
@[simp] theorem State.popChoice_cfg (s : State) : s.popChoice.cfg = s.cfg := rfl
@[simp] theorem State.popChoice_sched (s : State) : s.popChoice.sched = s.sched.tail := rfl

/-! ### `zeroTable` -/

@[simp] theorem State.zeroTable_con (s : State) : s.zeroTable.con = s.con := rfl
@[simp] theorem State.zeroTable_idtBuilt (s : State) : s.zeroTable.idtBuilt = s.idtBuilt := rfl
@[simp] theorem State.zeroTable_IF (s : State) : s.zeroTable.IF = s.IF := rfl
@[simp] theorem State.zeroTable_idtr (s : State) : s.zeroTable.idtr = s.idtr := rfl
@[simp] theorem State.zeroTable_main (s : State) : s.zeroTable.main = s.main := rfl
@[simp] theorem State.zeroTable_irqs (s : State) : s.zeroTable.irqs = s.irqs := rfl
@[simp] theorem State.zeroTable_picM (s : State) : s.zeroTable.picM = s.picM := rfl
@[simp] theorem State.zeroTable_picS (s : State) : s.zeroTable.picS = s.picS := rfl
@[simp] theorem State.zeroTable_trace (s : State) : s.zeroTable.trace = s.trace := rfl
@[simp] theorem State.zeroTable_ptrace (s : State) : s.zeroTable.ptrace = s.ptrace := rfl
@[simp] theorem State.zeroTable_fault (s : State) : s.zeroTable.fault = s.fault := rfl
@[simp] theorem State.zeroTable_refused (s : State) : s.zeroTable.refused = s.refused := rfl
@[simp] theorem State.zeroTable_mem (s : State) : s.zeroTable.mem = s.mem.store s.cfg.idtBase.toNat (List.replicate IDT_BYTES 0) := rfl
@[simp] theorem State.zeroTable_cfg (s : State) : s.zeroTable.cfg = s.cfg := rfl
@[simp] theorem State.zeroTable_sched (s : State) : s.zeroTable.sched = s.sched := rfl
@[simp] theorem State.zeroTable_pick (s : State) : s.zeroTable.pick = s.pick := rfl

/-! ### The two controllers -/

@[simp] theorem State.pic_M (s : State) : s.pic .M = s.picM := rfl
@[simp] theorem State.pic_S (s : State) : s.pic .S = s.picS := rfl
@[simp] theorem State.setPic_M (p : Pic) (s : State) : s.setPic .M p = { s with picM := p } := rfl
@[simp] theorem State.setPic_S (p : Pic) (s : State) : s.setPic .S p = { s with picS := p } := rfl

@[simp] theorem State.setPic_con (c : Ctrl) (p : Pic) (s : State) : (s.setPic c p).con = s.con := by cases c <;> rfl
@[simp] theorem State.setPic_idtBuilt (c : Ctrl) (p : Pic) (s : State) : (s.setPic c p).idtBuilt = s.idtBuilt := by cases c <;> rfl
@[simp] theorem State.setPic_IF (c : Ctrl) (p : Pic) (s : State) : (s.setPic c p).IF = s.IF := by cases c <;> rfl
@[simp] theorem State.setPic_idtr (c : Ctrl) (p : Pic) (s : State) : (s.setPic c p).idtr = s.idtr := by cases c <;> rfl
@[simp] theorem State.setPic_main (c : Ctrl) (p : Pic) (s : State) : (s.setPic c p).main = s.main := by cases c <;> rfl
@[simp] theorem State.setPic_irqs (c : Ctrl) (p : Pic) (s : State) : (s.setPic c p).irqs = s.irqs := by cases c <;> rfl
@[simp] theorem State.setPic_trace (c : Ctrl) (p : Pic) (s : State) : (s.setPic c p).trace = s.trace := by cases c <;> rfl
@[simp] theorem State.setPic_ptrace (c : Ctrl) (p : Pic) (s : State) : (s.setPic c p).ptrace = s.ptrace := by cases c <;> rfl
@[simp] theorem State.setPic_fault (c : Ctrl) (p : Pic) (s : State) : (s.setPic c p).fault = s.fault := by cases c <;> rfl
@[simp] theorem State.setPic_refused (c : Ctrl) (p : Pic) (s : State) : (s.setPic c p).refused = s.refused := by cases c <;> rfl
@[simp] theorem State.setPic_mem (c : Ctrl) (p : Pic) (s : State) : (s.setPic c p).mem = s.mem := by cases c <;> rfl
@[simp] theorem State.setPic_cfg (c : Ctrl) (p : Pic) (s : State) : (s.setPic c p).cfg = s.cfg := by cases c <;> rfl
@[simp] theorem State.setPic_sched (c : Ctrl) (p : Pic) (s : State) : (s.setPic c p).sched = s.sched := by cases c <;> rfl
@[simp] theorem State.setPic_pick (c : Ctrl) (p : Pic) (s : State) : (s.setPic c p).pick = s.pick := by cases c <;> rfl

/-! ### The context stack -/

@[simp] theorem State.top_nil (s : State) (h : s.irqs = []) : s.top = s.main := by simp [State.top, h]

@[simp] theorem State.top_cons (s : State) (k : IrqContext) (rest : List IrqContext) (h : s.irqs = k :: rest) :
    s.top = k.frame := by simp [State.top, h]

@[simp] theorem State.setTop_top (f : Frame) (s : State) : (s.setTop f).top = f := by
  cases h : s.irqs <;> simp [State.top, State.setTop, h]

@[simp] theorem State.setTop_below (f : Frame) (s : State) : (s.setTop f).below = s.below := by
  cases h : s.irqs <;> simp [State.below, State.setTop, h]

@[simp] theorem State.setTop_setTop (f g : Frame) (s : State) : (s.setTop f).setTop g = s.setTop g := by
  cases h : s.irqs <;> simp [State.setTop, h]

@[simp] theorem State.setTop_irqs_length (f : Frame) (s : State) : (s.setTop f).irqs.length = s.irqs.length := by
  cases h : s.irqs <;> simp [State.setTop, h]

theorem State.setTop_main_of_nil (f : Frame) (s : State) (h : s.irqs = []) : (s.setTop f).main = f := by
  simp [State.setTop, h]

theorem State.setTop_main_of_cons (f : Frame) (s : State) (k : IrqContext) (rest : List IrqContext)
    (h : s.irqs = k :: rest) : (s.setTop f).main = s.main := by simp [State.setTop, h]

theorem State.setTop_irqs_of_nil (f : Frame) (s : State) (h : s.irqs = []) : (s.setTop f).irqs = [] := by
  simp [State.setTop, h]

theorem State.setTop_irqs_of_cons (f : Frame) (s : State) (k : IrqContext) (rest : List IrqContext)
    (h : s.irqs = k :: rest) : (s.setTop f).irqs = { k with frame := f } :: rest := by simp [State.setTop, h]

/-- The flows are the top one and those below it. -/
theorem State.frames_eq (s : State) : s.frames = s.top :: s.below := by
  cases h : s.irqs <;> simp [State.frames, State.top, State.below, h]

@[simp] theorem State.setTop_frames (f : Frame) (s : State) : (s.setTop f).frames = f :: s.below := by
  rw [State.frames_eq, State.setTop_top, State.setTop_below]

/-- The top flow depends on the contexts alone. -/
theorem State.top_congr {s t : State} (hm : t.main = s.main) (hi : t.irqs = s.irqs) : t.top = s.top := by
  simp [State.top, hm, hi]

/-- The flows below depend on the contexts alone. -/
theorem State.below_congr {s t : State} (hm : t.main = s.main) (hi : t.irqs = s.irqs) : t.below = s.below := by
  simp [State.below, hm, hi]

/-- Replacing the top flow depends on the contexts alone. -/
theorem State.setTop_congr {s t : State} (f : Frame) (hm : t.main = s.main) (hi : t.irqs = s.irqs) :
    (t.setTop f).main = (s.setTop f).main ∧ (t.setTop f).irqs = (s.setTop f).irqs := by
  simp [State.setTop, hm, hi]

@[simp] theorem State.setIF_top (b : Bool) (s : State) : (s.setIF b).top = s.top := rfl
@[simp] theorem State.setIF_below (b : Bool) (s : State) : (s.setIF b).below = s.below := rfl
@[simp] theorem State.setIF_frames (b : Bool) (s : State) : (s.setIF b).frames = s.frames := rfl
@[simp] theorem State.logEvent_top (e : Event) (s : State) : (s.logEvent e).top = s.top := rfl
@[simp] theorem State.logEvent_below (e : Event) (s : State) : (s.logEvent e).below = s.below := rfl
@[simp] theorem State.logEvent_frames (e : Event) (s : State) : (s.logEvent e).frames = s.frames := rfl
@[simp] theorem State.raise_top (f : Fault) (s : State) : (s.raise f).top = s.top := rfl
@[simp] theorem State.raise_below (f : Fault) (s : State) : (s.raise f).below = s.below := rfl
@[simp] theorem State.raise_frames (f : Fault) (s : State) : (s.raise f).frames = s.frames := rfl
@[simp] theorem State.refuse_top (r : Refusal) (s : State) : (s.refuse r).top = s.top := rfl
@[simp] theorem State.refuse_below (r : Refusal) (s : State) : (s.refuse r).below = s.below := rfl
@[simp] theorem State.refuse_frames (r : Refusal) (s : State) : (s.refuse r).frames = s.frames := rfl
@[simp] theorem State.memWrite_top (a n v : Nat) (s : State) : (s.memWrite a n v).top = s.top := rfl
@[simp] theorem State.memWrite_below (a n v : Nat) (s : State) : (s.memWrite a n v).below = s.below := rfl
@[simp] theorem State.memWrite_frames (a n v : Nat) (s : State) : (s.memWrite a n v).frames = s.frames := rfl
@[simp] theorem State.logPort_top (p : Half) (b : Byte) (s : State) : (s.logPort p b).top = s.top := rfl
@[simp] theorem State.logPort_below (p : Half) (b : Byte) (s : State) : (s.logPort p b).below = s.below := rfl
@[simp] theorem State.logPort_frames (p : Half) (b : Byte) (s : State) : (s.logPort p b).frames = s.frames := rfl
@[simp] theorem State.loadTableRegister_top (x : TableReg) (s : State) : (s.loadTableRegister x).top = s.top := rfl
@[simp] theorem State.loadTableRegister_below (x : TableReg) (s : State) : (s.loadTableRegister x).below = s.below := rfl
@[simp] theorem State.loadTableRegister_frames (x : TableReg) (s : State) : (s.loadTableRegister x).frames = s.frames := rfl
@[simp] theorem State.popChoice_top (s : State) : s.popChoice.top = s.top := rfl
@[simp] theorem State.popChoice_below (s : State) : s.popChoice.below = s.below := rfl
@[simp] theorem State.popChoice_frames (s : State) : s.popChoice.frames = s.frames := rfl
@[simp] theorem State.zeroTable_top (s : State) : s.zeroTable.top = s.top := rfl
@[simp] theorem State.zeroTable_below (s : State) : s.zeroTable.below = s.below := rfl
@[simp] theorem State.zeroTable_frames (s : State) : s.zeroTable.frames = s.frames := rfl

@[simp] theorem State.setPic_top (c : Ctrl) (p : Pic) (s : State) : (s.setPic c p).top = s.top := by cases c <;> rfl
@[simp] theorem State.setPic_below (c : Ctrl) (p : Pic) (s : State) : (s.setPic c p).below = s.below := by
  cases c <;> rfl
@[simp] theorem State.setPic_frames (c : Ctrl) (p : Pic) (s : State) : (s.setPic c p).frames = s.frames := by
  cases c <;> rfl

/-! ### Flows -/

@[simp] theorem Frame.microDone_prog (k : Kind) (f : Frame) : (f.microDone k).prog = f.prog := rfl
@[simp] theorem Frame.microDone_pc (k : Kind) (f : Frame) : (f.microDone k).pc = f.pc := rfl
@[simp] theorem Frame.microDone_mu (k : Kind) (f : Frame) : (f.microDone k).mu = f.mu + 1 := rfl
@[simp] theorem Frame.microDone_inOp (k : Kind) (f : Frame) : (f.microDone k).inOp = some k := rfl
@[simp] theorem Frame.microDone_row (k : Kind) (f : Frame) : (f.microDone k).row = f.row := rfl
@[simp] theorem Frame.microDone_col (k : Kind) (f : Frame) : (f.microDone k).col = f.col := rfl
@[simp] theorem Frame.microDone_attr (k : Kind) (f : Frame) : (f.microDone k).attr = f.attr := rfl
@[simp] theorem Frame.microDone_done (k : Kind) (f : Frame) : (f.microDone k).done = f.done := rfl
@[simp] theorem Frame.atCommand_prog (f : Frame) (n : Nat) : (f.atCommand n).prog = f.prog := rfl
@[simp] theorem Frame.atCommand_pc (f : Frame) (n : Nat) : (f.atCommand n).pc = n := rfl
@[simp] theorem Frame.atCommand_mu (f : Frame) (n : Nat) : (f.atCommand n).mu = 0 := rfl
@[simp] theorem Frame.atCommand_inOp (f : Frame) (n : Nat) : (f.atCommand n).inOp = none := rfl
@[simp] theorem Frame.atCommand_row (f : Frame) (n : Nat) : (f.atCommand n).row = 0 := rfl
@[simp] theorem Frame.atCommand_col (f : Frame) (n : Nat) : (f.atCommand n).col = 0 := rfl
@[simp] theorem Frame.atCommand_attr (f : Frame) (n : Nat) : (f.atCommand n).attr = 0 := rfl
@[simp] theorem Frame.atCommand_done (f : Frame) (n : Nat) : (f.atCommand n).done = [] := rfl

theorem Frame.commandDone_eq (f : Frame) : f.commandDone = f.atCommand (f.pc + 1) := rfl
theorem State.microDone_eq (k : Kind) (s : State) : s.microDone k = s.setTop (s.top.microDone k) := rfl
theorem State.commandDone_eq (s : State) : s.commandDone = s.setTop s.top.commandDone := rfl
theorem State.microDoneOf_eq (k : Kind) (m : Micro) (s : State) :
    s.microDoneOf k m = s.setTop { s.top.microDone k with done := m :: s.top.done } := rfl

/-! ### The Console registers -/

@[simp] theorem Console.setRow_row (r : Nat) (c : Console) : (c.setRow r).row = r := rfl
@[simp] theorem Console.setRow_col (r : Nat) (c : Console) : (c.setRow r).col = c.col := rfl
@[simp] theorem Console.setRow_attr (r : Nat) (c : Console) : (c.setRow r).attr = c.attr := rfl
@[simp] theorem Console.setRow_ready (r : Nat) (c : Console) : (c.setRow r).ready = c.ready := rfl
@[simp] theorem Console.setCol_row (k : Nat) (c : Console) : (c.setCol k).row = c.row := rfl
@[simp] theorem Console.setCol_col (k : Nat) (c : Console) : (c.setCol k).col = k := rfl
@[simp] theorem Console.setCol_attr (k : Nat) (c : Console) : (c.setCol k).attr = c.attr := rfl
@[simp] theorem Console.setCol_ready (k : Nat) (c : Console) : (c.setCol k).ready = c.ready := rfl
@[simp] theorem Console.setAttr_row (a : Byte) (c : Console) : (c.setAttr a).row = c.row := rfl
@[simp] theorem Console.setAttr_col (a : Byte) (c : Console) : (c.setAttr a).col = c.col := rfl
@[simp] theorem Console.setAttr_attr (a : Byte) (c : Console) : (c.setAttr a).attr = a := rfl
@[simp] theorem Console.setAttr_ready (a : Byte) (c : Console) : (c.setAttr a).ready = c.ready := rfl

@[simp] theorem Frame.takeRead_prog (c : Console) (m : Micro) (f : Frame) : (f.takeRead c m).prog = f.prog := by
  cases m <;> rfl
@[simp] theorem Frame.takeRead_pc (c : Console) (m : Micro) (f : Frame) : (f.takeRead c m).pc = f.pc := by
  cases m <;> rfl
@[simp] theorem Frame.takeRead_mu (c : Console) (m : Micro) (f : Frame) : (f.takeRead c m).mu = f.mu := by
  cases m <;> rfl
@[simp] theorem Frame.takeRead_inOp (c : Console) (m : Micro) (f : Frame) : (f.takeRead c m).inOp = f.inOp := by
  cases m <;> rfl
@[simp] theorem Frame.takeRead_done (c : Console) (m : Micro) (f : Frame) : (f.takeRead c m).done = f.done := by
  cases m <;> rfl

/-- What a flow has read after a read: the register of that read, and what it had read before (R95). -/
theorem Frame.takeRead_eq (c : Console) (m : Micro) (f : Frame) : f.takeRead c m = { f with
    row := if m = .readRow then c.row else f.row
    col := if m = .readCol then c.col else f.col
    attr := if m = .readAttr then c.attr else f.attr } := by
  cases m <;> rfl

/-! ### Stops -/

theorem State.stopped_false_iff (s : State) : s.stopped = false ↔ s.fault = none ∧ s.refused = none := by
  simp [State.stopped]

theorem State.canMove_stopped {s : State} (h : s.canMove) : s.stopped = false :=
  (State.stopped_false_iff s).2 ⟨h.1, h.2.1⟩

@[simp] theorem State.raise_stopped (f : Fault) (s : State) : (s.raise f).stopped = true := by simp [State.stopped]
@[simp] theorem State.refuse_stopped (r : Refusal) (s : State) : (s.refuse r).stopped = true := by
  simp [State.stopped]

theorem State.andThen_of_stopped {s : State} (f : State → State) (h : s.stopped = true) : s.andThen f = s := by
  simp [State.andThen, h]

theorem State.andThen_of_running {s : State} (f : State → State) (h : s.stopped = false) : s.andThen f = f s := by
  simp [State.andThen, h]

end Sys2Proof.Machine
end

