-- ==== Sys2Proof/Laws/Controller.lean ====
section
/-!
SUPPORT. The laws of the controllers: what a port write can do (00_scope.md R15, 43_pic.md R102, R103), what the
pair presents (R105) and what an acknowledgment changes (R106).
-/

namespace Sys2Proof.Machine

/-! ### Bits of a controller register -/

theorem clearLine_getLsbD (b : Byte) (n k : Nat) :
    (clearLine b n).getLsbD k = (b.getLsbD k && decide (k ≠ n)) := by
  by_cases hk : k < 8
  · simp only [clearLine, BitVec.getLsbD_and, BitVec.getLsbD_not, BitVec.getLsbD_shiftLeft, BitVec.getLsbD_one]
    by_cases hn : k = n
    · simp [hn]
    · have h : decide (k < n) = true ∨ decide (k - n = 0) = false := by simp; omega
      rcases h with h | h <;> simp [hk, hn, h]
  · rw [BitVec.getLsbD_of_ge _ k (by omega), BitVec.getLsbD_of_ge b k (by omega), Bool.false_and]

theorem setLine_getLsbD (b : Byte) (n k : Nat) (hn : n < 8) :
    (setLine b n).getLsbD k = (b.getLsbD k || decide (k = n)) := by
  by_cases hk : k < 8
  · simp only [setLine, BitVec.getLsbD_or, BitVec.getLsbD_shiftLeft, BitVec.getLsbD_one]
    have h : (!decide (k < n) && decide (k - n = 0)) = decide (k = n) := by
      by_cases hn : k = n
      · simp [hn]
      · by_cases hlt : k < n
        · simp [hn, hlt]
        · simp [hn, hlt, show k - n ≠ 0 by omega]
    simp [hk, ← h]
  · rw [BitVec.getLsbD_of_ge _ k (by omega), BitVec.getLsbD_of_ge _ k (by omega)]
    simp; omega

/-- The lowest set bit, and that those below it are clear (R102). -/
theorem lowestLine_some {b : Byte} {n : Nat} (h : lowestLine b = some n) :
    n < 8 ∧ b.getLsbD n = true ∧ ∀ k, k < n → b.getLsbD k = false := by
  simp only [lowestLine, List.find?_range_eq_some] at h
  obtain ⟨h1, h2, h3⟩ := h
  refine ⟨by simpa using h2, h1, fun k hk => ?_⟩
  simpa using h3 k hk

theorem lowestLine_none {b : Byte} (h : lowestLine b = none) : b = 0 := by
  simp only [lowestLine, List.find?_range_eq_none] at h
  apply BitVec.eq_of_getLsbD_eq
  intro i hi
  simpa using h i hi

/-- Clearing the lowest set bit of a register is the arithmetic `b & (b - 1)` (R102). -/
theorem endOfInterrupt_isr (p : Pic) : p.endOfInterrupt = { p with isr := p.isr &&& (p.isr - 1) } := by
  have h : ∀ b : Byte, (match lowestLine b with | none => b | some n => clearLine b n) = b &&& (b - 1) := by
    decide
  have hp := h p.isr
  unfold Pic.endOfInterrupt
  cases hl : lowestLine p.isr with
  | none => rw [hl] at hp; rw [← hp]
  | some n => rw [hl] at hp; rw [← hp]

/-! ### Port writes -/

theorem portWrite_command (c : Ctrl) (b : Byte) (s : State) :
    s.portWrite (commandPort c) b = (s.logPort (commandPort c) b).drivePic c (Pic.command c b) := by
  cases c <;> simp [State.portWrite, State.devicePort, commandPort, dataPort]

theorem portWrite_data (c : Ctrl) (b : Byte) (s : State) :
    s.portWrite (dataPort c) b = (s.logPort (dataPort c) b).drivePic c (Pic.data c b) := by
  cases c <;> simp [State.portWrite, State.devicePort, commandPort, dataPort]

/-- What recording a stop leaves: all but the two stop registers. -/
theorem stopWith_eq (st : Option Stop) (s : State) :
    s.stopWith st = { s with fault := (s.stopWith st).fault, refused := (s.stopWith st).refused } := by
  cases st with
  | none => rfl
  | some st => cases st <;> rfl

/-- What driving a controller leaves: all but the controllers and the stop registers. -/
theorem drivePic_eq (c : Ctrl) (react : Pic → Pic × Option Stop) (s : State) :
    s.drivePic c react = { s with
      picM := (s.drivePic c react).picM, picS := (s.drivePic c react).picS,
      fault := (s.drivePic c react).fault, refused := (s.drivePic c react).refused } := by
  unfold State.drivePic
  cases c <;> · rw [stopWith_eq]; rfl

/-- A port write changes the port trace by its own entry, the controllers and the stop registers, and nothing
else (R15). -/
theorem portWrite_eq (port : Half) (b : Byte) (s : State) :
    s.portWrite port b = { s with
      trace := s.trace ++ [(port, b)]
      picM := (s.portWrite port b).picM, picS := (s.portWrite port b).picS,
      fault := (s.portWrite port b).fault, refused := (s.portWrite port b).refused } := by
  unfold State.portWrite State.devicePort
  split
  · rw [drivePic_eq]; rfl
  · split
    · rw [drivePic_eq]; rfl
    · split
      · rw [drivePic_eq]; rfl
      · split
        · rw [drivePic_eq]; rfl
        · rfl

@[simp] theorem State.portWrite_con (p : Half) (b : Byte) (s : State) : (s.portWrite p b).con = s.con := by
  rw [portWrite_eq]
@[simp] theorem State.portWrite_idtBuilt (p : Half) (b : Byte) (s : State) :
    (s.portWrite p b).idtBuilt = s.idtBuilt := by rw [portWrite_eq]
@[simp] theorem State.portWrite_IF (p : Half) (b : Byte) (s : State) : (s.portWrite p b).IF = s.IF := by
  rw [portWrite_eq]
@[simp] theorem State.portWrite_idtr (p : Half) (b : Byte) (s : State) : (s.portWrite p b).idtr = s.idtr := by
  rw [portWrite_eq]
@[simp] theorem State.portWrite_main (p : Half) (b : Byte) (s : State) : (s.portWrite p b).main = s.main := by
  rw [portWrite_eq]
@[simp] theorem State.portWrite_irqs (p : Half) (b : Byte) (s : State) : (s.portWrite p b).irqs = s.irqs := by
  rw [portWrite_eq]
@[simp] theorem State.portWrite_trace (p : Half) (b : Byte) (s : State) :
    (s.portWrite p b).trace = s.trace ++ [(p, b)] := by rw [portWrite_eq]
@[simp] theorem State.portWrite_ptrace (p : Half) (b : Byte) (s : State) :
    (s.portWrite p b).ptrace = s.ptrace := by rw [portWrite_eq]
@[simp] theorem State.portWrite_mem (p : Half) (b : Byte) (s : State) : (s.portWrite p b).mem = s.mem := by
  rw [portWrite_eq]
@[simp] theorem State.portWrite_cfg (p : Half) (b : Byte) (s : State) : (s.portWrite p b).cfg = s.cfg := by
  rw [portWrite_eq]
@[simp] theorem State.portWrite_sched (p : Half) (b : Byte) (s : State) :
    (s.portWrite p b).sched = s.sched := by rw [portWrite_eq]
@[simp] theorem State.portWrite_pick (p : Half) (b : Byte) (s : State) : (s.portWrite p b).pick = s.pick := by
  rw [portWrite_eq]
@[simp] theorem State.portWrite_top (p : Half) (b : Byte) (s : State) : (s.portWrite p b).top = s.top := by
  rw [portWrite_eq]; rfl
@[simp] theorem State.portWrite_below (p : Half) (b : Byte) (s : State) : (s.portWrite p b).below = s.below := by
  rw [portWrite_eq]; rfl

/-- The EOI byte at an idle controller clears its lowest in-service bit and stops nothing (R102). -/
theorem portWrite_eoi (c : Ctrl) (s : State) (h : (s.pic c).phase = .idle) :
    s.portWrite (commandPort c) eoiByte =
      (s.logPort (commandPort c) eoiByte).setPic c { s.pic c with isr := (s.pic c).isr &&& ((s.pic c).isr - 1) } := by
  have hc : Pic.command c eoiByte (s.pic c) = ((s.pic c).endOfInterrupt, none) := by
    simp [Pic.command, classifyCommand, eoiByte, h]
  rw [portWrite_command]
  have hp : (s.logPort (commandPort c) eoiByte).pic c = s.pic c := by cases c <;> rfl
  simp only [State.drivePic, hp, hc, State.stopWith, endOfInterrupt_isr]

/-- ICW1 at any controller starts its initialization and stops nothing (R102). -/
theorem portWrite_icw1 (c : Ctrl) (s : State) :
    s.portWrite (commandPort c) icw1Byte =
      (s.logPort (commandPort c) icw1Byte).setPic c ((s.pic c).startInit icw1Byte) := by
  have hc : Pic.command c icw1Byte (s.pic c) = ((s.pic c).startInit icw1Byte, none) := by
    simp [Pic.command, classifyCommand, icw1Byte]
  rw [portWrite_command]
  have hp : (s.logPort (commandPort c) icw1Byte).pic c = s.pic c := by cases c <;> rfl
  simp only [State.drivePic, hp, hc, State.stopWith]

/-- A data byte that takes a controller to `p` without a stop (R103). -/
theorem portWrite_data_of (c : Ctrl) (b : Byte) (s : State) {p : Pic} (h : Pic.data c b (s.pic c) = (p, none)) :
    s.portWrite (dataPort c) b = (s.logPort (dataPort c) b).setPic c p := by
  rw [portWrite_data]
  have hp : (s.logPort (dataPort c) b).pic c = s.pic c := by cases c <;> rfl
  simp only [State.drivePic, hp, h, State.stopWith]

/-- The admitted cascaded sequence, data byte by data byte (R103). -/
theorem data_base {c : Ctrl} {p : Pic} (b : Byte) (h : p.phase = .wICW2) (h1 : p.icw1 = icw1Byte) :
    Pic.data c b p = ({ p with vbase := vectorBase b, phase := .wICW3 }, none) := by
  simp [Pic.data, h, h1, icw1Single, icw1Byte, Pic.enterPhase]

theorem data_cascade {c : Ctrl} {p : Pic} (b : Byte) (h : p.phase = .wICW3) (h1 : p.icw1 = icw1Byte) :
    Pic.data c b p = ({ p with icw3 := b, phase := .wICW4 }, none) := by
  simp [Pic.data, h, h1, phaseBeforeMode, icw1NeedsIcw4, icw1Byte, Pic.enterPhase]

theorem data_mode {c : Ctrl} {p : Pic} (h : p.phase = .wICW4) (h1 : p.icw1 = icw1Byte) (h3 : p.icw3 = icw3Byte c) :
    Pic.data c icw4Byte p = ({ p with icw4 := icw4Byte, phase := .idle, configured := true }, none) := by
  simp [Pic.data, h, h1, h3, Pic.enterPhase, Pic.finishInit]

theorem data_mask {c : Ctrl} {p : Pic} (b : Byte) (h : p.phase = .idle) :
    Pic.data c b p = ({ p with imr := b }, none) := by
  simp [Pic.data, h]

/-- Each of PICREMAP's writes is the next one of one controller's sequence, and the other controller's count of
writes stays (R107). -/
theorem remapSequence_step (cfg : Config) (mb sb : Byte) (n : Nat) (w : Half × Byte)
    (h : (remapSequence cfg mb sb)[n]? = some w) :
    ∃ c, (initSequence cfg c (match c with | .M => mb | .S => sb))[remapDone cfg c mb sb n]? = some w ∧
      remapDone cfg c mb sb (n + 1) = remapDone cfg c mb sb n + 1 ∧
      ∀ c', c' ≠ c → remapDone cfg c' mb sb (n + 1) = remapDone cfg c' mb sb n := by
  have hn : n < (remapSequence cfg mb sb).length := (List.getElem?_eq_some_iff.1 h).1
  unfold remapDone
  cases ho : cfg.remapOrder <;> cases hu : cfg.explicitUnmask <;>
    simp only [remapSequence, initSequence, ho, hu, alternate, if_true, Bool.false_eq_true, if_false,
      List.append_nil, List.cons_append, List.nil_append] at h hn ⊢ <;>
    simp only [List.length_cons, List.length_nil] at hn <;> interval_cases n <;> simp at h <;> subst h <;>
  first
  | exact ⟨.M, rfl, rfl, fun c' hc' => by cases c' <;> first | exact absurd rfl hc' | rfl⟩
  | exact ⟨.S, rfl, rfl, fun c' hc' => by cases c' <;> first | exact absurd rfl hc' | rfl⟩

/-- After all of PICREMAP's writes each controller has had its whole sequence (R107). -/
theorem remapDone_all (cfg : Config) (mb sb : Byte) (c : Ctrl) (n : Nat)
    (hn : (remapSequence cfg mb sb).length ≤ n) : 4 ≤ remapDone cfg c mb sb n := by
  unfold remapDone
  rw [List.take_of_length_le hn]
  cases ho : cfg.remapOrder <;> cases hu : cfg.explicitUnmask <;> cases c <;>
    simp [remapSequence, initSequence, ho, hu, alternate, commandPort, dataPort]

/-- A write of a controller's initialization sequence, where the writes before it have brought the controller:
it stops nothing, and takes the controller to the next place of the sequence (R102, R103). -/
theorem portWrite_init (cfg : Config) (c : Ctrl) (b : Byte) (j : Nat) (w : Half × Byte)
    (h : (initSequence cfg c b)[j]? = some w) (s : State) (ha : Pic.atInit c j (s.pic c)) (hok : Pic.ok c (s.pic c)) :
    ∃ p, s.portWrite w.1 w.2 = (s.logPort w.1 w.2).setPic c p ∧ Pic.atInit c (j + 1) p ∧ Pic.ok c p ∧
      (p.irr = 0 ∨ p.irr = (s.pic c).irr) := by
  have hj : j < (initSequence cfg c b).length := (List.getElem?_eq_some_iff.1 h).1
  have hj5 : j < 5 := by
    have : (initSequence cfg c b).length ≤ 5 := by unfold initSequence; split <;> simp
    omega
  obtain ⟨ok1, ok2⟩ := hok
  interval_cases j
  · simp [initSequence] at h; subst h
    refine ⟨_, portWrite_icw1 c s, ⟨rfl, rfl⟩, ⟨ok1, ?_⟩, .inl rfl⟩
    intro h; simp [Pic.startInit] at h
  · simp [initSequence] at h; subst h
    obtain ⟨h1, h2⟩ := ha
    refine ⟨_, portWrite_data_of c b s (data_base b h1 h2), ⟨rfl, h2⟩, ⟨?_, ?_⟩, .inr rfl⟩
    · have : ∀ b : Byte, (b &&& 0xF8) &&& 7 = 0 := by decide
      exact this b
    · intro h; have := (ok2 h).1; rw [h1] at this; simp at this
  · simp [initSequence] at h; subst h
    obtain ⟨h1, h2⟩ := ha
    refine ⟨_, portWrite_data_of c _ s (data_cascade _ h1 h2), ⟨rfl, h2, rfl⟩, ⟨ok1, ?_⟩, .inr rfl⟩
    intro h; have := (ok2 h).1; rw [h1] at this; simp at this
  · simp [initSequence] at h; subst h
    obtain ⟨h1, h2, h3⟩ := ha
    exact ⟨_, portWrite_data_of c _ s (data_mode h1 h2 h3), rfl, ⟨ok1, fun _ => ⟨rfl, h2, h3, rfl⟩⟩, .inr rfl⟩
  · have hw : w = (dataPort c, ocw1Unmask) := by
      cases hu : cfg.explicitUnmask <;> simp [initSequence, hu] at h; exact h.symm
    subst hw
    have h1 : (s.pic c).phase = .idle := ha
    exact ⟨_, portWrite_data_of c _ s (data_mask _ h1), h1, ⟨ok1, fun h => ok2 h⟩, .inr rfl⟩

/-- How many writes PICREMAP's ordered sequence has (R107, R108). -/
theorem remapWrites_length (cfg : Config) (mb sb : Byte) : (remapSequence cfg mb sb).length = remapWrites cfg := by
  cases ho : cfg.remapOrder <;> cases hu : cfg.explicitUnmask <;>
    simp [remapSequence, initSequence, remapWrites, ho, hu, alternate]

/-- PICREMAP's write `mu` is the one at its place of one controller's sequence (R107). -/
theorem remapSequence_place (cfg : Config) (mb sb : Byte) (mu n : Nat) (c : Ctrl) (hmu : mu < remapWrites cfg)
    (hp : remapPlace cfg mu = (c, n)) :
    (remapSequence cfg mb sb)[mu]? = some (remapWrite c (if c = .M then mb else sb) n) ∧ n < 5 := by
  unfold remapWrites at hmu
  cases ho : cfg.remapOrder <;> cases hu : cfg.explicitUnmask <;> simp only [hu] at hmu <;>
    simp only [remapPlace, ho, hu] at hp <;> simp at hmu <;> interval_cases mu <;>
    simp at hp <;> obtain ⟨rfl, rfl⟩ := hp <;>
    simp [remapSequence, initSequence, ho, hu, alternate, remapWrite, commandPort, dataPort, icw1Byte, icw3Byte,
      icw4Byte, ocw1Unmask]

/-- A write of a controller's sequence, where the writes before it have brought the controller, is its reaction there
and stops nothing; the first one is so at any controller (R102, R103). -/
theorem portWrite_place (c : Ctrl) (b : Byte) (n : Nat) (hn : n < 5) (s : State)
    (ha : n ≠ 0 → Pic.atInit c n (s.pic c)) :
    s.portWrite (remapWrite c b n).1 (remapWrite c b n).2 =
      (s.logPort (remapWrite c b n).1 (remapWrite c b n).2).setPic c (remapReaction c b n (s.pic c)) ∧
      Pic.atInit c (n + 1) (remapReaction c b n (s.pic c)) := by
  have e : ∀ n, remapWrite c b n = (if n = 0 then commandPort c else dataPort c,
      match n with | 0 => icw1Byte | 1 => b | 2 => icw3Byte c | 3 => icw4Byte | _ => ocw1Unmask) := by
    intro n; cases c <;> rcases n with _ | _ | _ | _ | _ <;> rfl
  rw [e]
  interval_cases n
  · exact ⟨portWrite_icw1 c s, rfl, rfl⟩
  · obtain ⟨h1, h2⟩ := ha (by decide)
    exact ⟨portWrite_data_of c b s (data_base b h1 h2), rfl, h2⟩
  · obtain ⟨h1, h2⟩ := ha (by decide)
    refine ⟨?_, rfl, h2, ?_⟩
    · have := portWrite_data_of c _ s (data_cascade (icw3Byte c) h1 h2)
      cases c <;> exact this
    · cases c <;> rfl
  · obtain ⟨h1, h2, h3⟩ := ha (by decide)
    exact ⟨portWrite_data_of c _ s (data_mode h1 h2 h3), rfl⟩
  · have h1 : (s.pic c).phase = .idle := ha (by decide)
    exact ⟨portWrite_data_of c _ s (data_mask _ h1), h1⟩

/-! ### Requests -/

theorem blocked_eq_false_iff (p : Pic) (n : Nat) :
    p.blocked n = false ↔ ∀ k, k ≤ n → p.isr.getLsbD k = false := by
  simp only [Pic.blocked, List.any_eq_false, List.mem_range]
  exact ⟨fun h k hk => by simpa using h k (by omega), fun h k hk => by simpa using h k (by omega)⟩

theorem candS_some {s : State} {m : Nat} (h : s.candS = some m) :
    m < 8 ∧ (s.picS.irr.getLsbD m = true ∧ s.picS.imr.getLsbD m = false ∧ s.picS.blocked m = false) ∧
      ∀ k, k < m → ¬ (s.picS.irr.getLsbD k = true ∧ s.picS.imr.getLsbD k = false ∧ s.picS.blocked k = false) := by
  simp only [State.candS, List.find?_range_eq_some] at h
  obtain ⟨h1, h2, h3⟩ := h
  refine ⟨by simpa using h2, by simpa [and_assoc] using h1, fun k hk => ?_⟩
  have := h3 k hk
  rintro ⟨ha, hb, hc⟩
  simp [ha, hb, hc] at this

theorem candS_none {s : State} (h : s.candS = none) (k : Nat) (hk : k < 8) :
    ¬ (s.picS.irr.getLsbD k = true ∧ s.picS.imr.getLsbD k = false ∧ s.picS.blocked k = false) := by
  simp only [State.candS, List.find?_range_eq_none] at h
  have := h k hk
  rintro ⟨ha, hb, hc⟩
  simp [ha, hb, hc] at this

theorem candM_some {s : State} {n : Nat} (h : s.candM = some n) :
    n < 8 ∧ (s.reqM n = true ∧ s.picM.imr.getLsbD n = false ∧ s.picM.blocked n = false) ∧
      ∀ k, k < n → ¬ (s.reqM k = true ∧ s.picM.imr.getLsbD k = false ∧ s.picM.blocked k = false) := by
  simp only [State.candM, List.find?_range_eq_some] at h
  obtain ⟨h1, h2, h3⟩ := h
  refine ⟨by simpa using h2, by simpa [and_assoc] using h1, fun k hk => ?_⟩
  have := h3 k hk
  rintro ⟨ha, hb, hc⟩
  simp [ha, hb, hc] at this

theorem candM_none {s : State} (h : s.candM = none) (k : Nat) (hk : k < 8) :
    ¬ (s.reqM k = true ∧ s.picM.imr.getLsbD k = false ∧ s.picM.blocked k = false) := by
  simp only [State.candM, List.find?_range_eq_none] at h
  have := h k hk
  rintro ⟨ha, hb, hc⟩
  simp [ha, hb, hc] at this

/-- What the request is: a master line, or a slave line through master line 2 (R105). -/
theorem request_cases {s : State} {x : Ctrl × Nat} (h : s.request = some x) :
    (∃ n, x = (.M, n) ∧ n ≠ 2 ∧ s.candM = some n) ∨ (∃ m, x = (.S, m) ∧ s.candM = some 2 ∧ s.candS = some m) := by
  unfold State.request at h
  split at h
  · simp at h
  · next n hn =>
    split at h
    · next h2 =>
      subst h2
      simp only [Option.map_eq_some_iff] at h
      obtain ⟨m, hm, rfl⟩ := h
      exact .inr ⟨m, rfl, hn, hm⟩
    · next h2 =>
      simp only [Option.some.injEq] at h
      exact .inl ⟨n, h.symm, h2, hn⟩

/-- Whenever the master presents line 2, the slave has a line (R105). -/
theorem request_none {s : State} (h : s.request = none) : s.candM = none := by
  unfold State.request at h
  split at h
  · assumption
  · next n hn =>
    split at h
    · next h2 =>
      subst h2
      have := (candM_some hn).2.1.1
      simp only [State.reqM, if_true] at this
      simp only [Option.map_eq_none_iff] at h
      simp [h] at this
    · simp at h

/-! ### Acknowledgment -/

/-- An acknowledgment changes the two controllers only (R106). -/
theorem acknowledge_eq (c : Ctrl) (n : Nat) (s : State) :
    s.acknowledge c n = { s with picM := (s.acknowledge c n).picM, picS := (s.acknowledge c n).picS } := by
  cases c <;> rfl

/-- A raised line changes the two controllers only (R104). -/
theorem raiseIrq_eq (c : Ctrl) (n : Nat) (s : State) :
    s.raiseIrq c n = { s with picM := (s.raiseIrq c n).picM, picS := (s.raiseIrq c n).picS } := by
  cases c
  · unfold State.raiseIrq; dsimp only; split <;> rfl
  · rfl

end Sys2Proof.Machine
end

