-- ==== Sys2Proof/Laws/Memory.lean ====
section
/-!
SUPPORT. The laws of linear memory: what a read gives after a store, and that a store keeps the canonical
form.
-/

namespace Sys2Proof.Machine

/-! ### Little-endian bytes -/

@[simp] theorem leBytes_length (n v : Nat) : (leBytes n v).length = n := by
  induction n generalizing v with
  | zero => rfl
  | succ n ih => simp [leBytes, ih]

/-- The value of the low `n` bytes is the number modulo `256^n` (R45). -/
theorem leValue_leBytes (n v : Nat) : leValue (leBytes n v) = v % 256 ^ n := by
  induction n generalizing v with
  | zero => simp [leBytes, leValue, Nat.mod_one]
  | succ n ih =>
    simp only [leBytes, leValue, ih, BitVec.toNat_ofNat]
    rw [show (2 : Nat) ^ 8 = 256 from rfl, pow_succ, mul_comm (256 ^ n) 256, Nat.mod_mul]

theorem leValue_lt (bs : List Byte) : leValue bs < 256 ^ bs.length := by
  induction bs with
  | nil => simp [leValue]
  | cons b bs ih =>
    have := b.isLt
    simp only [leValue, List.length_cons, pow_succ]
    omega

/-- Bytes are the bytes of their value (R45). -/
theorem leBytes_leValue (bs : List Byte) : leBytes bs.length (leValue bs) = bs := by
  induction bs with
  | nil => rfl
  | cons b bs ih =>
    have hb := b.isLt
    simp only [List.length_cons, leBytes, leValue, List.cons.injEq]
    refine ⟨?_, ?_⟩
    · apply BitVec.eq_of_toNat_eq
      simp only [BitVec.toNat_ofNat]
      omega
    · rw [show (b.toNat + 256 * leValue bs) / 256 = leValue bs by omega]
      exact ih

/-- The bytes of a number, one by one (R45). -/
theorem getElem?_leBytes (n v i : Nat) (h : i < n) : (leBytes n v)[i]? = some (BitVec.ofNat 8 (v / 256 ^ i)) := by
  induction n generalizing v i with
  | zero => omega
  | succ n ih =>
    cases i with
    | zero => simp [leBytes]
    | succ i => simp [leBytes, ih _ _ (show i < n by omega), Nat.div_div_eq_div_mul, pow_succ, mul_comm]

/-! ### One byte -/

@[simp] theorem cellsFrom_length (a : Nat) (bs : List Byte) : (cellsFrom a bs).length = bs.length := by
  induction bs generalizing a with
  | nil => rfl
  | cons b bs ih => simp [cellsFrom, ih]

theorem mem_cellsFrom {a : Nat} {bs : List Byte} {x : Host.Cell} (h : x ∈ cellsFrom a bs) :
    a ≤ x.1 ∧ x.1 < a + bs.length := by
  induction bs generalizing a with
  | nil => simp [cellsFrom] at h
  | cons b bs ih =>
    simp only [cellsFrom, List.mem_cons, List.length_cons] at h ⊢
    rcases h with rfl | h
    · simp
    · have := ih h
      omega

/-- The byte at an address of a block of bytes. -/
theorem byteAt_cellsFrom (a : Nat) (bs : List Byte) (x : Nat) :
    Memory.byteAt (cellsFrom a bs) x = if a ≤ x then bs[x - a]? else none := by
  induction bs generalizing a with
  | nil => simp [cellsFrom, Memory.byteAt]
  | cons b bs ih =>
    have ih' := ih (a + 1)
    simp only [Memory.byteAt, cellsFrom, List.find?_cons] at ih' ⊢
    by_cases h : a = x
    · subst h
      simp
    · have hne : (a == x) = false := by simp [h]
      simp only [hne]
      rw [ih']
      by_cases h2 : a ≤ x
      · have : x - a = (x - (a + 1)) + 1 := by omega
        rw [if_pos (by omega), if_pos h2, this, List.getElem?_cons_succ]
      · rw [if_neg (by omega), if_neg h2]

theorem byteAt_append (m m' : Memory) (a : Nat) :
    Memory.byteAt (m ++ m') a = (Memory.byteAt m a).or (Memory.byteAt m' a) := by
  simp only [Memory.byteAt, List.find?_append]
  cases m.find? (fun x => x.1 == a) <;> simp

theorem byteAt_cons (x : Host.Cell) (m : Memory) (a : Nat) :
    Memory.byteAt (x :: m) a = if x.1 = a then some x.2 else Memory.byteAt m a := by
  by_cases h : x.1 = a <;> simp [Memory.byteAt, h]

theorem byteAt_filter (m : Memory) (p : Nat → Bool) (a : Nat) :
    Memory.byteAt (m.filter (fun x => p x.1)) a = if p a then Memory.byteAt m a else none := by
  induction m with
  | nil => simp [Memory.byteAt]
  | cons x m ih =>
    by_cases hp : p x.1
    · rw [List.filter_cons_of_pos (by simpa using hp), byteAt_cons, byteAt_cons, ih]
      by_cases hx : x.1 = a
      · subst hx; simp [hp]
      · simp [hx]
    · rw [List.filter_cons_of_neg (by simpa using hp), ih, byteAt_cons]
      by_cases hx : x.1 = a
      · subst hx; simp [hp]
      · simp [hx]

/-- What a byte reads as after a store: the stored byte inside the block, what it was outside. -/
theorem byteAt_store (m : Memory) (a : Nat) (bs : List Byte) (x : Nat) :
    (m.store a bs).byteAt x = if a ≤ x ∧ x < a + bs.length then bs[x - a]? else m.byteAt x := by
  simp only [Memory.store]
  rw [byteAt_append, byteAt_append, byteAt_cellsFrom,
    byteAt_filter m (fun y => decide (y < a)), byteAt_filter m (fun y => decide (a + bs.length ≤ y))]
  by_cases h1 : a ≤ x
  · by_cases h2 : x < a + bs.length
    · have hs : bs[x - a]? = some bs[x - a] := List.getElem?_eq_getElem (by omega)
      have h3 : ¬ x < a := by omega
      simp [h1, h2, h3, hs]
    · have hn : bs[x - a]? = none := List.getElem?_eq_none (by omega)
      have h3 : ¬ x < a := by omega
      have h4 : a + bs.length ≤ x := by omega
      simp [h1, h2, h3, h4, hn]
  · have h3 : x < a := by omega
    have h4 : ¬ a + bs.length ≤ x := by omega
    simp only [h1, h3, h4, decide_true, decide_false, if_true, if_false, false_and]
    cases m.byteAt x <;> simp

theorem byteAt_store_inside (m : Memory) {a : Nat} {bs : List Byte} {x : Nat} (h1 : a ≤ x)
    (h2 : x < a + bs.length) : (m.store a bs).byteAt x = bs[x - a]? := by
  rw [byteAt_store, if_pos ⟨h1, h2⟩]

theorem byteAt_store_outside (m : Memory) {a : Nat} {bs : List Byte} {x : Nat}
    (h : x < a ∨ a + bs.length ≤ x) : (m.store a bs).byteAt x = m.byteAt x := by
  rw [byteAt_store, if_neg (by omega)]

/-! ### Blocks of bytes -/

/-- A read of a block depends on its bytes alone. -/
theorem bytes_congr {m m' : Memory} {a n : Nat} (h : ∀ x, a ≤ x → x < a + n → m'.byteAt x = m.byteAt x) :
    m'.bytes a n = m.bytes a n := by
  induction n generalizing a with
  | zero => rfl
  | succ n ih =>
    simp only [Memory.bytes]
    rw [h a (by omega) (by omega), ih (fun x h1 h2 => h x (by omega) (by omega))]

/-- A block whose bytes are given, address by address. -/
theorem bytes_of_byteAt {m : Memory} {a : Nat} {bs : List Byte}
    (h : ∀ i, i < bs.length → m.byteAt (a + i) = bs[i]?) : m.bytes a bs.length = some bs := by
  induction bs generalizing a with
  | nil => rfl
  | cons b bs ih =>
    have h0 : m.byteAt a = some b := by simpa using h 0 (by simp)
    have hr : m.bytes (a + 1) bs.length = some bs := by
      apply ih
      intro i hi
      have := h (i + 1) (by simp; omega)
      rw [show a + (i + 1) = a + 1 + i by omega] at this
      simpa using this
    simp [Memory.bytes, h0, hr]

/-- A block reads as what was stored there. -/
theorem bytes_store_same (m : Memory) (a : Nat) (bs : List Byte) : (m.store a bs).bytes a bs.length = some bs := by
  apply bytes_of_byteAt
  intro i hi
  rw [byteAt_store_inside m (by omega) (by omega), show a + i - a = i by omega]

/-- A block disjoint from a store reads as before. -/
theorem bytes_store_disjoint (m : Memory) {a : Nat} {bs : List Byte} {b n : Nat}
    (h : b + n ≤ a ∨ a + bs.length ≤ b) : (m.store a bs).bytes b n = m.bytes b n :=
  bytes_congr (fun x h1 h2 => byteAt_store_outside m (by omega))

/-- `MemRead` after `MemWrite` of the same place and width (R13, R45). -/
theorem memRead_memWrite_same (s : State) (a n v : Nat) : (s.memWrite a n v).memRead a n = some (v % 256 ^ n) := by
  have h := bytes_store_same s.mem a (leBytes n v)
  rw [leBytes_length] at h
  simp [State.memRead, h, leValue_leBytes]

/-- `MemRead` of a place disjoint from a `MemWrite` (R13). -/
theorem memRead_memWrite_disjoint (s : State) {a n v b k : Nat} (h : b + k ≤ a ∨ a + n ≤ b) :
    (s.memWrite a n v).memRead b k = s.memRead b k := by
  simp only [State.memRead, State.memWrite_mem]
  rw [bytes_store_disjoint]
  simpa using h

/-! ### The canonical form -/

theorem cellsFrom_pairwise (a : Nat) (bs : List Byte) : (cellsFrom a bs).Pairwise (fun x y => x.1 < y.1) := by
  induction bs generalizing a with
  | nil => exact .nil
  | cons b bs ih =>
    refine .cons ?_ (ih (a + 1))
    intro x hx
    have := mem_cellsFrom hx
    show a < x.1
    omega

/-- A store inside the address space keeps the canonical form. -/
theorem Memory.store_wf {m : Memory} (h : m.wf) (a : Nat) (bs : List Byte) (hb : a + bs.length ≤ 2 ^ 32) :
    (m.store a bs).wf := by
  obtain ⟨hs, hlt⟩ := h
  refine ⟨?_, ?_⟩
  · simp only [Memory.store, List.pairwise_append]
    refine ⟨⟨hs.filter _, cellsFrom_pairwise a bs, ?_⟩, hs.filter _, ?_⟩
    · intro x hx y hy
      have h1 := mem_cellsFrom hy
      simp only [List.mem_filter, decide_eq_true_eq] at hx
      omega
    · intro x hx y hy
      simp only [List.mem_filter, decide_eq_true_eq] at hy
      simp only [List.mem_append, List.mem_filter, decide_eq_true_eq] at hx
      rcases hx with hx | hx
      · omega
      · have := mem_cellsFrom hx
        omega
  · intro x hx
    simp only [Memory.store, List.mem_append, List.mem_filter] at hx
    rcases hx with (hx | hx) | hx
    · exact hlt x hx.1
    · have := mem_cellsFrom hx
      omega
    · exact hlt x hx.1

/-- `MemWrite` inside the address space keeps the canonical form. -/
theorem State.memWrite_wf {s : State} (h : s.mem.wf) (a n v : Nat) (hb : a + n ≤ 2 ^ 32) :
    (s.memWrite a n v).mem.wf := by
  simpa using Memory.store_wf h a (leBytes n v) (by simpa using hb)

/-- Zeroing the table inside the address space keeps the canonical form. -/
theorem State.zeroTable_wf {s : State} (h : s.mem.wf) (hb : s.cfg.idtBase.toNat + IDT_BYTES ≤ 2 ^ 32) :
    s.zeroTable.mem.wf := by
  rw [State.zeroTable_mem]
  exact Memory.store_wf h _ _ (by simpa only [List.length_replicate] using hb)

/-- The memory at reset has the canonical form. -/
theorem State.reset_mem_wf : State.reset.mem.wf := ⟨List.Pairwise.nil, fun _ h => absurd h List.not_mem_nil⟩

/-! ### The table and the descriptors -/

/-- Every byte of the table reads 0 after it is zeroed (R97). -/
theorem byteAt_zeroTable_inside (s : State) {a : Nat} (h1 : s.cfg.idtBase.toNat ≤ a)
    (h2 : a < s.cfg.idtBase.toNat + IDT_BYTES) : s.zeroTable.mem.byteAt a = some 0 := by
  rw [State.zeroTable_mem, byteAt_store_inside _ h1 (by simpa only [List.length_replicate] using h2),
    List.getElem?_replicate, if_pos (by omega)]

/-- A byte outside the table reads as before it is zeroed. -/
theorem byteAt_zeroTable_outside (s : State) {a : Nat}
    (h : a < s.cfg.idtBase.toNat ∨ s.cfg.idtBase.toNat + IDT_BYTES ≤ a) :
    s.zeroTable.mem.byteAt a = s.mem.byteAt a := by
  rw [State.zeroTable_mem]
  exact byteAt_store_outside _ (by simpa only [List.length_replicate] using h)

/-- A `MemRead` depends on its bytes alone. -/
theorem memRead_congr {s t : State} {a n : Nat} (h : ∀ x, a ≤ x → x < a + n → t.mem.byteAt x = s.mem.byteAt x) :
    t.memRead a n = s.memRead a n := by
  simp only [State.memRead, bytes_congr h]

/-- A descriptor depends on its eight bytes alone. -/
theorem descAt_congr {s t : State} {v : Byte} (hc : t.cfg = s.cfg)
    (h : ∀ x, descAddr s.cfg v ≤ x → x < descAddr s.cfg v + 8 → t.mem.byteAt x = s.mem.byteAt x) :
    t.descAt v = s.descAt v := by
  simp only [State.descAt, hc]
  rw [memRead_congr h]

/-- Every descriptor of the zeroed table is zero (R97). -/
theorem descAt_zeroTable (s : State) (v : Byte) : s.zeroTable.descAt v = some 0 := by
  have hv := v.isLt
  have h : s.zeroTable.mem.bytes (descAddr s.cfg v) (List.replicate 8 (0 : Byte)).length =
      some (List.replicate 8 0) := by
    apply bytes_of_byteAt
    intro i hi
    simp only [List.length_replicate] at hi
    rw [byteAt_zeroTable_inside s (by simp only [descAddr]; omega)
      (by simp only [descAddr, DESC_BYTES, IDT_BYTES]; omega), List.getElem?_replicate, if_pos hi]
  exact (congrArg (fun x => (Option.map leValue x).map (BitVec.ofNat 64)) h).trans rfl

end Sys2Proof.Machine
end

