-- ==== Sys2Proof/Laws/Delivery.lean ====
section
/-!
SUPPORT. The laws of interrupt delivery and return (60_exceptions.md R125 to R129): every way each can go, once.
-/

namespace Sys2Proof.Machine

/-- The context that entry through a gate pushes, and `IF` after it (R127). -/
theorem pushContext_setIF_eq (v : Byte) (p : List CmdWord) (b : Bool) (s : State) :
    (s.pushContext v p).setIF b = { s with
      IF := b, irqs := { vector := v, phase := .body, savedIF := s.IF, frame := Frame.start p } :: s.irqs } := rfl

/-- Entry through a descriptor's fields records one of four faults and changes nothing else, or pushes a context
(R126). -/
theorem enterGate_cases (v t : Byte) (sel : Half) (h : Addr) (s : State) :
    (∃ f, s.enterGate v t sel h = s.raise f ∧ (f = .unhandledVector v ∨ f = .unsupportedGate v t sel ∨
        f = .noHandlerCode v h ∨ f = .stackExhausted v)) ∨
      (∃ p, handlerAt s.cfg h = some p ∧ gatePresent t = true ∧ gateSupported t sel = true ∧
        s.irqs.length < s.cfg.maxNest ∧
        s.enterGate v t sel h = (s.pushContext v p).setIF (ifAfterGate (isInterruptGate t) s.IF)) := by
  unfold State.enterGate
  split
  · exact .inl ⟨_, rfl, .inl rfl⟩
  · next hp =>
    split
    · exact .inl ⟨_, rfl, .inr (.inl rfl)⟩
    · next hs =>
      split
      · exact .inl ⟨_, rfl, .inr (.inr (.inl rfl))⟩
      · next p hh =>
        split
        · exact .inl ⟨_, rfl, .inr (.inr (.inr rfl))⟩
        · next hn =>
          exact .inr ⟨p, hh, by simpa using hp, by simpa using hs, by omega, rfl⟩

/-- A delivery records a fault and changes nothing else, or pushes a context whose program is a handler's
(R126). The model's own fault arises only where a descriptor inside the table is unwritten. -/
theorem deliver_cases (v : Byte) (s : State) :
    (∃ f, s.deliver v = s.raise f ∧ (∀ c b, f ≠ .picProtocol c b) ∧
        (f = .unwrittenDescriptor v → ∃ r, s.idtr = some r ∧ vectorInside r v = true ∧
          s.memRead (r.base.toNat + DESC_BYTES * v.toNat) DESC_BYTES = none) ∧
        (∀ u, f = .unwrittenDescriptor u → u = v)) ∨
      (∃ h p b, handlerAt s.cfg h = some p ∧ s.irqs.length < s.cfg.maxNest ∧ (b = false ∨ b = s.IF) ∧
        s.deliver v = (s.pushContext v p).setIF b) := by
  unfold State.deliver
  split
  · exact .inl ⟨_, rfl, by simp, by simp, by simp⟩
  · next r hr =>
    split
    · exact .inl ⟨_, rfl, by simp, by simp, by simp⟩
    · next hv =>
      split
      · next hm => exact .inl ⟨_, rfl, by simp, fun _ => ⟨r, hr, by simpa using hv, hm⟩, by simp⟩
      · next n hm =>
        rcases enterGate_cases v (descType (BitVec.ofNat 64 n)) (descSelector (BitVec.ofNat 64 n))
          (descOffset (BitVec.ofNat 64 n)) s with ⟨f, hf, hk⟩ | ⟨p, hh, hp, hs, hn, he⟩
        · refine .inl ⟨f, hf, ?_, ?_, ?_⟩ <;> rcases hk with rfl | rfl | rfl | rfl <;> simp
        · refine .inr ⟨_, p, _, hh, hn, ?_, he⟩
          cases isInterruptGate (descType (BitVec.ofNat 64 n)) <;> simp [ifAfterGate]

/-- What a delivery leaves, and what it does to the contexts and `IF` (R126, R127). -/
theorem deliver_keeps (v : Byte) (s : State) :
    (s.deliver v).con = s.con ∧ (s.deliver v).mem = s.mem ∧ (s.deliver v).picM = s.picM ∧
      (s.deliver v).picS = s.picS ∧ (s.deliver v).idtr = s.idtr ∧ (s.deliver v).idtBuilt = s.idtBuilt ∧
      (s.deliver v).trace = s.trace ∧ (s.deliver v).ptrace = s.ptrace ∧ (s.deliver v).refused = s.refused ∧
      (s.deliver v).cfg = s.cfg ∧ (s.deliver v).sched = s.sched ∧ (s.deliver v).main = s.main := by
  rcases deliver_cases v s with ⟨f, h, _⟩ | ⟨h, p, b, -, -, -, h4⟩
  · rw [h]; simp
  · rw [h4]; simp

theorem deliver_contexts (v : Byte) (s : State) :
    ((s.deliver v).irqs = s.irqs ∧ (s.deliver v).IF = s.IF) ∨
      (∃ h p, handlerAt s.cfg h = some p ∧ s.irqs.length < s.cfg.maxNest ∧
        (s.deliver v).irqs = { vector := v, phase := .body, savedIF := s.IF, frame := Frame.start p } :: s.irqs ∧
        ((s.deliver v).IF = false ∨ (s.deliver v).IF = s.IF)) := by
  rcases deliver_cases v s with ⟨f, h, _⟩ | ⟨h, p, b, h1, h2, h3, h4⟩
  · rw [h]; simp
  · rw [h4]; exact .inr ⟨h, p, h1, h2, rfl, h3⟩

/-- A hardware delivery does nothing, records a fault and changes nothing else, or acknowledges the request and
delivers its vector (R126, R131). -/
theorem hardwareDelivery_cases (s : State) :
    s.hardwareDelivery = s ∨ s.hardwareDelivery = s.raise .remapInterrupted ∨
      s.hardwareDelivery = s.raise (.picUnconfigured .delivery) ∨
      (∃ c n, s.IF = true ∧ s.remapInProgress = false ∧ s.request = some (c, n) ∧
        s.hardwareDelivery = (s.acknowledge c n).deliver (s.lineVector c n)) := by
  unfold State.hardwareDelivery
  split
  · exact .inl rfl
  · next he =>
    split
    · exact .inr (.inl rfl)
    · next hr =>
      split
      · exact .inr (.inr (.inl rfl))
      · split
        · exact .inl rfl
        · next c n hq =>
          refine .inr (.inr (.inr ⟨c, n, ?_, by simpa using hr, hq, rfl⟩))
          simp only [State.deliveryEnabled, Bool.not_eq_true', Bool.not_eq_false, Bool.and_eq_true] at he
          exact he.1.2

/-- Some flow is inside PICREMAP, or none is. -/
theorem remapInProgress_iff (s : State) :
    s.remapInProgress = true ↔ ∃ f ∈ s.frames, f.inOp = some .picremap := by
  simp [State.remapInProgress]

/-- The return with a context to pop (R129). -/
theorem interruptReturn_cons (s : State) (k : IrqContext) (rest : List IrqContext) (h : s.irqs = k :: rest) :
    s.interruptReturn = { s with IF := k.savedIF, ptrace := s.ptrace ++ [.iret k.savedIF], irqs := rest } := by
  simp [State.interruptReturn, h]

/-- A phase change puts the top context at the start of a command (R128). -/
theorem setPhase_cons (ph : Phase) (s : State) (k : IrqContext) (rest : List IrqContext) (h : s.irqs = k :: rest) :
    s.setPhase ph = { s with irqs := { k with phase := ph, frame := k.frame.atCommand k.frame.pc } :: rest } := by
  simp [State.setPhase, h]

end Sys2Proof.Machine
end

