-- ==== Sys2Proof/Laws/Step.lean ====
section
/-!
SUPPORT. What one step can do, once: each agent's move, and each command's micro-steps.
-/

namespace Sys2Proof.Machine

/-! ### A step -/

/-- A step answers a next state only where nothing has stopped the machine (R40, R120); it marks a bad
configuration, or is one agent's move. -/
theorem step_cases {s t : State} (h : step s = .next t) :
    s.fault = none ∧ s.refused = none ∧
      ((configOk s.cfg = false ∧ t = s.refuse .badConfig) ∨
        (configOk s.cfg = true ∧ s.popChoice.move s.nextChoice = .next t)) := by
  unfold step at h
  split at h
  · simp at h
  · next hf =>
    split at h
    · simp at h
    · next hr =>
      split at h
      · next hc => exact ⟨hf, hr, .inr ⟨hc, h⟩⟩
      · next hc =>
        simp only [Host.Outcome.next.injEq] at h
        exact ⟨hf, hr, .inl ⟨by simpa using hc, h.symm⟩⟩

/-- The step of a machine that can move. -/
theorem step_of_canMove {s : State} (h : s.canMove) : step s = s.popChoice.move s.nextChoice := by
  obtain ⟨hf, hr, hc⟩ := h
  simp [step, hf, hr, hc]

/-- A move is the running context's, a hardware delivery, or a raised line. -/
theorem move_cases {c : Choice} {s t : State} (h : s.move c = .next t) :
    (c.isRun = true ∧ s.runTop = .next t) ∨ (c = .deliver ∧ t = s.hardwareDelivery) ∨
      (∃ k n, c = .raiseLine k n ∧ t = s.raiseIrq k n) := by
  cases c with
  | run k => exact .inl ⟨rfl, h⟩
  | deliver => exact .inr (.inl ⟨rfl, (Host.Outcome.next.inj h).symm⟩)
  | raiseLine k n => exact .inr (.inr ⟨k, n, rfl, (Host.Outcome.next.inj h).symm⟩)

theorem move_of_isRun {c : Choice} (s : State) (h : c.isRun = true) : s.move c = s.runTop := by
  cases c <;> first | rfl | simp [Choice.isRun] at h

/-- The running context is in a program exactly when it has no interrupt context on top, or one in its body. -/
theorem inProgram_cons {s : State} {k : IrqContext} {rest : List IrqContext} (h : s.irqs = k :: rest) :
    s.inProgram ↔ k.phase = .body := by
  simp [State.inProgram, h]

theorem inProgram_nil {s : State} (h : s.irqs = []) : s.inProgram := by simp [State.inProgram, h]

/-- In a program with a word at `pc`, the running context runs the word. -/
theorem runTop_of_fetch {s : State} {w : CmdWord} (hp : s.inProgram) (hf : s.top.fetch = some w) :
    s.runTop = s.runWord w := by
  unfold State.runTop
  cases hi : s.irqs with
  | nil => rw [State.top_nil s hi] at hf; simp [hf]
  | cons k rest =>
    rw [State.top_cons s k rest hi] at hf
    simp [(inProgram_cons hi).1 hp, hf]

/-- What the running context's move does (R27, R81, R128, R144). -/
theorem runTop_cases {s t : State} (h : s.runTop = .next t) :
    (s.irqs = [] ∧ s.main.fetch = none ∧ t = s) ∨
      (∃ w e, s.inProgram ∧ s.top.fetch = some w ∧ decode w = .error e ∧ t = s.refuse .illegalCommand) ∨
      (∃ w i, s.inProgram ∧ s.top.fetch = some w ∧ decode w = .ok i ∧ exec i s = .next t) ∨
      (∃ k rest, s.irqs = k :: rest ∧ k.phase = .body ∧ k.frame.fetch = none ∧ t = s.setPhase .eoi) ∨
      (∃ k rest, s.irqs = k :: rest ∧ k.phase = .eoi ∧ t = s.trampolineEoi) ∨
      (∃ k rest, s.irqs = k :: rest ∧ k.phase = .ret ∧ t = s.interruptReturn) := by
  have hw : ∀ w, s.inProgram → s.top.fetch = some w → s.runWord w = .next t →
      (∃ w e, s.inProgram ∧ s.top.fetch = some w ∧ decode w = .error e ∧ t = s.refuse .illegalCommand) ∨
      (∃ w i, s.inProgram ∧ s.top.fetch = some w ∧ decode w = .ok i ∧ exec i s = .next t) := by
    intro w hp hf hr
    unfold State.runWord at hr
    split at hr
    · next e he => exact .inl ⟨w, e, hp, hf, he, (Host.Outcome.next.inj hr).symm⟩
    · next i hi => exact .inr ⟨w, i, hp, hf, hi, hr⟩
  unfold State.runTop at h
  split at h
  · next hi =>
    split at h
    · next hf => exact .inl ⟨hi, hf, (Host.Outcome.next.inj h).symm⟩
    · next w hf =>
      rcases hw w (inProgram_nil hi) (by rw [State.top_nil s hi]; exact hf) h with h | h
      · exact .inr (.inl h)
      · exact .inr (.inr (.inl h))
  · next k rest hi =>
    split at h
    · next hb =>
      split at h
      · next hf => exact .inr (.inr (.inr (.inl ⟨k, rest, hi, hb, hf, (Host.Outcome.next.inj h).symm⟩)))
      · next w hf =>
        rcases hw w ((inProgram_cons hi).2 hb) (by rw [State.top_cons s k rest hi]; exact hf) h with h | h
        · exact .inr (.inl h)
        · exact .inr (.inr (.inl h))
    · next hb => exact .inr (.inr (.inr (.inr (.inl ⟨k, rest, hi, hb, (Host.Outcome.next.inj h).symm⟩))))
    · next hb => exact .inr (.inr (.inr (.inr (.inr ⟨k, rest, hi, hb, (Host.Outcome.next.inj h).symm⟩))))

/-! ### Commands -/

/-- A pick names an element of its list. -/
theorem pickFrom_mem {l : List Micro} {n : Nat} {x : Micro} (h : pickFrom l n = some x) : x ∈ l := by
  unfold pickFrom at h
  exact List.mem_of_getElem? h

/-- Each of the admitted micro-steps is the one some `pick` chooses. -/
theorem exists_pickFrom {l : List Micro} {x : Micro} (h : x ∈ l) : ∃ n, pickFrom l n = some x := by
  obtain ⟨n, hn, rfl⟩ := List.mem_iff_getElem.1 h
  exact ⟨n, by simp [pickFrom, Nat.mod_eq_of_lt hn, List.getElem?_eq_getElem hn]⟩

/-- Where a micro-step is admitted, every `pick` chooses one. -/
theorem pickFrom_of_mem {l : List Micro} {x : Micro} (h : x ∈ l) (n : Nat) : ∃ y ∈ l, pickFrom l n = some y := by
  have hl : n % l.length < l.length := Nat.mod_lt _ (List.length_pos_of_mem h)
  exact ⟨_, List.getElem_mem hl, by simp [pickFrom, List.getElem?_eq_getElem hl]⟩

/-- A read of an interleaved PUTCHAR takes its register, or records CONSOLE_NOT_READY and changes nothing else
(R23, R43, R95). -/
theorem cursorRead_cases (m : Micro) (s : State) :
    (s.con.readable m = true ∧
        s.cursorRead m = (s.setTop (s.top.takeRead s.con m)).microDoneOf .putchar m) ∨
      (s.con.readable m = false ∧ s.cursorRead m = s.raise (.consoleNotReady .putchar)) := by
  unfold State.cursorRead
  cases s.con.readable m <;> simp

/-- A Console command's start records CONSOLE_RACE and changes nothing else, or goes on (R90). -/
theorem startConsole_cases (k : Kind) (f : State → State) (s : State) :
    (∃ k', s.cfg.raceModel = .fault ∧ s.preemptedConsole = some k' ∧
        s.startConsole k f = s.raise (.consoleRace k' k)) ∨
      ((s.cfg.raceModel = .fault → s.preemptedConsole = none) ∧ s.startConsole k f = f s) := by
  unfold State.startConsole State.raceFault
  cases hr : s.cfg.raceModel <;> cases hp : s.preemptedConsole <;> simp

/-- The start of SETCOLOR and PUTCHAR records CONSOLE_RACE or CONSOLE_NOT_READY and changes nothing else, or
goes on (R92, R93). -/
theorem startReady_cases (k : Kind) (f : State → State) (s : State) :
    (∃ k', s.cfg.raceModel = .fault ∧ s.preemptedConsole = some k' ∧
        s.startReady k f = s.raise (.consoleRace k' k)) ∨
      ((s.cfg.raceModel = .fault → s.preemptedConsole = none) ∧ s.con.ready = false ∧
        s.startReady k f = s.raise (.consoleNotReady k)) ∨
      ((s.cfg.raceModel = .fault → s.preemptedConsole = none) ∧ s.con.ready = true ∧
        s.startReady k f = f s) := by
  unfold State.startReady
  rcases startConsole_cases k (fun s => if s.con.ready then f s else s.raise (.consoleNotReady k)) s with
    ⟨k', h1, h2, h3⟩ | ⟨h1, h2⟩
  · exact .inl ⟨k', h1, h2, h3⟩
  · refine .inr ?_
    rw [h2]
    cases hr : s.con.ready
    · exact .inl ⟨h1, rfl, by simp⟩
    · exact .inr ⟨h1, rfl, by simp⟩

/-- No preempted Console command is seen exactly when no context below is inside one (R90). -/
theorem preemptedConsole_eq_none_iff (s : State) : s.preemptedConsole = none ↔ noConsoleBelow s := by
  simp only [State.preemptedConsole, noConsoleBelow, List.findSome?_eq_none_iff]
  constructor
  · intro h f hf k hk
    have := h f hf
    rw [hk] at this
    simpa [Option.filter] using this
  · intro h f hf
    cases hk : f.inOp with
    | none => rfl
    | some k => simp [Option.filter, h f hf k hk]

/-- The Console command that a race names is one a context below is inside. -/
theorem preemptedConsole_some {s : State} {k : Kind} (h : s.preemptedConsole = some k) :
    ∃ f ∈ s.below, f.inOp = some k ∧ k.isConsole = true := by
  simp only [State.preemptedConsole] at h
  obtain ⟨f, hf, hk⟩ := List.exists_of_findSome?_eq_some h
  refine ⟨f, hf, ?_⟩
  cases hi : f.inOp with
  | none => rw [hi] at hk; simp at hk
  | some k' =>
    rw [hi] at hk
    simp only [Option.filter] at hk
    split at hk
    · next hc => simp only [Option.some.injEq] at hk; subst hk; exact ⟨rfl, hc⟩
    · simp at hk

/-- The first half of the EOI pair records PIC_UNCONFIGURED and changes nothing else, or is a write; the second
half is a write (R111). -/
theorem eoiMicro_cases (finish : State → State) (s : State) :
    (s.top.mu = 0 ∧ s.picsConfigured = false ∧ s.eoiMicro finish = s.raise (.picUnconfigured .piceoi)) ∨
      (s.top.mu = 0 ∧ s.picsConfigured = true ∧ s.eoiMicro finish =
        (s.portWrite (commandPort (eoiFirst s.cfg)) eoiByte).andThen (State.microDone .piceoi)) ∨
      (s.top.mu ≠ 0 ∧ s.eoiMicro finish =
        (s.portWrite (commandPort (eoiSecond s.cfg)) eoiByte).andThen finish) := by
  unfold State.eoiMicro
  cases hm : s.top.mu with
  | zero => cases hc : s.picsConfigured <;> simp
  | succ n => simp

/-- Going on either stays, stopped, or takes the next part. -/
theorem andThen_cases (s : State) (f : State → State) :
    (s.stopped = true ∧ s.andThen f = s) ∨ (s.stopped = false ∧ s.andThen f = f s) := by
  cases h : s.stopped <;> simp [State.andThen, h]

/-- Every command answers a next state: a stop is recorded in it (R120). -/
theorem exec_next (i : Instr) (s : State) : ∃ t, exec i s = .next t := by
  cases i <;> exact ⟨_, rfl⟩

end Sys2Proof.Machine
end

