-- ==== Sys2Proof/Laws/Commands.lean ====
section
/-!
SUPPORT. What each command and each step does to the contexts, to memory, to the table register and to the
controllers, once for all: the lemmas the invariants over every step are proved from.
-/

namespace Sys2Proof.Machine

/-- `t` is `s` with the top flow replaced by `f`, as far as the contexts, the configuration and the schedule
go. -/
def withTopFlow (f : Frame) (s t : State) : Prop :=
  contextsWithTop f s t ∧ t.cfg = s.cfg ∧ t.sched = s.sched

theorem withTopFlow_self {s t : State} (hm : t.main = s.main) (hi : t.irqs = s.irqs) (hc : t.cfg = s.cfg)
    (hs : t.sched = s.sched) : withTopFlow s.top s t := by
  refine ⟨⟨?_, ?_⟩, hc, hs⟩
  · cases h : s.irqs with
    | nil => simp [State.setTop, h, hm, State.top]
    | cons k rest => simp [State.setTop, h, hm]
  · cases h : s.irqs with
    | nil => simp [State.setTop, h, hi]
    | cons k rest => simp [State.setTop, h, hi, State.top]

theorem withTopFlow_setTop {s u : State} (f : Frame) (hm : u.main = s.main) (hi : u.irqs = s.irqs)
    (hc : u.cfg = s.cfg) (hs : u.sched = s.sched) : withTopFlow f s (u.setTop f) :=
  ⟨State.setTop_congr f hm hi, hc, hs⟩

/-- The top flow of such a state. -/
theorem withTopFlow_top {f : Frame} {s t : State} (h : withTopFlow f s t) : t.top = f := by
  obtain ⟨⟨hm, hi⟩, -, -⟩ := h
  rw [State.top_congr hm hi, State.setTop_top]

theorem withTopFlow_below {f : Frame} {s t : State} (h : withTopFlow f s t) : t.below = s.below := by
  obtain ⟨⟨hm, hi⟩, -, -⟩ := h
  rw [State.below_congr hm hi, State.setTop_below]

theorem withTopFlow_frames {f : Frame} {s t : State} (h : withTopFlow f s t) : t.frames = f :: s.below := by
  rw [State.frames_eq, withTopFlow_top h, withTopFlow_below h]

/-- The flow a micro-step of a command of kind `k` leaves: as it was, where the step stopped the machine; one
micro-step further, inside the command; or at the next command. -/
def flowAfter (k : Kind) (f g : Frame) : Prop :=
  g = f ∨ (g.prog = f.prog ∧ g.pc = f.pc ∧ g.mu = f.mu + 1 ∧ g.inOp = some k) ∨ g = f.commandDone

theorem flowAfter_microDone (k : Kind) (f : Frame) : flowAfter k f (f.microDone k) :=
  .inr (.inl ⟨rfl, rfl, rfl, rfl⟩)

/-- Recording a stop leaves the flow as it was. -/
theorem command_raise (k : Kind) (e : Fault) (s : State) :
    ∃ g, flowAfter k s.top g ∧ withTopFlow g s (s.raise e) :=
  ⟨_, .inl rfl, withTopFlow_self rfl rfl rfl rfl⟩

theorem command_microDone (k : Kind) {s u : State} (hm : u.main = s.main) (hi : u.irqs = s.irqs)
    (hc : u.cfg = s.cfg) (hs : u.sched = s.sched) : ∃ g, flowAfter k s.top g ∧ withTopFlow g s (u.microDone k) := by
  refine ⟨s.top.microDone k, flowAfter_microDone k _, ?_⟩
  rw [State.microDone_eq, State.top_congr hm hi]
  exact withTopFlow_setTop _ hm hi hc hs

theorem command_microDoneOf (k : Kind) (m : Micro) {s u : State} (hm : u.main = s.main) (hi : u.irqs = s.irqs)
    (hc : u.cfg = s.cfg) (hs : u.sched = s.sched) : ∃ g, flowAfter k s.top g ∧ withTopFlow g s (u.microDoneOf k m) := by
  refine ⟨{ s.top.microDone k with done := m :: s.top.done }, .inr (.inl ⟨rfl, rfl, rfl, rfl⟩), ?_⟩
  rw [State.microDoneOf_eq, State.top_congr hm hi]
  exact withTopFlow_setTop _ hm hi hc hs

theorem command_done (k : Kind) {s u : State} (hm : u.main = s.main) (hi : u.irqs = s.irqs)
    (hc : u.cfg = s.cfg) (hs : u.sched = s.sched) : ∃ g, flowAfter k s.top g ∧ withTopFlow g s u.commandDone := by
  refine ⟨s.top.commandDone, .inr (.inr rfl), ?_⟩
  rw [State.commandDone_eq, State.top_congr hm hi]
  exact withTopFlow_setTop _ hm hi hc hs

/-- A register store of CINIT under `interleave` leaves the contexts (R95). -/
theorem initStore_contexts (m : Micro) (s : State) : (s.initStore m).main = s.main ∧
    (s.initStore m).irqs = s.irqs ∧ (s.initStore m).cfg = s.cfg ∧ (s.initStore m).sched = s.sched := by
  cases m <;> exact ⟨rfl, rfl, rfl, rfl⟩

/-- A cursor store of PUTCHAR under `interleave` leaves the contexts (R95). -/
theorem cursorStore_contexts (m : Micro) (s : State) : (s.cursorStore m).main = s.main ∧
    (s.cursorStore m).irqs = s.irqs ∧ (s.cursorStore m).cfg = s.cfg ∧ (s.cursorStore m).sched = s.sched := by
  cases m <;> unfold State.cursorStore <;> dsimp only <;> (repeat' split) <;> exact ⟨rfl, rfl, rfl, rfl⟩

theorem command_initCell (i : Nat) (s : State) : ∃ g, flowAfter .cinit s.top g ∧ withTopFlow g s (s.initCell i) := by
  unfold State.initCell
  split
  · exact command_microDone _ rfl rfl rfl rfl
  · split <;> exact command_done _ rfl rfl rfl rfl

/-- IDTREG's critical section changes memory and the privileged-operation trace only (R98). -/
theorem critical_writeDescriptor_eq (d : Nat) (h : Addr) (ty : Byte) (s : State) :
    s.critical (State.writeDescriptor d h ty) = { s with
      mem := (s.writeDescriptor d h ty).mem
      ptrace := s.ptrace ++ [.irqOff, .irqRestore s.IF] } := by
  simp [State.critical, State.writeDescriptor, State.memWrite, State.setIF, State.logEvent]

/-- What one micro-step of a command does to the contexts: SWINT moves past itself and delivers its vector; every
other command leaves all but the top flow, which it leaves as `flowAfter` says. -/
theorem exec_contexts {i : Instr} {s t : State} (h : exec i s = .next t) :
    (∃ g, flowAfter i.kind s.top g ∧ withTopFlow g s t) ∨
      (∃ v, i = .swint v ∧ t = ((s.logEvent (.int v)).commandDone).deliver v) := by
  cases i with
  | cinit =>
    refine .inl ?_
    simp only [exec, execCinit, Host.Outcome.next.injEq] at h
    subst h
    cases s.cfg.raceModel with
    | fault =>
      simp only [State.cinitMicro]
      split
      · rcases startConsole_cases .cinit
          (fun s => { s with con := initialConsole s.cfg }.microDone .cinit) s with ⟨k, -, -, h⟩ | ⟨-, h⟩
        · rw [h]; exact command_raise _ _ _
        · rw [h]; exact command_microDone _ rfl rfl rfl rfl
      · exact command_initCell _ _
    | interleave =>
      simp only [State.cinitInterleaved]
      split
      · split
        · next m _ =>
          obtain ⟨h1, h2, h3, h4⟩ := initStore_contexts m s
          exact command_microDoneOf _ _ h1 h2 h3 h4
        · exact command_microDone _ rfl rfl rfl rfl
      · exact command_initCell _ _
  | setcolor a =>
    refine .inl ?_
    simp only [exec, execSetcolor, Host.Outcome.next.injEq] at h
    subst h
    rcases startReady_cases .setcolor (fun s => { s with con := s.con.setAttr a }.commandDone) s with
      ⟨k, -, -, h⟩ | ⟨-, -, h⟩ | ⟨-, -, h⟩ <;> rw [h]
    · exact command_raise _ _ _
    · exact command_raise _ _ _
    · exact command_done _ rfl rfl rfl rfl
  | putchar ch =>
    refine .inl ?_
    simp only [exec, execPutchar, Host.Outcome.next.injEq] at h
    subst h
    have hread : ∀ (k : Kind) (f : Frame), f.prog = s.top.prog → f.pc = s.top.pc → f.mu = s.top.mu →
        ∃ g, flowAfter k s.top g ∧ withTopFlow g s ((s.setTop f).microDone k) := by
      intro k f h1 h2 h3
      refine ⟨f.microDone k, .inr (.inl ⟨h1, h2, ?_, rfl⟩), ?_⟩
      · simp [h3]
      · rw [State.microDone_eq, State.setTop_top, State.setTop_setTop]
        exact withTopFlow_setTop _ rfl rfl rfl rfl
    have hreadOf : ∀ (k : Kind) (m : Micro) (f : Frame), f.prog = s.top.prog → f.pc = s.top.pc → f.mu = s.top.mu →
        ∃ g, flowAfter k s.top g ∧ withTopFlow g s ((s.setTop f).microDoneOf k m) := by
      intro k m f h1 h2 h3
      refine ⟨{ f.microDone k with done := m :: f.done }, .inr (.inl ⟨h1, h2, ?_, rfl⟩), ?_⟩
      · simp [h3]
      · rw [State.microDoneOf_eq, State.setTop_top, State.setTop_setTop]
        exact withTopFlow_setTop _ rfl rfl rfl rfl
    cases s.cfg.raceModel with
    | fault =>
      simp only [State.putcharMicro]
      split
      · rcases startReady_cases .putchar (fun s => s.readCursor.microDone .putchar) s with
          ⟨k, -, -, h⟩ | ⟨-, -, h⟩ | ⟨-, -, h⟩ <;> rw [h]
        · exact command_raise _ _ _
        · exact command_raise _ _ _
        · exact hread _ _ rfl rfl rfl
      · exact command_microDone _ rfl rfl rfl rfl
      · exact command_done _ rfl rfl rfl rfl
    | interleave =>
      simp only [State.putcharInterleaved]
      split
      · split
        · next m _ =>
          rcases cursorRead_cases m s with ⟨-, h⟩ | ⟨-, h⟩ <;> rw [h]
          · exact hreadOf _ _ _ (by simp) (by simp) (by simp)
          · exact command_raise _ _ _
        · exact command_microDone _ rfl rfl rfl rfl
      · split
        · simp only [State.checkedGlyph]
          split
          · exact command_raise _ _ _
          · exact command_microDone _ rfl rfl rfl rfl
        · simp only [State.cursorStoreMicro]
          split
          · next m _ =>
            obtain ⟨h1, h2, h3, h4⟩ := cursorStore_contexts m s
            split
            · exact command_microDoneOf _ _ h1 h2 h3 h4
            · exact command_done _ h1 h2 h3 h4
          · exact command_done _ rfl rfl rfl rfl
  | idtbuild =>
    refine .inl ?_
    simp only [exec, execIdtbuild, Host.Outcome.next.injEq] at h
    subst h
    split
    · exact command_raise _ _ _
    · exact command_done _ (by simp) (by simp) (by simp) (by simp)
  | idtreg v hh ty =>
    refine .inl ?_
    simp only [exec, execIdtreg, critical_writeDescriptor_eq, Host.Outcome.next.injEq] at h
    subst h
    split
    · exact command_raise _ _ _
    · exact command_done _ rfl rfl rfl rfl
  | picremap mb sb =>
    refine .inl ?_
    simp only [exec, execPicremap, Host.Outcome.next.injEq] at h
    subst h
    split
    · exact command_done _ rfl rfl rfl rfl
    · next w _ =>
      rcases andThen_cases (s.portWrite w.1 w.2) (if s.top.mu + 1 < (remapSequence s.cfg mb sb).length then
          State.microDone .picremap else State.commandDone) with ⟨-, h⟩ | ⟨-, h⟩ <;> rw [h]
      · exact ⟨_, .inl rfl, withTopFlow_self (by simp) (by simp) (by simp) (by simp)⟩
      · split
        · exact command_microDone _ (by simp) (by simp) (by simp) (by simp)
        · exact command_done _ (by simp) (by simp) (by simp) (by simp)
  | piceoi =>
    refine .inl ?_
    simp only [exec, execPiceoi, Host.Outcome.next.injEq] at h
    subst h
    rcases eoiMicro_cases State.commandDone s with ⟨-, -, h⟩ | ⟨-, -, h⟩ | ⟨-, h⟩ <;> rw [h]
    · exact command_raise _ _ _
    · rcases andThen_cases (s.portWrite (commandPort (eoiFirst s.cfg)) eoiByte) (State.microDone .piceoi) with
        ⟨-, h⟩ | ⟨-, h⟩ <;> rw [h]
      · exact ⟨_, .inl rfl, withTopFlow_self (by simp) (by simp) (by simp) (by simp)⟩
      · exact command_microDone _ (by simp) (by simp) (by simp) (by simp)
    · rcases andThen_cases (s.portWrite (commandPort (eoiSecond s.cfg)) eoiByte) State.commandDone with
        ⟨-, h⟩ | ⟨-, h⟩ <;> rw [h]
      · exact ⟨_, .inl rfl, withTopFlow_self (by simp) (by simp) (by simp) (by simp)⟩
      · exact command_done _ (by simp) (by simp) (by simp) (by simp)
  | cli =>
    refine .inl ?_
    simp only [exec, execCli, Host.Outcome.next.injEq] at h
    subst h
    exact command_done _ rfl rfl rfl rfl
  | sti =>
    refine .inl ?_
    simp only [exec, execSti, Host.Outcome.next.injEq] at h
    subst h
    exact command_done _ rfl rfl rfl rfl
  | swint v =>
    simp only [exec, execSwint, Host.Outcome.next.injEq] at h
    exact .inr ⟨v, rfl, h.symm⟩

/-- The state a SWINT is delivered from: past the command, the software interrupt recorded (R118). -/
theorem swint_before (v : Byte) (s : State) :
    withTopFlow s.top.commandDone s ((s.logEvent (.int v)).commandDone) :=
  withTopFlow_setTop _ rfl rfl rfl rfl

/-! ### Memory, the table register and the controllers -/

/-- What IDTREG writes leaves every byte outside its descriptor (R98). -/
theorem byteAt_writeDescriptor_outside (s : State) (d : Nat) (h : Addr) (t : Byte) (a : Nat) (ha : a < d ∨ d + 8 ≤ a) :
    (s.writeDescriptor d h t).mem.byteAt a = s.mem.byteAt a := by
  simp only [State.writeDescriptor, State.memWrite_mem]
  rw [byteAt_store_outside, byteAt_store_outside, byteAt_store_outside, byteAt_store_outside,
    byteAt_store_outside] <;> simp <;> omega

theorem initCell_mem (s : State) (i : Nat) : (s.initCell i).mem = s.mem ∨
    ∃ j v, j < CELLS ∧ (s.initCell i).mem = s.mem.store (cellAddrOf s.cfg j) (leBytes 2 v) := by
  unfold State.initCell
  split
  · exact .inr ⟨i, _, by omega, rfl⟩
  · split
    · next h => exact .inr ⟨i, _, h, rfl⟩
    · exact .inl rfl

/-- What a micro-step of a command does to memory: nothing, a cell of CINIT or PUTCHAR, the zeroed table of IDTBUILD,
or the descriptor of IDTREG. The flow's locals are as the invariant of the cursor says (R24, R48). -/
theorem exec_memory {i : Instr} {s t : State} (hl : s.top.localsOk s.cfg) (h : exec i s = .next t) :
    t.mem = s.mem ∨
      ((i.kind = .cinit ∨ i.kind = .putchar) ∧
        ∃ j v, j < CELLS ∧ t.mem = s.mem.store (cellAddrOf s.cfg j) (leBytes 2 v)) ∨
      (i.kind = .idtbuild ∧ t.mem = s.zeroTable.mem) ∨
      (∃ v hh ty, i = .idtreg v hh ty ∧ t.mem = (s.writeDescriptor (descAddr s.cfg v) hh ty).mem) := by
  cases i with
  | cinit =>
    simp only [exec, execCinit, Host.Outcome.next.injEq] at h
    have hm : t.mem = s.mem ∨ ∃ j v, j < CELLS ∧ t.mem = s.mem.store (cellAddrOf s.cfg j) (leBytes 2 v) := by
      subst h
      cases s.cfg.raceModel
      · simp only [State.cinitMicro]
        split
        · left
          simp only [State.startConsole]
          split <;> rfl
        · exact initCell_mem _ _
      · simp only [State.cinitInterleaved]
        split
        · left
          split
          · next m _ => cases m <;> rfl
          · rfl
        · exact initCell_mem _ _
    rcases hm with h | h
    · exact .inl h
    · exact .inr (.inl ⟨.inl rfl, h⟩)
  | setcolor a =>
    left
    simp only [exec, execSetcolor, Host.Outcome.next.injEq] at h
    subst h
    simp only [State.startReady, State.startConsole]
    (repeat' split) <;> rfl
  | putchar ch =>
    simp only [exec, execPutchar, Host.Outcome.next.injEq] at h
    have hg : ∀ r c, r < ROWS → c < COLS → ∃ j, j < CELLS ∧ cellAddr s.cfg r c = cellAddrOf s.cfg j :=
      fun r c h1 h2 => ⟨cellIdx r c, by simp only [cellIdx, COLS, ROWS, CELLS] at *; omega, rfl⟩
    subst h
    cases hm : s.cfg.raceModel with
    | fault =>
      simp only [State.putcharMicro]
      split
      · left
        simp only [State.startReady, State.startConsole]
        (repeat' split) <;> rfl
      · right; left
        obtain ⟨h1, h2⟩ := hl
        rw [hm] at h2
        obtain ⟨j, h3, h4⟩ := hg _ _ h1 (by simpa using h2)
        exact ⟨.inr rfl, j, _, h3, by rw [← h4]; rfl⟩
      · left; rfl
    | interleave =>
      simp only [State.putcharInterleaved]
      split
      · left
        split
        · next m _ => simp only [State.cursorRead]; split <;> rfl
        · rfl
      · split
        · simp only [State.checkedGlyph]
          split
          · left; rfl
          · next hn =>
            right; left
            obtain ⟨j, h3, h4⟩ := hg s.top.row s.top.col (by omega) (by omega)
            exact ⟨.inr rfl, j, _, h3, by rw [← h4]; rfl⟩
        · left
          simp only [State.cursorStoreMicro]
          split
          · next m _ => cases m <;> simp only [State.cursorStore] <;> (repeat' split) <;> rfl
          · rfl
  | idtbuild =>
    simp only [exec, execIdtbuild, Host.Outcome.next.injEq] at h
    subst h
    split
    · left; rfl
    · right; right; left; exact ⟨rfl, rfl⟩
  | idtreg v hh ty =>
    simp only [exec, execIdtreg, critical_writeDescriptor_eq, Host.Outcome.next.injEq] at h
    subst h
    split
    · left; rfl
    · right; right; right; exact ⟨v, hh, ty, rfl, rfl⟩
  | picremap mb sb =>
    left
    simp only [exec, execPicremap, Host.Outcome.next.injEq] at h
    subst h
    split
    · rfl
    · unfold State.andThen
      (repeat' split) <;> simp [State.microDone, State.commandDone, State.setTop]
  | piceoi =>
    left
    simp only [exec, execPiceoi, State.eoiMicro, Host.Outcome.next.injEq] at h
    subst h
    unfold State.andThen
    (repeat' split) <;> first | rfl | simp [State.microDone, State.commandDone, State.setTop]
  | cli => left; simp only [exec, execCli, Host.Outcome.next.injEq] at h; subst h; rfl
  | sti => left; simp only [exec, execSti, Host.Outcome.next.injEq] at h; subst h; rfl
  | swint v =>
    left
    simp only [exec, execSwint, Host.Outcome.next.injEq] at h
    subst h
    rw [(deliver_keeps v _).2.1]; rfl

/-- A read or a store of an interleaved PUTCHAR leaves the table register, its mark and the controllers. -/
theorem cursorRead_others (m : Micro) (s : State) : (s.cursorRead m).idtr = s.idtr ∧
    (s.cursorRead m).idtBuilt = s.idtBuilt ∧ (s.cursorRead m).picM = s.picM ∧ (s.cursorRead m).picS = s.picS := by
  unfold State.cursorRead
  split <;> exact ⟨rfl, rfl, rfl, rfl⟩

theorem cursorStore_others (m : Micro) (s : State) : (s.cursorStore m).idtr = s.idtr ∧
    (s.cursorStore m).idtBuilt = s.idtBuilt ∧ (s.cursorStore m).picM = s.picM ∧ (s.cursorStore m).picS = s.picS := by
  cases m <;> unfold State.cursorStore <;> dsimp only <;> (repeat' split) <;> exact ⟨rfl, rfl, rfl, rfl⟩

/-- Only IDTBUILD changes the table register and its mark, and only PICREMAP and PICEOI change the controllers. -/
theorem exec_others {i : Instr} {s t : State} (he : exec i s = .next t) :
    (i.kind ≠ .idtbuild → t.idtr = s.idtr ∧ t.idtBuilt = s.idtBuilt) ∧
      (i.kind ≠ .picremap → i.kind ≠ .piceoi → t.picM = s.picM ∧ t.picS = s.picS) := by
  suffices h : i.kind ≠ .picremap → i.kind ≠ .piceoi → i.kind ≠ .idtbuild →
      t.idtr = s.idtr ∧ t.idtBuilt = s.idtBuilt ∧ t.picM = s.picM ∧ t.picS = s.picS by
    cases i with
    | idtbuild =>
      refine ⟨fun h => absurd rfl h, fun _ _ => ?_⟩
      simp only [exec, execIdtbuild, Host.Outcome.next.injEq] at he
      subst he
      split <;> exact ⟨rfl, rfl⟩
    | picremap mb sb =>
      refine ⟨fun _ => ?_, fun h => absurd rfl h⟩
      simp only [exec, execPicremap, Host.Outcome.next.injEq] at he
      subst he
      split
      · exact ⟨rfl, rfl⟩
      · unfold State.andThen
        (repeat' split) <;> simp [State.microDone, State.commandDone, State.setTop]
    | piceoi =>
      refine ⟨fun _ => ?_, fun _ h => absurd rfl h⟩
      simp only [exec, execPiceoi, State.eoiMicro, Host.Outcome.next.injEq] at he
      subst he
      unfold State.andThen
      (repeat' split) <;> first | exact ⟨rfl, rfl⟩ | simp [State.microDone, State.commandDone, State.setTop]
    | cinit | setcolor _ | putchar _ | idtreg _ _ _ | cli | sti | swint _ =>
      obtain ⟨h1, h2, h3, h4⟩ := h (by simp [Instr.kind]) (by simp [Instr.kind]) (by simp [Instr.kind])
      exact ⟨fun _ => ⟨h1, h2⟩, fun _ _ => ⟨h3, h4⟩⟩
  intro n1 n2 n3
  cases i with
  | cinit =>
    simp only [exec, execCinit, Host.Outcome.next.injEq] at he
    subst he
    simp only [State.cinitMicro, State.cinitInterleaved, State.startConsole, State.initCell]
    (repeat' split) <;>
      first | exact ⟨rfl, rfl, rfl, rfl⟩ | (rename_i m _; cases m <;> exact ⟨rfl, rfl, rfl, rfl⟩)
  | setcolor a =>
    simp only [exec, execSetcolor, Host.Outcome.next.injEq] at he
    subst he
    simp only [State.startReady, State.startConsole]
    (repeat' split) <;> exact ⟨rfl, rfl, rfl, rfl⟩
  | putchar ch =>
    simp only [exec, execPutchar, Host.Outcome.next.injEq] at he
    subst he
    simp only [State.putcharMicro, State.putcharInterleaved, State.startReady, State.startConsole,
      State.checkedGlyph, State.cursorStoreMicro]
    (repeat' split) <;>
      first | exact cursorRead_others _ s | exact cursorStore_others _ s | exact ⟨rfl, rfl, rfl, rfl⟩
  | idtreg v hh ty =>
    simp only [exec, execIdtreg, critical_writeDescriptor_eq, Host.Outcome.next.injEq] at he
    subst he
    split <;> exact ⟨rfl, rfl, rfl, rfl⟩
  | cli => simp only [exec, execCli, Host.Outcome.next.injEq] at he; subst he; exact ⟨rfl, rfl, rfl, rfl⟩
  | sti => simp only [exec, execSti, Host.Outcome.next.injEq] at he; subst he; exact ⟨rfl, rfl, rfl, rfl⟩
  | swint v =>
    simp only [exec, execSwint, Host.Outcome.next.injEq] at he
    subst he
    obtain ⟨-, -, h3, h4, h5, h6, -⟩ := deliver_keeps v ((s.logEvent (.int v)).commandDone)
    rw [h3, h4, h5, h6]; exact ⟨rfl, rfl, rfl, rfl⟩
  | idtbuild => exact absurd rfl n3
  | picremap _ _ => exact absurd rfl n1
  | piceoi => exact absurd rfl n2

/-! ### Steps -/

/-- What the trampoline's `eoi` phase does to the contexts (R128). -/
theorem trampolineEoi_contexts {s : State} {k : IrqContext} {rest : List IrqContext} (hi : s.irqs = k :: rest) :
    s.trampolineEoi.main = s.main ∧ s.trampolineEoi.IF = s.IF ∧ s.trampolineEoi.cfg = s.cfg ∧
      s.trampolineEoi.mem = s.mem ∧ s.trampolineEoi.con = s.con ∧ s.trampolineEoi.idtr = s.idtr ∧
      s.trampolineEoi.idtBuilt = s.idtBuilt ∧
      (s.trampolineEoi.irqs = s.irqs ∨
        s.trampolineEoi.irqs = { k with frame := k.frame.microDone .piceoi } :: rest ∨
        s.trampolineEoi.irqs = { k with phase := .ret, frame := k.frame.atCommand k.frame.pc } :: rest) := by
  unfold State.trampolineEoi
  rcases eoiMicro_cases (State.setPhase .ret) s with ⟨-, -, h⟩ | ⟨-, -, h⟩ | ⟨-, h⟩ <;> rw [h]
  · simp
  · rcases andThen_cases (s.portWrite (commandPort (eoiFirst s.cfg)) eoiByte) (State.microDone .piceoi) with
      ⟨-, h⟩ | ⟨-, h⟩ <;> rw [h]
    · simp
    · simp [State.microDone, State.setTop, hi, State.top]
  · rcases andThen_cases (s.portWrite (commandPort (eoiSecond s.cfg)) eoiByte) (State.setPhase .ret) with
      ⟨-, h⟩ | ⟨-, h⟩ <;> rw [h]
    · simp
    · rw [setPhase_cons _ _ k rest (by simp [hi])]
      simp

/-- What a step does to the contexts: it leaves them; or the top context runs a micro-step of its command; or a
SWINT or a hardware delivery takes place; or the top context moves through its phases (R27, R28, R126, R128). -/
theorem step_contexts {s t : State} (h : step s = .next t) :
    t.cfg = s.cfg ∧
      ((t.main = s.main ∧ t.irqs = s.irqs ∧ t.IF = s.IF) ∨
      (∃ w i g, s.nextChoice.isRun = true ∧ s.inProgram ∧ s.top.fetch = some w ∧ decode w = .ok i ∧
        exec i s.popChoice = .next t ∧ flowAfter i.kind s.top g ∧ contextsWithTop g s t) ∨
      (∃ w v, s.nextChoice.isRun = true ∧ s.inProgram ∧ s.top.fetch = some w ∧ decode w = .ok (.swint v) ∧
        t = ((s.popChoice.logEvent (.int v)).commandDone).deliver v) ∨
      (∃ c n, s.IF = true ∧ s.remapInProgress = false ∧ s.request = some (c, n) ∧
        t = (s.popChoice.acknowledge c n).deliver (s.lineVector c n)) ∨
      (∃ k rest, s.irqs = k :: rest ∧ k.phase = .body ∧ k.frame.fetch = none ∧ t = s.popChoice.setPhase .eoi) ∨
      (∃ k rest, s.irqs = k :: rest ∧ k.phase = .eoi ∧ t = s.popChoice.trampolineEoi) ∨
      (∃ k rest, s.irqs = k :: rest ∧ k.phase = .ret ∧ t = s.popChoice.interruptReturn)) := by
  obtain ⟨-, -, h⟩ := step_cases h
  rcases h with ⟨-, rfl⟩ | ⟨-, h⟩
  · exact ⟨rfl, .inl ⟨rfl, rfl, rfl⟩⟩
  rcases move_cases h with ⟨hr, h⟩ | ⟨-, rfl⟩ | ⟨k, n, -, rfl⟩
  · rcases runTop_cases h with ⟨_, _, rfl⟩ | ⟨w, e, hp, hf, hd, rfl⟩ | ⟨w, i, hp, hf, hd, he⟩ |
      ⟨k, rest, h1, h2, h3, rfl⟩ | ⟨k, rest, h1, h2, rfl⟩ | ⟨k, rest, h1, h2, rfl⟩
    · exact ⟨rfl, .inl ⟨rfl, rfl, rfl⟩⟩
    · exact ⟨rfl, .inl ⟨rfl, rfl, rfl⟩⟩
    · rcases exec_contexts he with ⟨g, hg, hw⟩ | ⟨v, rfl, rfl⟩
      · exact ⟨hw.2.1, .inr (.inl ⟨w, i, g, hr, hp, hf, hd, he, hg, hw.1⟩)⟩
      · refine ⟨?_, .inr (.inr (.inl ⟨w, v, hr, hp, hf, hd, rfl⟩))⟩
        rw [(deliver_keeps v _).2.2.2.2.2.2.2.2.2.1]; rfl
    · refine ⟨?_, .inr (.inr (.inr (.inr (.inl ⟨k, rest, h1, h2, h3, rfl⟩))))⟩
      rw [setPhase_cons _ _ _ _ h1]; rfl
    · refine ⟨?_, .inr (.inr (.inr (.inr (.inr (.inl ⟨k, rest, h1, h2, rfl⟩)))))⟩
      rw [(trampolineEoi_contexts h1).2.2.1]; rfl
    · refine ⟨?_, .inr (.inr (.inr (.inr (.inr (.inr ⟨k, rest, h1, h2, rfl⟩)))))⟩
      rw [interruptReturn_cons _ _ _ h1]; rfl
  · rcases hardwareDelivery_cases s.popChoice with h | h | h | ⟨c, n, h1, h2, h3, h⟩ <;> rw [h]
    · exact ⟨rfl, .inl ⟨rfl, rfl, rfl⟩⟩
    · exact ⟨rfl, .inl ⟨rfl, rfl, rfl⟩⟩
    · exact ⟨rfl, .inl ⟨rfl, rfl, rfl⟩⟩
    · refine ⟨?_, .inr (.inr (.inr (.inl ⟨c, n, h1, h2, h3, rfl⟩)))⟩
      rw [(deliver_keeps _ _).2.2.2.2.2.2.2.2.2.1, acknowledge_eq]; rfl
  · rw [raiseIrq_eq]
    exact ⟨rfl, .inl ⟨rfl, rfl, rfl⟩⟩

/-- A step leaves memory, the Console registers, the table register and its mark, or it is a micro-step of a command
of the running context under an admitted configuration. -/
theorem step_data {s t : State} (hst : step s = .next t) :
    (t.mem = s.mem ∧ t.con = s.con ∧ t.idtr = s.idtr ∧ t.idtBuilt = s.idtBuilt) ∨
      (configOk s.cfg = true ∧ s.nextChoice.isRun = true ∧ ∃ w i, s.inProgram ∧ s.top.fetch = some w ∧
        decode w = .ok i ∧ exec i s.popChoice = .next t) := by
  obtain ⟨-, -, h⟩ := step_cases hst
  rcases h with ⟨-, rfl⟩ | ⟨hcok, h⟩
  · exact .inl ⟨rfl, rfl, rfl, rfl⟩
  rcases move_cases h with ⟨hr, h⟩ | ⟨-, rfl⟩ | ⟨k, n, -, rfl⟩
  · rcases runTop_cases h with ⟨_, _, rfl⟩ | ⟨w, e, hp, hf, hd, rfl⟩ | ⟨w, i, hp, hf, hd, he⟩ |
      ⟨k, rest, h1, h2, h3, rfl⟩ | ⟨k, rest, h1, h2, rfl⟩ | ⟨k, rest, h1, h2, rfl⟩
    · exact .inl ⟨rfl, rfl, rfl, rfl⟩
    · exact .inl ⟨rfl, rfl, rfl, rfl⟩
    · exact .inr ⟨hcok, hr, w, i, hp, hf, hd, he⟩
    · left; rw [setPhase_cons _ _ k rest h1]; exact ⟨rfl, rfl, rfl, rfl⟩
    · left
      obtain ⟨-, -, -, h4, h5, h6, h7, -⟩ := trampolineEoi_contexts h1
      rw [h4, h5, h6, h7]; exact ⟨rfl, rfl, rfl, rfl⟩
    · left; rw [interruptReturn_cons _ k rest h1]; exact ⟨rfl, rfl, rfl, rfl⟩
  · left
    rcases hardwareDelivery_cases s.popChoice with h | h | h | ⟨c, n, h1, h2, h3, h⟩ <;> rw [h]
    · exact ⟨rfl, rfl, rfl, rfl⟩
    · exact ⟨rfl, rfl, rfl, rfl⟩
    · exact ⟨rfl, rfl, rfl, rfl⟩
    · obtain ⟨e1, e2, -, -, e3, e4, -⟩ :=
        deliver_keeps (s.popChoice.lineVector c n) (s.popChoice.acknowledge c n)
      rw [e1, e2, e3, e4, acknowledge_eq]; exact ⟨rfl, rfl, rfl, rfl⟩
  · left; rw [raiseIrq_eq]; exact ⟨rfl, rfl, rfl, rfl⟩

/-- An admitted configuration's regions lie in the address space and share no byte (R10). -/
theorem configOk_regions {cfg : Config} (h : configOk cfg = true) :
    cfg.fbBase.toNat + FB_BYTES ≤ 2 ^ 32 ∧ cfg.idtBase.toNat + IDT_BYTES ≤ 2 ^ 32 ∧
      (cfg.fbBase.toNat + FB_BYTES ≤ cfg.idtBase.toNat ∨ cfg.idtBase.toNat + IDT_BYTES ≤ cfg.fbBase.toNat) := by
  simp only [configOk, configInSpace, configDisjoint, Region.disjoint, fbRegion, idtRegion, Bool.and_eq_true,
    decide_eq_true_eq, Bool.or_eq_true] at h
  obtain ⟨⟨⟨_, h1, h2⟩, h3, _⟩, _⟩ := h
  refine ⟨h1, h2, ?_⟩
  rcases h3 with h3 | h3
  · exact .inl (of_decide_eq_true h3)
  · exact .inr (of_decide_eq_true h3)

/-! ### The contexts below the top one -/

/-- Replacing the top flow leaves every interrupt context below it as it is. -/
theorem contextsWithTop_tail {f : Frame} {s t : State} (h : contextsWithTop f s t) : t.irqs.tail = s.irqs.tail := by
  rw [h.2]
  cases hi : s.irqs <;> simp [State.setTop, hi]

/-! ### The unordered micro-steps of R95 -/

theorem initLeft_iff (s : State) (m : Micro) :
    initLeft s m ↔ m ∈ initStores.filter (fun m => !s.top.done.contains m) := by
  simp [initLeft, initStores]

theorem readLeft_iff (s : State) (m : Micro) :
    readLeft s m ↔ m ∈ cursorReads.filter (fun m => !s.top.done.contains m) := by
  simp [readLeft, cursorReads]

/-- A read may be done exactly where it does not raise CONSOLE_NOT_READY (R23, R95). -/
theorem readable_iff {s : State} {m : Micro} (h : readLeft s m) :
    s.con.readable m = true ↔ ¬ readRaises s.con m := by
  rcases h.1 with rfl | rfl | rfl <;> simp [Console.readable, readRaises]

/-- One of CINIT's register stores does that store and nothing else (R95). -/
theorem initStore_doesInit {s : State} {m : Micro} (k : Nat) (h : initLeft s m) :
    doesInit m s (({ s with pick := k }.initStore m).microDoneOf .cinit m) := by
  rcases h with ⟨rfl | rfl | rfl | rfl, _⟩ <;>
  · refine ⟨?_, ⟨?_, ?_⟩, ?_⟩
    · simp [State.initStore, State.microDoneOf, Console.setAttr, Console.setRow, Console.setCol, State.setTop]
    · cases hi : s.irqs <;> simp [State.initStore, State.microDoneOf, State.setTop, State.top, hi]
    · cases hi : s.irqs <;> simp [State.initStore, State.microDoneOf, State.setTop, State.top, hi]
    · exact ⟨fun _ => rfl, ⟨rfl, rfl⟩, ⟨rfl, rfl⟩, rfl, rfl, rfl, ⟨rfl, rfl⟩, ⟨rfl, rfl⟩⟩

/-- One of PUTCHAR's reads that may be done takes its register and does nothing else (R95). -/
theorem cursorRead_takesRead {s : State} {m : Micro} (k : Nat) (h : readLeft s m) (hr : s.con.readable m = true) :
    takesRead m s (({ s with pick := k } : State).cursorRead m) := by
  unfold State.cursorRead
  rw [if_pos hr]
  rcases h with ⟨rfl | rfl | rfl, _⟩ <;>
  · refine ⟨⟨?_, ?_⟩, rfl, ?_⟩
    · cases hi : s.irqs <;> simp [State.microDoneOf, State.setTop, State.top, hi, Frame.takeRead, Frame.microDone]
    · cases hi : s.irqs <;> simp [State.microDoneOf, State.setTop, State.top, hi, Frame.takeRead, Frame.microDone]
    · exact ⟨fun _ => rfl, ⟨rfl, rfl⟩, ⟨rfl, rfl⟩, rfl, rfl, rfl, ⟨rfl, rfl⟩, ⟨rfl, rfl⟩⟩

/-- An interleaved CINIT among its register stores does the one the run picks (R95). -/
theorem exec_cinit_store {s : State} {k : Nat} {m : Micro} (hr : s.cfg.raceModel = .interleave) (hm : s.top.mu < 4)
    (hp : pickFrom (initStores.filter (fun m => !s.top.done.contains m)) k = some m) :
    exec .cinit { s with pick := k } = .next (({ s with pick := k }.initStore m).microDoneOf .cinit m) := by
  have ht : ({ s with pick := k } : State).top = s.top := rfl
  simp only [exec, execCinit, hr, State.cinitInterleaved, ht]
  rw [if_pos (by simpa [initStores] using hm), hp]

/-- An interleaved PUTCHAR among its reads does the one the run picks (R95). -/
theorem exec_putchar_read {s : State} {k : Nat} {m : Micro} (ch : Byte) (hr : s.cfg.raceModel = .interleave)
    (hm : s.top.mu < 3) (hp : pickFrom (cursorReads.filter (fun m => !s.top.done.contains m)) k = some m) :
    exec (.putchar ch) { s with pick := k } = .next (({ s with pick := k } : State).cursorRead m) := by
  have ht : ({ s with pick := k } : State).top = s.top := rfl
  simp only [exec, execPutchar, hr, State.putcharInterleaved, ht]
  rw [if_pos (by simpa [cursorReads] using hm), hp]

end Sys2Proof.Machine
end

