-- ==== Sys2Proof/Laws/Encoding.lean ====
section
/-!
SUPPORT. The laws of the command format and of the descriptor: fields and words, what the decoder answers, and
the fields of an assembled descriptor.
-/

namespace Sys2Proof

/-- The fields of an assembled word are the fields it was assembled from (R78). -/
theorem CmdFields.ofWord_toWord (f : CmdFields) : CmdFields.ofWord f.toWord = f := by
  obtain ⟨op, a, b, c, r⟩ := f
  simp only [CmdFields.ofWord, CmdFields.toWord, CmdFields.mk.injEq]
  refine ⟨?_, ?_, ?_, ?_, ?_⟩ <;>
  · apply BitVec.eq_of_getLsbD_eq
    intro i hi
    simp only [BitVec.getLsbD_extractLsb', BitVec.getLsbD_append, hi, decide_true, Bool.true_and]
    repeat (first | rw [if_pos (by omega)] | rw [if_neg (by omega)])
    congr 1
    omega

/-- A word is the word of its fields (R78). -/
theorem CmdFields.toWord_ofWord (w : CmdWord) : (CmdFields.ofWord w).toWord = w := by
  apply BitVec.eq_of_getLsbD_eq
  intro i hi
  simp only [CmdFields.ofWord, CmdFields.toWord, BitVec.getLsbD_append, BitVec.getLsbD_extractLsb']
  by_cases h1 : i < 8
  · simp [h1]
  by_cases h2 : i < 16
  · simp [h1, show i - 8 < 8 by omega, show 8 + (i - 8) = i by omega]
  by_cases h3 : i < 24
  · simp [h1, show ¬ i - 8 < 8 by omega, show i - 8 - 8 < 8 by omega, show 16 + (i - 8 - 8) = i by omega]
  by_cases h4 : i < 56
  · simp [h1, show ¬ i - 8 < 8 by omega, show ¬ i - 8 - 8 < 8 by omega, show i - 8 - 8 - 8 < 32 by omega,
      show 24 + (i - 8 - 8 - 8) = i by omega]
  · simp [h1, show ¬ i - 8 < 8 by omega, show ¬ i - 8 - 8 < 8 by omega, show ¬ i - 8 - 8 - 8 < 32 by omega,
      show i - 8 - 8 - 8 - 32 < 8 by omega, show 56 + (i - 8 - 8 - 8 - 32) = i by omega]

/-- The opcode map gives a command back from its own fields (R79). -/
theorem CmdFields.instr?_fields (i : Instr) : i.fields.instr? = some i := by
  cases i <;> rfl

/-- The decoder answers a command exactly on the words whose fields are the command's own (R81). -/
theorem decode_eq_ok_iff (w : CmdWord) (i : Instr) : decode w = .ok i ↔ CmdFields.ofWord w = i.fields := by
  have hr : i.fields.rsv = 0 := by cases i <;> rfl
  constructor
  · intro h
    unfold decode at h
    split at h
    · simp at h
    · split at h
      · simp at h
      · split at h
        · next j _ _ hf => simp only [Except.ok.injEq] at h; subst h; exact hf
        · simp at h
  · intro h
    simp [decode, h, CmdFields.instr?_fields, hr]

/-- A word has at most one command. -/
theorem decode_inj {w : CmdWord} {i j : Instr} (hi : decode w = .ok i) (hj : decode w = .ok j) : i = j := by
  rw [hi] at hj
  exact Except.ok.inj hj

end Sys2Proof

namespace Sys2Proof.Machine

/-- Bit `i` of an assembled descriptor, field by field (R62, R63). -/
theorem descriptor_getLsbD (h : Addr) (t : Byte) (i : Nat) (hi : i < 64) :
    (descriptor h t).getLsbD i =
      if i < 16 then h.getLsbD i else if i < 40 then decide (i = 19) else if i < 48 then t.getLsbD (i - 40)
      else h.getLsbD (i - 32) := by
  have hs : ∀ j, codeSelector.getLsbD j = decide (j = 3) := by
    intro j
    by_cases hj : j < 16
    · interval_cases j <;> rfl
    · rw [BitVec.getLsbD_of_ge _ _ (by omega)]
      simp; omega
  simp only [descriptor, offsetLow, offsetHigh, BitVec.getLsbD_or, BitVec.getLsbD_shiftLeft,
    BitVec.getLsbD_setWidth, BitVec.getLsbD_extractLsb', BitVec.truncate_eq_setWidth, hs]
  by_cases h1 : i < 16
  · simp [h1, hi, show i < 40 by omega, show i < 48 by omega, show i < 32 by omega]
  by_cases h2 : i < 40
  · simp [h1, h2, hi, show i < 48 by omega, show i - 16 < 64 by omega]
    omega
  by_cases h3 : i < 48
  · simp [h1, h2, h3, hi, show i - 40 < 64 by omega]
    omega
  · have h4 : t.getLsbD (i - 40) = false := BitVec.getLsbD_of_ge _ _ (by omega)
    simp [h1, h2, h3, hi, h4, show i - 48 < 16 by omega, show i - 48 < 64 by omega,
      show 16 + (i - 48) = i - 32 by omega]
    omega

end Sys2Proof.Machine
end

