-- ==== Sys2Proof/Laws/PerInstr.lean ====
section
/-!
SUPPORT. Facts about every command, one lemma per constructor of `Instr`.
-/

namespace Sys2Proof.Laws

/-- The word of a command is a legal command word (30_encoding.md R79, R81). -/
def EncodesLegal.Statement (i : Instr) : Prop := (CmdFields.ofWord (encode i)).wf = true

theorem EncodesLegal.cinit : EncodesLegal.Statement .cinit := by
  rw [EncodesLegal.Statement, encode, CmdFields.ofWord_toWord]; rfl

theorem EncodesLegal.setcolor (a : Byte) : EncodesLegal.Statement (.setcolor a) := by
  rw [EncodesLegal.Statement, encode, CmdFields.ofWord_toWord]; rfl

theorem EncodesLegal.putchar (ch : Byte) : EncodesLegal.Statement (.putchar ch) := by
  rw [EncodesLegal.Statement, encode, CmdFields.ofWord_toWord]; rfl

theorem EncodesLegal.idtbuild : EncodesLegal.Statement .idtbuild := by
  rw [EncodesLegal.Statement, encode, CmdFields.ofWord_toWord]; rfl

theorem EncodesLegal.idtreg (v : Byte) (h : Addr) (t : Byte) : EncodesLegal.Statement (.idtreg v h t) := by
  rw [EncodesLegal.Statement, encode, CmdFields.ofWord_toWord]; rfl

theorem EncodesLegal.picremap (mb sb : Byte) : EncodesLegal.Statement (.picremap mb sb) := by
  rw [EncodesLegal.Statement, encode, CmdFields.ofWord_toWord]; rfl

theorem EncodesLegal.piceoi : EncodesLegal.Statement .piceoi := by
  rw [EncodesLegal.Statement, encode, CmdFields.ofWord_toWord]; rfl

theorem EncodesLegal.cli : EncodesLegal.Statement .cli := by
  rw [EncodesLegal.Statement, encode, CmdFields.ofWord_toWord]; rfl

theorem EncodesLegal.sti : EncodesLegal.Statement .sti := by
  rw [EncodesLegal.Statement, encode, CmdFields.ofWord_toWord]; rfl

theorem EncodesLegal.swint (v : Byte) : EncodesLegal.Statement (.swint v) := by
  rw [EncodesLegal.Statement, encode, CmdFields.ofWord_toWord]; rfl

end Sys2Proof.Laws
end

