-- ==== Sys2Proof/Machine/Asm.lean ====
section
/-!
DEFINITION. The assembler syntax and its pseudo-operations (30_encoding.md R84 to R87): a source line, as a
list of characters, and the commands it stands for.
-/

namespace Sys2Proof.Machine

/-- A source line: a command, or a pseudo-operation. -/
inductive AsmLine where
  | command (i : Instr)
  /-- `puts s` (R85). -/
  | puts (bytes : List Byte)
  /-- `setcolor2 fg, bg` (R86). -/
  | setcolor2 (fg bg : Nat)
  /-- `pic.remap` with no operands (R87). -/
  | remapDefault
deriving DecidableEq, Repr

/-- The commands a line expands to (R84 to R87). -/
def AsmLine.expand : AsmLine → List Instr
  | .command i => [i]
  | .puts bytes => bytes.map .putchar
  | .setcolor2 fg bg => [.setcolor (attrByte fg bg)]
  | .remapDefault => [.picremap masterBaseDefault slaveBaseDefault]

/-- Text cut at a separator outside a character literal. -/
def splitText (sep : Char) : List Char → List (List Char)
  | [] => [[]]
  | '\'' :: c :: '\'' :: cs =>
    match splitText sep cs with
    | [] => [['\'', c, '\'']]
    | w :: ws => ('\'' :: c :: '\'' :: w) :: ws
  | c :: cs =>
    if c = sep then [] :: splitText sep cs
    else
      match splitText sep cs with
      | [] => [[c]]
      | w :: ws => (c :: w) :: ws

/-- Text without the spaces at its ends. -/
def trimText (t : List Char) : List Char :=
  ((t.dropWhile (· = ' ')).reverse.dropWhile (· = ' ')).reverse

/-- The value of a digit, decimal or hexadecimal. -/
def digitValue (c : Char) : Option Nat :=
  if '0'.toNat ≤ c.toNat ∧ c.toNat ≤ '9'.toNat then some (c.toNat - '0'.toNat)
  else if 'a'.toNat ≤ c.toNat ∧ c.toNat ≤ 'f'.toNat then some (c.toNat - 'a'.toNat + 10)
  else if 'A'.toNat ≤ c.toNat ∧ c.toNat ≤ 'F'.toNat then some (c.toNat - 'A'.toNat + 10)
  else none

/-- Read digits of a base after the value read so far. -/
def readDigits (base : Nat) (acc : Nat) : List Char → Option Nat
  | [] => some acc
  | c :: cs =>
    match digitValue c with
    | none => none
    | some d => if d < base then readDigits base (base * acc + d) cs else none

/-- A character's byte: its code point, if that is below 256 (R84, R85 name no character set; log 22, DESIGN
CHOICE). -/
def charByte (c : Char) : Option Byte := if c.toNat < 256 then some (BitVec.ofNat 8 c.toNat) else none

/-- A number operand: `'c'` for a character's byte, `0x` hexadecimal, or decimal (R84). -/
def readNumber : List Char → Option Nat
  | ['\'', c, '\''] => (charByte c).map (·.toNat)
  | '0' :: 'x' :: d :: ds => readDigits 16 0 (d :: ds)
  | d :: ds => readDigits 10 0 (d :: ds)
  | [] => none

/-- A byte operand. -/
def readByte (t : List Char) : Option Byte :=
  match readNumber (trimText t) with
  | none => none
  | some n => if n < 256 then some (BitVec.ofNat 8 n) else none

/-- An address operand. -/
def readAddr (t : List Char) : Option Addr :=
  match readNumber (trimText t) with
  | none => none
  | some n => if n < 2 ^ 32 then some (BitVec.ofNat 32 n) else none

/-- Every text read as a byte. -/
def readBytes : List (List Char) → Option (List Byte)
  | [] => some []
  | t :: ts =>
    match readByte t, readBytes ts with
    | some b, some bs => some (b :: bs)
    | _, _ => none

/-- Every character's byte, up to a closing quotation mark that ends the text. A string has no escape and no
quotation mark inside it (R85 gives no quoting; log 22, DESIGN CHOICE). -/
def readQuoted : List Char → Option (List Byte)
  | [] => none
  | ['"'] => some []
  | c :: cs =>
    if c = '"' then none
    else
      match charByte c, readQuoted cs with
      | some b, some bs => some (b :: bs)
      | _, _ => none

/-- The operand of `puts`: a string literal or a byte list (R85). -/
def readString (t : List Char) : Option (List Byte) :=
  match trimText t with
  | '"' :: cs => readQuoted cs
  | '[' :: cs =>
    match cs.reverse with
    | ']' :: rs => if (trimText rs.reverse).isEmpty then some [] else readBytes (splitText ',' rs.reverse)
    | _ => none
  | _ => none

/-- The first word of a line and what follows it. -/
def splitWord (t : List Char) : List Char × List Char := (t.takeWhile (· ≠ ' '), t.dropWhile (· ≠ ' '))

/-- The operand list of a line. -/
def splitOperands (t : List Char) : List (List Char) :=
  if (trimText t).isEmpty then [] else splitText ',' t

/-- The spelling of each command and pseudo-operation (R84 to R87). -/
inductive AsmWord where
  | cinit | setcolor | putc | idtBuild | idtReg | picRemap | picEoi | cli | sti | int | puts | setcolor2
deriving DecidableEq, Repr

/-- The word a spelling stands for (R84). -/
def asmWord (t : List Char) : Option AsmWord :=
  if t = ['c', 'i', 'n', 'i', 't'] then some .cinit
  else if t = ['s', 'e', 't', 'c', 'o', 'l', 'o', 'r'] then some .setcolor
  else if t = ['p', 'u', 't', 'c'] then some .putc
  else if t = ['i', 'd', 't', '.', 'b', 'u', 'i', 'l', 'd'] then some .idtBuild
  else if t = ['i', 'd', 't', '.', 'r', 'e', 'g'] then some .idtReg
  else if t = ['p', 'i', 'c', '.', 'r', 'e', 'm', 'a', 'p'] then some .picRemap
  else if t = ['p', 'i', 'c', '.', 'e', 'o', 'i'] then some .picEoi
  else if t = ['c', 'l', 'i'] then some .cli
  else if t = ['s', 't', 'i'] then some .sti
  else if t = ['i', 'n', 't'] then some .int
  else if t = ['p', 'u', 't', 's'] then some .puts
  else if t = ['s', 'e', 't', 'c', 'o', 'l', 'o', 'r', '2'] then some .setcolor2
  else none

/-- Read a line whose first word is known (R84 to R87). -/
def readOperands (w : AsmWord) (rest : List Char) : Option AsmLine :=
  match w, splitOperands rest with
  | .cinit, [] => some (.command .cinit)
  | .setcolor, [a] => (readByte a).map (fun a => .command (.setcolor a))
  | .putc, [c] => (readByte c).map (fun c => .command (.putchar c))
  | .idtBuild, [] => some (.command .idtbuild)
  | .idtReg, [v, h, t] =>
    match readByte v, readAddr h, readByte t with
    | some v, some h, some t => some (.command (.idtreg v h t))
    | _, _, _ => none
  | .picRemap, [mb, sb] =>
    match readByte mb, readByte sb with
    | some mb, some sb => some (.command (.picremap mb sb))
    | _, _ => none
  | .picRemap, [] => some .remapDefault
  | .picEoi, [] => some (.command .piceoi)
  | .cli, [] => some (.command .cli)
  | .sti, [] => some (.command .sti)
  | .int, [v] => (readByte v).map (fun v => .command (.swint v))
  | .puts, _ => (readString rest).map .puts
  | .setcolor2, [fg, bg] =>
    match readNumber (trimText fg), readNumber (trimText bg) with
    | some fg, some bg => some (.setcolor2 fg bg)
    | _, _ => none
  | _, _ => none

/-- Read one line of assembler text (R84). -/
def readLine (t : List Char) : Option AsmLine :=
  match asmWord (splitWord (trimText t)).1 with
  | none => none
  | some w => readOperands w (splitWord (trimText t)).2

end Sys2Proof.Machine
end

