-- ==== Sys2Proof/Tests/Slice0.lean ====
section
/-!
SUPPORT. Tests: the checks of the command format and the configuration, the words of every command, each command on
a small state, with expected values from 95_test_vectors.md, and for every statement with hypotheses a state that
meets them.
-/

namespace Sys2Proof.Tests

open Sys2Proof Sys2Proof.Machine

/-! ### Well-formedness: each check refuses a term (R81), and the configuration checks (R10, R47) -/

theorem test_wf_accepts : (Instr.idtreg 0x20 0x00101234 0x8E).fields.wf = true := by decide
theorem test_wf_unknown_opcode : CmdFields.opKnown ⟨0x04, 0, 0, 0, 0⟩ = false := by decide
theorem test_wf_reserved : CmdFields.rsvZero ⟨0x01, 0, 0, 0, 1⟩ = false := by decide
theorem test_wf_unused_a : CmdFields.unusedZero ⟨0x01, 1, 0, 0, 0⟩ = false := by decide
theorem test_wf_unused_b : CmdFields.unusedZero ⟨0x03, 0x41, 1, 0, 0⟩ = false := by decide
theorem test_wf_unused_c : CmdFields.unusedZero ⟨0x31, 0, 0, 1, 0⟩ = false := by decide

theorem test_config_accepts : configOk Config.launch = true := by decide
theorem test_config_misaligned_framebuffer : configOk { Config.launch with fbBase := 0x00010001 } = false := by decide
theorem test_config_misaligned_table : configOk { Config.launch with idtBase := 0x00020004 } = false := by decide
theorem test_config_past_the_end : configOk { Config.launch with fbBase := 0xFFFFF800 } = false := by decide
theorem test_config_regions_overlap : configOk { Config.launch with idtBase := 0x00010F98 } = false := by decide
theorem test_config_regions_touch : configOk { Config.launch with idtBase := 0x00010FA0 } = true := by decide
theorem test_config_occupied : configOk { Config.launch with occupied := [⟨0x000207FF, 1⟩] } = false := by decide
theorem test_config_no_nesting : configOk { Config.launch with maxNest := 0 } = false := by decide

/-! ### The words of the commands (95_test_vectors.md V-A5, and programs P1, P3) -/

theorem test_decode_cinit : decode 0x0000000000000001 = .ok .cinit := by decide
theorem test_decode_setcolor : decode 0x0000000000001F02 = .ok (.setcolor 0x1F) := by decide
theorem test_decode_putchar : decode 0x0000000000004103 = .ok (.putchar 0x41) := by decide
theorem test_decode_idtbuild : decode 0x0000000000000010 = .ok .idtbuild := by decide
theorem test_decode_idtreg : decode 0x00001012348E2011 = .ok (.idtreg 0x20 0x00101234 0x8E) := by decide
theorem test_decode_picremap : decode 0x0000000000282020 = .ok (.picremap 0x20 0x28) := by decide
theorem test_decode_piceoi : decode 0x0000000000000021 = .ok .piceoi := by decide
theorem test_decode_cli : decode 0x0000000000000030 = .ok .cli := by decide
theorem test_decode_sti : decode 0x0000000000000031 = .ok .sti := by decide
theorem test_decode_swint : decode 0x0000000000003032 = .ok (.swint 0x30) := by decide
theorem test_decode_zero : decode 0x0000000000000000 = .error .unknownOpcode := by decide
theorem test_decode_op4 : decode 0x0000000000000004 = .error .unknownOpcode := by decide
theorem test_decode_reserved : decode 0x0100000000000001 = .error .reservedNonzero := by decide
theorem test_decode_unused_a : decode 0x0000000000000101 = .error .unusedFieldNonzero := by decide
theorem test_decode_unused_b : decode 0x0000000000010003 = .error .unusedFieldNonzero := by decide
theorem test_decode_unused_c : decode 0x0000000001000031 = .error .unusedFieldNonzero := by decide
theorem test_decode_reserved_idtreg : decode 0xFF00000000000011 = .error .reservedNonzero := by decide

theorem test_encode_idtreg : encode (.idtreg 0x40 0x00102000 0x8F) = 0x00001020008F4011 := by decide
theorem test_encode_bytes_idtreg :
    encodeBytes (.idtreg 0x20 0x00101000 0x8E) = [0x11, 0x20, 0x8E, 0x00, 0x10, 0x10, 0x00, 0x00] := by decide
theorem test_decode_bytes_picremap :
    decodeBytes [0x20, 0x20, 0x28, 0, 0, 0, 0, 0, 0x31] = .ok (.picremap 0x20 0x28, [0x31]) := by decide
theorem test_decode_table_word : decodeTableWord 64 0x0000000000700820 = some (.picremap 0x08 0x70) := by decide

/-! ### Formats (V-A1 to V-A4, V-CN1, V-CN2) -/

theorem test_attr : attrByte 15 1 = 0x1F ∧ attrByte 4 14 = 0xE4 ∧ attrByte 0x1F 2 = 0x2F := by decide
theorem test_cell : glyphCell 0x48 0x1F = 0x1F48 ∧ leBytes 2 (glyphCell 0x48 0x1F).toNat = [0x48, 0x1F] := by decide
theorem test_descriptor : descriptor 0xC0DE0010 0x8F = 0xC0DE8F0000080010 := by decide
theorem test_descriptor_bytes :
    leBytes 8 (descriptor 0x00101234 0x8E).toNat = [0x34, 0x12, 0x08, 0x00, 0x00, 0x8E, 0x10, 0x00] := by decide
theorem test_gates : gateSupported 0xEE 8 = true ∧ gateSupported 0x85 8 = false ∧ gateSupported 0x86 8 = false ∧
    gateSupported 0x9E 8 = false ∧ gatePresent 0x0E = false := by decide
theorem test_table_image : (idtRegister Config.launch).image = [0xFF, 0x07, 0x00, 0x00, 0x02, 0x00] := by decide
theorem test_vector_inside : vectorInside (idtRegister Config.launch) 0xFF = true := by decide
theorem test_cell_addr : cellAddr Config.launch 12 40 = 0x00010000 + 2000 := by decide
theorem test_cursor : nextCursor 0 79 = (1, 0) ∧ nextCursor 24 78 = (24, 79) ∧ nextCursor 24 79 = (0, 0) := by decide

/-! ### Assembler lines and the boot program (R84 to R87, R142) -/

theorem test_asm_idtreg : readLine "idt.reg 0x20, 0x00101234, 0x8E".toList =
    some (.command (.idtreg 0x20 0x00101234 0x8E)) := by decide
theorem test_asm_putc : readLine "putc 'A'".toList = some (.command (.putchar 0x41)) := by decide
theorem test_asm_setcolor2 : (readLine "setcolor2 14, 4".toList).map AsmLine.expand = some [.setcolor 0x4E] := by decide
theorem test_asm_puts : (readLine "puts [0x1E, 0x0A]".toList).map AsmLine.expand =
    some [.putchar 0x1E, .putchar 0x0A] := by decide
theorem test_asm_remap : (readLine "pic.remap".toList).map AsmLine.expand = some [.picremap 0x20 0x28] := by decide
theorem test_asm_quoted : (readLine ['p', 'u', 't', 's', ' ', '"', 'H', 'i', '"']).map AsmLine.expand =
    some [.putchar 0x48, .putchar 0x69] := by decide
theorem test_asm_out_of_range : readLine "int 256".toList = none := by decide
theorem test_boot_words : ((referenceProgram { Config.launch with timerEntry := 0x00101000 }).map encode) =
    [0x0000000000000001, 0x0000000000000010, 0x0000000000282020, 0x00001010008E2011, 0x0000000000000031,
      0x0000000000003032, 0x0000000000003132] := by decide

/-- R9, R123: `TIMER_VECTOR` with the default base and with another; a test vector 0x20 is refused with the first only. -/
theorem test_timer_vector : timerVector masterBaseDefault = 0x20 ∧ timerVector 0x40 = 0x40 ∧ timerVector 0x23 = 0x20 := by
  decide
theorem test_test_vectors : configTestVectors { Config.launch with testVectorA := 0x20 } 0x20 = false ∧
    configTestVectors { Config.launch with testVectorA := 0x20 } 0x40 = true ∧
    configTestVectors Config.launch 0x30 = false := by decide

/-! ### States the tests start from -/

/-- The parameters of 95_test_vectors.md Part 2 and 3. -/
def cfg : Config := { Config.launch with
  defaultAttr := 0x07
  handlers := [(0x00101000, [0x0000000000005403]), (0x00102000, [0x0000000000004032])]
  timerEntry := 0x00101000 }

/-- A controller that PICREMAP has configured. -/
def configured (c : Ctrl) (base : Byte) : Pic := ⟨true, .idle, 0x11, base, icw3Byte c, 0x01, 0, 0, 0⟩

/-- A descriptor in memory. -/
def withDescriptor (v : Byte) (d : BitVec 64) (s : State) : State := s.memWrite (descAddr s.cfg v) 8 d.toNat

/-- The state after CINIT, IDTBUILD and PICREMAP, but for the memory they wrote, with `prog` to run. -/
def s0 (prog : List CmdWord) : State := { State.launch cfg prog with
  con := { row := 0, col := 0, attr := 0x07, ready := true }
  idtBuilt := true
  idtr := some (idtRegister cfg)
  picM := configured .M 0x20
  picS := configured .S 0x28 }

/-- The running context inside the command at its `pc`. -/
def atMicro (mu : Nat) (k : Kind) (s : State) : State := s.setTop { s.top with mu := mu, inOp := some k }

/-- An interrupt context of vector 0x40 on top, in a phase. -/
def inHandler (ph : Phase) (savedIF : Bool) (s : State) : State :=
  { s with irqs := { vector := 0x40, phase := ph, savedIF := savedIF, frame := Frame.start [0x0000000000005403] } :: s.irqs }

/-- A property of the next state. -/
def nextIs (o : Host.Outcome State Fault Refusal) (p : State → Bool) : Bool :=
  match o with
  | .next t => p t
  | .fault _ => false
  | .refused _ => false

/-! ### Commands -/

/-- V-CN3: the register stores of CINIT, and its first cell. -/
theorem test_cinit_registers : nextIs (exec .cinit (s0 [])) (fun t =>
    t.con == { row := 0, col := 0, attr := 0x07, ready := true } && t.main.mu == 1) = true := by decide
theorem test_cinit_last_cell : nextIs (exec .cinit (atMicro 2000 .cinit (s0 []))) (fun t =>
    t.cellAt 1999 == some 0x0720 && t.main.pc == 1 && t.main.mu == 0) = true := by decide

/-- V-CN6, V-CN4. -/
theorem test_setcolor : nextIs (exec (.setcolor 0x1F) (s0 [])) (fun t =>
    t.con.attr == 0x1F && t.main.pc == 1) = true := by decide
theorem test_setcolor_not_ready : nextIs (exec (.setcolor 0x1F) State.reset) (fun t =>
    t.fault == some (.consoleNotReady .setcolor) && t.con.attr == 0) = true := by decide

/-- V-CN10 at (24, 79), V-CN11 at (3, 10). -/
theorem test_putchar_wraps :
    nextIs (execMicros (.putchar 0x41) [0, 0, 0] { s0 [] with con := ⟨24, 79, 0x07, true⟩ }) (fun t =>
      t.cellAt 1999 == some 0x0741 && t.con == ⟨0, 0, 0x07, true⟩ && t.main.pc == 1) = true := by decide
theorem test_putchar_line_feed :
    nextIs (execMicros (.putchar 0x0A) [0, 0, 0] { s0 [] with con := ⟨3, 10, 0x07, true⟩ }) (fun t =>
      t.cellAt 250 == some 0x070A && t.con == ⟨3, 11, 0x07, true⟩) = true := by decide

/-- V-I1, V-I2. -/
theorem test_idtbuild : nextIs (exec .idtbuild State.reset) (fun t =>
    t.idtr == some ⟨0x07FF, 0x00020000⟩ && t.idtBuilt && t.ptrace == [.lidt 0x07FF 0x00020000]
      && t.descAt 0x00 == some 0) = true := by decide +kernel
theorem test_idtbuild_interruptible : nextIs (exec .idtbuild { State.reset with IF := true }) (fun t =>
    t.fault == some .buildInterruptible && t.idtr == none && t.mem == []) = true := by decide

/-- V-I4, V-I5. -/
theorem test_idtreg : nextIs (exec (.idtreg 0x20 0x00101234 0x8E) { s0 [] with IF := true }) (fun t =>
    t.descAt 0x20 == some 0x00108E0000081234 && t.IF && t.ptrace == [.irqOff, .irqRestore true]) = true := by decide
theorem test_idtreg_not_built : nextIs (exec (.idtreg 0x20 0x00101234 0x8E) State.reset) (fun t =>
    t.fault == some (.idtNotBuilt 0x20) && t.mem == [] && t.ptrace == []) = true := by decide

/-- V-P1, V-P5. -/
theorem test_picremap_trace :
    nextIs (execMicros (.picremap 0x20 0x28) [0, 0, 0, 0, 0, 0, 0, 0] State.reset) (fun t =>
      t.trace == [(0x20, 0x11), (0x21, 0x20), (0x21, 0x04), (0x21, 0x01), (0xA0, 0x11), (0xA1, 0x28), (0xA1, 0x02),
        (0xA1, 0x01)] && t.main.pc == 1) = true := by decide
theorem test_picremap_bases :
    nextIs (execMicros (.picremap 0x23 0x2D) [0, 0, 0, 0, 0, 0, 0, 0] State.reset) (fun t =>
      t.picM == configured .M 0x20 && t.picS == configured .S 0x28) = true := by decide

/-- V-P10 (the inner PICEOI), V-P13. -/
theorem test_piceoi :
    nextIs (execMicros .piceoi [0, 0] { s0 [] with
      picM := { configured .M 0x20 with isr := 0x05 }, picS := { configured .S 0x28 with isr := 0x01 } }) (fun t =>
      t.picM.isr == 0x04 && t.picS.isr == 0x00 && t.trace == [(0xA0, 0x20), (0x20, 0x20)]) = true := by decide
theorem test_piceoi_unconfigured : nextIs (exec .piceoi State.reset) (fun t =>
    t.fault == some (.picUnconfigured .piceoi) && t.trace == []) = true := by decide

/-- V-X1, V-X2. -/
theorem test_cli : nextIs (exec .cli { s0 [] with IF := true }) (fun t =>
    !t.IF && t.ptrace == [.cli] && t.main.pc == 1) = true := by decide
theorem test_sti : nextIs (exec .sti (s0 [])) (fun t =>
    t.IF && t.ptrace == [.sti] && t.main.pc == 1) = true := by decide

/-- V-X7 (an interrupt gate from `IF = 1`), V-X6. -/
theorem test_swint : nextIs (exec (.swint 0x40)
    { withDescriptor 0x40 (descriptor 0x00101000 0x8E) (s0 []) with IF := true }) (fun t =>
      !t.IF && t.ptrace == [.int 0x40] && t.main.pc == 1 && t.irqs.map (·.savedIF) == [true]
        && t.top == Frame.start [0x0000000000005403]) = true := by decide
theorem test_swint_task_gate : nextIs (exec (.swint 0x40)
    (withDescriptor 0x40 (descriptor 0x00101000 0x85) (s0 []))) (fun t =>
      t.fault == some (.unsupportedGate 0x40 0x85 0x0008) && t.main.pc == 1 && t.irqs == []) = true := by decide

/-! ### The agents -/

/-- V-P7, rows 4, 5 and 6. -/
theorem test_request_preempts :
    State.request { s0 [] with picM := { configured .M 0x20 with irr := 0x01, isr := 0x02 } } = some (.M, 0) := by decide
theorem test_request_slave :
    State.request { s0 [] with
      picM := { configured .M 0x20 with irr := 0x08 }, picS := { configured .S 0x28 with irr := 0x01 } } =
      some (.S, 0) := by decide
theorem test_request_slave_blocked :
    State.request { s0 [] with
      picM := { configured .M 0x20 with isr := 0x04 }, picS := { configured .S 0x28 with irr := 0x02 } } = none := by decide

/-- V-D4: a slave line is acknowledged at both controllers before its delivery faults. -/
theorem test_delivery_unhandled :
    nextIs (step { (withDescriptor 0x28 0 (s0 [])) with
      IF := true, picS := { configured .S 0x28 with irr := 0x01 }, sched := [.deliver] }) (fun t =>
      t.fault == some (.unhandledVector 0x28) && t.picM.isr == 0x04 && t.picS.isr == 0x01 && t.picS.irr == 0) =
      true := by decide

/-- V-D2: a line during PICREMAP. -/
theorem test_delivery_in_remap :
    nextIs (step { (atMicro 1 .picremap (s0 [0x0000000000282020])) with
      IF := true, picM := { configured .M 0x20 with configured := false, irr := 0x01 }, sched := [.deliver] }) (fun t =>
      t.fault == some .remapInterrupted && t.picM.isr == 0) = true := by decide

/-- V-X7: the return restores `IF` and records itself. -/
theorem test_return : nextIs (step (inHandler .ret true (s0 []))) (fun t =>
    t.IF && t.ptrace == [.iret true] && t.irqs == [] && t.main == (s0 []).main) = true := by decide

/-- V-CN13: the race, at the handler's first micro-step. -/
theorem test_race : nextIs (step (inHandler .body true (atMicro 2 .putchar (s0 [0x0000000000005803])))) (fun t =>
    t.fault == some (.consoleRace .putchar .putchar) && t.mem == []) = true := by decide

/-- V-CN15: a handler's PUTCHAR that has read column 80. -/
theorem test_column_80 :
    nextIs (execMicros (.putchar 0x54) [0, 0, 0, 0] { s0 [] with
      con := ⟨0, 80, 0x07, true⟩, cfg := { cfg with raceModel := .interleave } }) (fun t =>
      t.fault == some (.cursorOutOfRange 0 80) && t.mem == []) = true := by decide

/-- R95: a handler's PUTCHAR whose run takes `u2` first reads `con.col` with `con.ready` still false. -/
theorem test_read_before_u1 : nextIs (exec (.putchar 0x41) { s0 [] with
    con := ⟨0, 5, 0x07, false⟩, cfg := { cfg with raceModel := .interleave }, pick := 1 }) (fun t =>
      t.fault == none && t.top.col == 5 && t.top.mu == 1) = true := by decide

/-- R95: a handler's PUTCHAR on top of a first CINIT that has stored `con.ready` only passes `u1`. -/
theorem test_read_after_ready : nextIs (step (inHandler .body true
    { (atMicro 1 .cinit (s0 [0x01])) with
      con := { State.reset.con with ready := true }, cfg := { cfg with raceModel := .interleave } })) (fun t =>
      t.fault == none && t.top.mu == 1 && t.top.done == [.readRow]) = true := by decide

/-- V-P15: a specific EOI, and single mode. -/
theorem test_specific_eoi : (State.portWrite 0x20 0x60 (s0 [])).fault = some (.picProtocol .M 0x60) := by decide
theorem test_single_mode :
    (State.portWrite 0x21 0x01 (State.portWrite 0x21 0x20 (State.portWrite 0x20 0x13 (s0 [])))).refused =
      some .picModeUnmodelled := by decide

/-- A word placed where the next step fetches is what it runs, from reset and inside a handler. -/
theorem test_fetch_from_reset : nextIs (step (State.withFetchWord State.reset 64 0x31)) (fun t => t.IF) = true := by decide
theorem test_fetch_in_handler :
    nextIs (step (State.withFetchWord (inHandler .ret false (s0 [])) 64 0x31)) (fun t => t.IF && t.top.pc == 1) =
      true := by decide
/-- R142: a test vector that is the timer's at the boot program's master base is refused; any other program runs (R143). -/
theorem test_timer_test_vector :
    (State.launchBoot { cfg with testVectorB := 0x20 } 0x20 0x28).refused = some .badConfig ∧
    (State.launchBoot { cfg with testVectorB := 0x20 } 0x40 0x48).refused = none ∧
    nextIs (step { s0 [0x31] with cfg := { cfg with testVectorB := 0x20 } }) (fun t => t.IF && t.refused == none) = true := by
  decide
theorem test_illegal_word : nextIs (step (State.withFetchWord State.reset 64 0x04)) (fun t =>
    t.refused == some .illegalCommand) = true := by decide

/-! ### A state that meets the hypotheses of each statement -/

theorem canMove_s0 (prog : List CmdWord) : (s0 prog).canMove :=
  ⟨rfl, rfl, (by decide : configOk cfg = true)⟩
theorem noConsoleBelow_s0 (prog : List CmdWord) : noConsoleBelow (s0 prog) := fun _ h => absurd h List.not_mem_nil

theorem witness_DecodeOfEncode : (Instr.idtreg 0xFF 0xFFFFFFFF 0xFF).wf = true := by decide
theorem witness_EncodeOfDecode : decode 0x00FFFFFFFFFFFF11 = .ok (.idtreg 0xFF 0xFFFFFFFF 0xFF) := by decide
theorem witness_IllegalWordRefused : (s0 [0x04]).canMove ∧ (s0 [0x04]).nextChoice.isRun = true ∧
    (s0 [0x04]).inProgram ∧ (s0 [0x04]).top.fetch = some 0x04 ∧ ∀ i, decode 0x04 ≠ .ok i := by
  refine ⟨canMove_s0 _, rfl, inProgram_nil rfl, rfl, fun i h => ?_⟩
  have he : decode 0x04 = .error .unknownOpcode := by decide
  rw [he] at h
  cases h
theorem witness_ByteStreamDecodes : ([1, 0, 0, 0, 0, 0, 0] : List Byte).length < 8 := by decide
theorem witness_StepRunsDecoded : (s0 [0x31]).canMove ∧ (s0 [0x31]).nextChoice.isRun = true ∧
    (s0 [0x31]).inProgram ∧ (s0 [0x31]).top.fetch = some 0x31 ∧ decode 0x31 = .ok .sti :=
  ⟨canMove_s0 _, rfl, inProgram_nil rfl, rfl, by decide⟩
theorem witness_StepRunsDecoded_in_handler : (inHandler .body true (s0 [])).canMove ∧
    (inHandler .body true (s0 [])).nextChoice.isRun = true ∧ (inHandler .body true (s0 [])).inProgram ∧
    (inHandler .body true (s0 [])).top.fetch = some 0x5403 ∧ decode 0x5403 = .ok (.putchar 0x54) :=
  ⟨⟨rfl, rfl, by decide⟩, rfl, (inProgram_cons rfl).2 rfl, rfl, by decide⟩
theorem witness_StoppedStaysStopped : ((s0 []).raise .buildInterruptible).fault = some .buildInterruptible ∧
    ((s0 []).refuse .illegalCommand).fault = none ∧
    ((s0 []).refuse .illegalCommand).refused = some .illegalCommand := ⟨rfl, rfl, rfl⟩

/-- The first state with a configuration. -/
def withCfg (c : Config) : State := { s0 [] with cfg := c }

theorem witness_BadConfigRefused : (withCfg { cfg with fbBase := 1 }).fault = none ∧
    (withCfg { cfg with fbBase := 1 }).refused = none ∧ (withCfg { cfg with fbBase := 1 }).cfg.fbBase.toNat % 2 ≠ 0 := by
  decide
theorem witness_BadConfigRefused_table : (withCfg { cfg with idtBase := 0x00020004 }).cfg.idtBase.toNat % 8 ≠ 0 := by
  decide
theorem witness_BadConfigRefused_past_end :
    2 ^ 32 < (withCfg { cfg with fbBase := 0xFFFFF062 }).cfg.fbBase.toNat + 4000 ∧
    2 ^ 32 < (withCfg { cfg with idtBase := 0xFFFFF808 }).cfg.idtBase.toNat + 2048 := by decide
theorem witness_BadConfigRefused_overlap : ∃ a, (withCfg { cfg with idtBase := 0x00010F98 }).cfg.fbBase.toNat ≤ a ∧
    a < (withCfg { cfg with idtBase := 0x00010F98 }).cfg.fbBase.toNat + 4000 ∧
    (withCfg { cfg with idtBase := 0x00010F98 }).cfg.idtBase.toNat ≤ a ∧
    a < (withCfg { cfg with idtBase := 0x00010F98 }).cfg.idtBase.toNat + 2048 := ⟨0x00010F9F, by decide⟩
theorem witness_BadConfigRefused_occupied :
    ∃ r ∈ (withCfg { cfg with occupied := [⟨0x000207FF, 1⟩] }).cfg.occupied, ∃ a, r.base ≤ a ∧ a < r.base + r.size ∧
      (withCfg cfg).cfg.idtBase.toNat ≤ a ∧ a < (withCfg cfg).cfg.idtBase.toNat + 2048 :=
  ⟨⟨0x000207FF, 1⟩, by decide, 0x000207FF, by decide⟩

theorem witness_BadConfigRefused_handler : ∃ p ∈ (withCfg { cfg with handlers := [(0x00010F9F, [])] }).cfg.handlers,
    (withCfg cfg).cfg.fbBase.toNat ≤ p.1.toNat ∧ p.1.toNat < (withCfg cfg).cfg.fbBase.toNat + 4000 := by decide
theorem witness_BadConfigRefused_values : (withCfg { cfg with maxNest := 0 }).cfg.maxNest = 0 := by decide
theorem witness_BadConfigRefused_test_vectors : ({ cfg with testVectorA := 0x40 } : Config).testVectorA = 0x47 &&& 0xF8 ∧
    ({ cfg with testVectorB := 0x20 } : Config).testVectorB = 0x20 &&& 0xF8 ∧
    (cfg.testVectorA ≠ 0x20 &&& 0xF8 ∧ cfg.testVectorB ≠ 0x20 &&& 0xF8) ∧
    ({ cfg with testVectorA := 0x20 } : Config).testVectorA ≠ 0x40 &&& 0xF8 := by decide

theorem witness_FinishedMainIdles : (s0 []).canMove ∧ (s0 []).nextChoice.isRun = true ∧ (s0 []).irqs = [] ∧
    (s0 []).main.pc = (s0 []).main.prog.length := ⟨canMove_s0 _, rfl, rfl, rfl⟩
theorem witness_CursorAdvance : (24 < 25 ∧ 78 < 80 ∧ 78 + 1 < 80) ∧ (23 < 25 ∧ 79 < 80 ∧ 79 + 1 = 80 ∧ 23 + 1 < 25) ∧
    (24 < 25 ∧ 79 < 80 ∧ 79 + 1 = 80 ∧ 24 + 1 = 25) := by decide

/-- The first state under the race model `interleave`. -/
def s0i : State := withCfg { cfg with raceModel := .interleave }

theorem witness_CinitMicroSteps : (s0 []).cfg.raceModel = .fault ∧ (s0 []).top.mu = 0 ∧ noConsoleBelow (s0 []) :=
  ⟨rfl, rfl, noConsoleBelow_s0 _⟩
theorem witness_CinitMicroSteps_cells : (s0 []).cfg.raceModel = .fault ∧
    (0 < 2000 ∧ (atMicro 1 .cinit (s0 [])).top.mu = 0 + 1) ∧
    (1999 < 2000 ∧ (atMicro 2000 .cinit (s0 [])).top.mu = 1999 + 1) := by decide
theorem witness_CinitMicroSteps_cells_interleave :
    (0 < 2000 ∧ (atMicro 4 .cinit s0i).top.mu = 0 + (if (atMicro 4 .cinit s0i).cfg.raceModel = .fault then 1 else 4)) ∧
    (1999 < 2000 ∧ (atMicro 2003 .cinit s0i).top.mu =
      1999 + (if (atMicro 2003 .cinit s0i).cfg.raceModel = .fault then 1 else 4)) := by decide

/-- A handler's interleaved CINIT with one store left, on top of a preempted PUTCHAR. -/
def initializing : State :=
  let s := inHandler .body true (atMicro 2 .putchar s0i)
  s.setTop { s.top with mu := 3, inOp := some .cinit, done := [.initReady, .initAttr, .initRow] }

theorem witness_CinitMicroSteps_stores : initializing.cfg.raceModel = .interleave ∧ initializing.top.mu < 4 ∧
    initLeft initializing .initCol ∧ ¬ initLeft initializing .initRow ∧ s0i.top.mu < 4 ∧ initLeft s0i .initReady := by
  unfold initLeft; decide
theorem witness_CinitWhole : (s0 []).stopped = false ∧
    (List.replicate 2001 0).length = microCount (s0 []).cfg .cinit ∧ (s0 []).top.mu = 0 ∧ (s0 []).top.done = [] ∧
    ((s0 []).cfg.raceModel = .fault → noConsoleBelow (s0 [])) :=
  ⟨rfl, by rw [List.length_replicate]; rfl, rfl, rfl, fun _ => noConsoleBelow_s0 []⟩

theorem witness_CinitWhole_interleave : s0i.stopped = false ∧
    (List.replicate 2004 3).length = microCount s0i.cfg .cinit ∧ s0i.top.mu = 0 ∧ s0i.top.done = [] ∧
    (s0i.cfg.raceModel = .fault → noConsoleBelow s0i) :=
  ⟨rfl, by rw [List.length_replicate]; rfl, rfl, rfl, fun _ => noConsoleBelow_s0 []⟩
theorem witness_SetcolorCompletes : (s0 []).con.ready = true ∧ ((s0 []).cfg.raceModel = .fault → noConsoleBelow (s0 [])) :=
  ⟨rfl, fun _ => noConsoleBelow_s0 _⟩
theorem witness_ConsoleNotReady : State.reset.con.ready = false ∧ State.reset.cfg.raceModel = .fault ∧
    State.reset.top.mu = 0 ∧ noConsoleBelow State.reset := ⟨rfl, rfl, rfl, fun _ h => absurd h List.not_mem_nil⟩

/-- The same before CINIT. -/
def s0n : State := { s0i with con := State.reset.con }

theorem witness_ConsoleNotReady_interleave : s0n.cfg.raceModel = .interleave ∧ s0n.con.ready = false ∧
    s0n.top.mu < 3 ∧ readLeft s0n .readRow := by unfold readLeft; decide
theorem witness_ConsoleNotReady_whole : s0n.cfg.raceModel = .interleave ∧ s0n.con.ready = false ∧
    3 ≤ ([1, 1, 0] : List Nat).length ∧ s0n.stopped = false ∧ s0n.top.mu = 0 ∧ s0n.top.done = [] := by decide

/-- A handler's PUTCHAR, some of its reads done, on top of a first CINIT that has still to store `con.ready`. -/
def readingEarly (done : List Micro) : State :=
  let s := inHandler .body true { (atMicro 3 .cinit s0i) with con := ⟨0, 0, 0x07, false⟩ }
  s.setTop { s.top with mu := done.length, inOp := some .putchar, done := done }

theorem witness_ConsoleNotReady_last : (readingEarly [.readCol, .readAttr]).cfg.raceModel = .interleave ∧
    (readingEarly [.readCol, .readAttr]).con.ready = false ∧ (readingEarly [.readCol, .readAttr]).top.mu < 3 ∧
    readLeft (readingEarly [.readCol, .readAttr]) .readRow ∧
    ∀ m, readLeft (readingEarly [.readCol, .readAttr]) m → m = .readRow := by
  refine ⟨rfl, rfl, by decide, by unfold readLeft; decide, fun m h => ?_⟩
  rcases h.1 with rfl | rfl | rfl
  · rfl
  · exact absurd h.2 (by decide)
  · exact absurd h.2 (by decide)
theorem witness_ConsoleRace : (Instr.putchar 0x54).kind.isConsole = true ∧
    (inHandler .body true (atMicro 2 .putchar (s0 [0x5803]))).top.mu = 0 ∧
    (inHandler .body true (atMicro 2 .putchar (s0 [0x5803]))).cfg.raceModel = .fault ∧
    ¬ noConsoleBelow (inHandler .body true (atMicro 2 .putchar (s0 [0x5803]))) := by
  refine ⟨rfl, rfl, rfl, fun h => ?_⟩
  have := h _ (List.mem_singleton.2 rfl) .putchar rfl
  simp [Kind.isConsole] at this
theorem witness_ConsoleRace_none : Instr.cinit.kind.isConsole = true ∧ (s0 []).top.mu = 0 ∧ noConsoleBelow (s0 []) ∧
    s0i.top.mu = 0 ∧ s0i.cfg.raceModel = .interleave := ⟨rfl, rfl, noConsoleBelow_s0 _, rfl, rfl⟩
theorem witness_PutcharMicroSteps : (s0 []).cfg.raceModel = .fault ∧
    ((s0 []).top.mu = 0 ∧ (s0 []).con.ready = true ∧ noConsoleBelow (s0 [])) ∧
    (atMicro 1 .putchar (s0 [])).top.mu = 1 ∧ (atMicro 2 .putchar (s0 [])).top.mu = 2 :=
  ⟨rfl, ⟨rfl, rfl, noConsoleBelow_s0 _⟩, rfl, rfl⟩

/-- An interleaved PUTCHAR, at a place of the command, with what it has read and done. -/
def interleaved (mu r c : Nat) (done : List Micro) : State :=
  s0i.setTop { s0i.top with mu := mu, inOp := some .putchar, row := r, col := c, done := done }

theorem witness_PutcharMicroSteps_reads : (interleaved 2 0 0 [.readCol, .readAttr]).cfg.raceModel = .interleave ∧
    (interleaved 2 0 0 [.readCol, .readAttr]).top.mu < 3 ∧ ¬ readRaises (interleaved 2 0 0 [.readCol, .readAttr]).con .readRow ∧
    readLeft (interleaved 2 0 0 [.readCol, .readAttr]) .readRow := by unfold readLeft readRaises; decide
theorem witness_PutcharMicroSteps_mixed : (readingEarly [.readAttr]).cfg.raceModel = .interleave ∧
    (readingEarly [.readAttr]).top.mu < 3 ∧
    (readLeft (readingEarly [.readAttr]) .readCol ∧ ¬ readRaises (readingEarly [.readAttr]).con .readCol) ∧
    readLeft (readingEarly [.readAttr]) .readRow ∧ readRaises (readingEarly [.readAttr]).con .readRow := by
  unfold readLeft readRaises; decide
theorem witness_PutcharMicroSteps_glyph : (interleaved 3 24 79 cursorReads).cfg.raceModel = .interleave ∧
    (interleaved 3 24 79 cursorReads).top.mu = 3 ∧ (interleaved 3 24 79 cursorReads).top.row < 25 ∧
    (interleaved 3 24 79 cursorReads).top.col < 80 := by decide
theorem witness_PutcharMicroSteps_stores : (interleaved 5 24 79 (.storeCol :: cursorReads)).cfg.raceModel = .interleave ∧
    4 ≤ (interleaved 5 24 79 (.storeCol :: cursorReads)).top.mu ∧
    storeLeft (interleaved 5 24 79 (.storeCol :: cursorReads)) .wrapCol ∧
    storeLeft (interleaved 5 24 79 (.storeCol :: cursorReads)) .storeRow := by unfold storeLeft; decide

/-- A state with the cursor at the last cell. -/
def atLastCell (s : State) : State := { s with con := ⟨24, 79, 0x1F, true⟩ }

theorem witness_PutcharWhole : (atLastCell (s0 [])).stopped = false ∧
    ([0, 0, 0] : List Nat).length = microCount (atLastCell (s0 [])).cfg (.putchar 0xFF) ∧
    (atLastCell (s0 [])).top.mu = 0 ∧ (atLastCell (s0 [])).top.done = [] ∧ (atLastCell (s0 [])).con.ready = true ∧
    ((atLastCell (s0 [])).cfg.raceModel = .fault → noConsoleBelow (atLastCell (s0 []))) ∧
    (atLastCell (s0 [])).con.row < 25 ∧ (atLastCell (s0 [])).con.col < 80 :=
  ⟨rfl, rfl, rfl, rfl, rfl, fun _ => noConsoleBelow_s0 [], by decide, by decide⟩
theorem witness_PutcharWhole_interleave : (atLastCell s0i).stopped = false ∧
    ([2, 0, 1, 0, 1, 1, 0] : List Nat).length = microCount (atLastCell s0i).cfg (.putchar 0x0A) ∧
    (atLastCell s0i).top.mu = 0 ∧ (atLastCell s0i).top.done = [] ∧ (atLastCell s0i).con.ready = true ∧
    ((atLastCell s0i).cfg.raceModel = .fault → noConsoleBelow (atLastCell s0i)) ∧
    (atLastCell s0i).con.row < 25 ∧ (atLastCell s0i).con.col < 80 :=
  ⟨rfl, rfl, rfl, rfl, rfl, fun _ => noConsoleBelow_s0 [], by decide, by decide⟩

theorem witness_PutcharOutOfRange : (interleaved 3 0 80 cursorReads).cfg.raceModel = .interleave ∧
    (interleaved 3 0 80 cursorReads).top.mu = 3 ∧
    (25 ≤ (interleaved 3 0 80 cursorReads).top.row ∨ 80 ≤ (interleaved 3 0 80 cursorReads).top.col) ∧
    (25 ≤ (interleaved 3 25 0 cursorReads).top.row ∨ 80 ≤ (interleaved 3 25 0 cursorReads).top.col) := by decide

theorem witness_IdtbuildCompletes : State.reset.IF = false := rfl
theorem witness_IdtPreconditions : (State.setIF true State.reset).IF = true ∧ State.reset.idtBuilt = false := ⟨rfl, rfl⟩
theorem witness_IdtregCompletes : (s0 []).idtBuilt = true ∧ (0xFF : Byte) ≠ 0x20 := by decide

/-- A state whose table IDTBUILD has zeroed. -/
def built : State := (s0 []).zeroTable

theorem tableOk_built : built.tableOk := ⟨rfl, fun _ v => .inl (descAt_zeroTable (s0 []) v)⟩
theorem witness_RegisteredVectorDelivers : built.idtBuilt = true ∧ built.tableOk ∧
    ((0x8E : Byte).getLsbD 7 = true ∧ (0x8E : Byte).getLsbD 4 = false ∧ (0x8E : Byte).extractLsb' 0 4 = 0xE) ∧
    ((0xEF : Byte).getLsbD 7 = true ∧ (0xEF : Byte).getLsbD 4 = false ∧ (0xEF : Byte).extractLsb' 0 4 = 0xF) ∧
    handlerAt built.cfg 0x00101000 = some [0x5403] ∧ built.irqs.length < built.cfg.maxNest :=
  ⟨rfl, tableOk_built, by decide, by decide, rfl, by decide⟩

/-- PICREMAP, step by step and with the mask, before its last write, a line having been raised in between. -/
def lastRemapWrite : State :=
  { atMicro 9 .picremap (withCfg { cfg with explicitUnmask := true, remapOrder := .stepMajor }) with
    picS := { configured .S 0x28 with irr := 0x80 } }

theorem witness_PicremapMicroSteps : State.reset.stopped = false ∧ State.reset.top.mu < remapWrites State.reset.cfg ∧
    remapPlace State.reset.cfg State.reset.top.mu = (.M, 0) := by decide
theorem witness_PicremapMicroSteps_last : lastRemapWrite.stopped = false ∧
    lastRemapWrite.top.mu < remapWrites lastRemapWrite.cfg ∧ lastRemapWrite.top.mu + 1 = remapWrites lastRemapWrite.cfg ∧
    remapPlace lastRemapWrite.cfg lastRemapWrite.top.mu = (.S, 4) ∧ Pic.atInit .S 4 (lastRemapWrite.pic .S) :=
  ⟨rfl, by decide, rfl, rfl, rfl⟩
theorem witness_PicremapMicroSteps_slave : remapPlace cfg 4 = (.S, 0) ∧ remapPlace cfg 7 = (.S, 3) ∧
    (7 < remapWrites cfg ∧ remapPlace { cfg with remapOrder := .stepMajor } 7 = (.S, 3)) := by decide
theorem witness_PicremapWhole : State.reset.stopped = false ∧
    ([0, 0, 0, 0, 0, 0, 0, 0] : List Nat).length = microCount State.reset.cfg (.picremap 0x23 0xFF) ∧
    State.reset.top.mu = 0 ∧
    (List.replicate 10 0).length =
      microCount (withCfg { cfg with explicitUnmask := true, remapOrder := .stepMajor }).cfg (.picremap 0x20 0x28) ∧
    (0xF8 : Byte) &&& 7 = 0 := by
  decide
/-- A PICREMAP about to start, its moves scheduled with lines raised and a delivery tried in between. -/
def remapping : State := { s0 [0x282020] with
  sched := .run 0 :: [.raiseLine .M 0, .run 0, .deliver, .run 0, .run 0, .raiseLine .S 7, .run 0, .run 0, .run 0] ++
    .run 0 :: [.deliver] }

theorem witness_RemapPortSubsequences : remapping.canMove ∧ remapping.inProgram ∧ remapping.top.fetch = some 0x282020 ∧
    decode 0x282020 = .ok (.picremap 0x20 0x28) ∧ remapping.top.mu = 0 ∧
    List.countP Choice.isRun [.raiseLine .M 0, .run 0, .deliver, .run 0, .run 0, .raiseLine .S 7, .run 0, .run 0, .run 0] +
      2 = remapWrites remapping.cfg ∧ remapping.IF = false ∧ remapping.cfg.explicitUnmask = false ∧
    ∃ t, Sys2Proof.core.run 11 remapping = .next t :=
  ⟨⟨rfl, rfl, by decide⟩, inProgram_nil rfl, rfl, by decide, rfl, by decide, rfl, rfl, _, rfl⟩
theorem witness_PiceoiMicroSteps : (s0 []).stopped = false ∧ (s0 []).picM.phase = .idle ∧ (s0 []).picS.phase = .idle ∧
    ((s0 []).top.mu = 0 ∧ (s0 []).picM.configured = true ∧ (s0 []).picS.configured = true) ∧
    (atMicro 1 .piceoi (s0 [])).top.mu = 1 ∧ firstEoi (s0 []).cfg = .S ∧
    firstEoi { cfg with eoiOrder := .masterFirst } = .M := by decide
theorem witness_PiceoiWhole : (s0 []).stopped = false ∧ ([0, 0] : List Nat).length = 2 ∧ (s0 []).top.mu = 0 ∧
    (s0 []).picM.phase = .idle ∧ (s0 []).picS.phase = .idle ∧ (s0 []).picM.configured = true ∧
    (s0 []).picS.configured = true := by decide
theorem witness_PiceoiUnconfigured : State.reset.top.mu = 0 ∧
    (State.reset.picM.configured = false ∨ State.reset.picS.configured = false) := by decide

/-- A state whose slave is in a phase of its initialization. -/
def slaveIn (ph : PicPhase) (icw1 : Byte) : State :=
  { s0 [] with picS := { configured .S 0x28 with configured := false, phase := ph, icw1 := icw1 } }

theorem witness_PortProtocolStops_ends : (((slaveIn .wICW3 0x10).pic .S).phase = .wICW3 ∧
      ((slaveIn .wICW3 0x10).pic .S).icw1.getLsbD 0 = false) ∧
    (((slaveIn .wICW2 0x12).pic .S).phase = .wICW2 ∧ ((slaveIn .wICW2 0x12).pic .S).icw1.getLsbD 1 = true ∧
      ((slaveIn .wICW2 0x12).pic .S).icw1.getLsbD 0 = false) ∧ ((s0 []).pic .M).phase = .idle := by decide
theorem witness_PortProtocolStops : ((0x0B : Byte).getLsbD 4 = false ∧ (0x0B : Byte) ≠ 0x20) ∧
    ((slaveIn .wICW3 0x11).pic .S).phase ≠ .idle ∧ ((slaveIn .wICW4 0x11).pic .S).phase = .wICW4 ∧
    (((slaveIn .wICW4 0x11).pic .S).icw1 ≠ 0x11 ∨ ((slaveIn .wICW4 0x11).pic .S).icw3 ≠ icw3Byte .S ∨
      (0x03 : Byte) ≠ 0x01) := by decide

/-- Lines requested at both controllers. -/
def requested : State :=
  { s0 [] with picM := { configured .M 0x20 with irr := 0x08 }, picS := { configured .S 0x28 with irr := 0x80 } }

theorem witness_RequestIsHighestPriority : requested.request = some (.S, 7) ∧ (s0 []).request = none := by decide
theorem witness_AcknowledgeLine : 7 < 8 ∧ ((s0 []).pic .S).vbase &&& 7 = 0 := by decide
theorem witness_EnvironmentRaisesLine : State.canMove { s0 [] with sched := [.raiseLine .S 7] } ∧
    State.nextChoice { s0 [] with sched := [.raiseLine .S 7] } = .raiseLine .S 7 := ⟨⟨rfl, rfl, by decide⟩, rfl⟩
theorem witness_EnvironmentRaisesLine_set : State.canMove { requested with sched := [.raiseLine .M 3] } ∧
    State.nextChoice { requested with sched := [.raiseLine .M 3] } = .raiseLine .M 3 ∧
    (requested.pic .M).irr.getLsbD 3 = true := ⟨⟨rfl, rfl, by decide⟩, rfl, by decide⟩

/-- A state with a descriptor for vector 0x40 and a table that ends with it. -/
def withGate (h : Addr) (t : Byte) : State :=
  { withDescriptor 0x40 (descriptor h t) (s0 []) with idtr := some ⟨0x0207, 0x00020000⟩ }

theorem witness_SwintCompletes :
    readsDescriptor (withGate 0x00101000 0x8E) ⟨0x0207, 0x00020000⟩ 0x40 (descriptor 0x00101000 0x8E) ∧
    goodGate (descriptor 0x00101000 0x8E) ∧
    handlerAt (withGate 0x00101000 0x8E).cfg ((descriptor 0x00101000 0x8E).extractLsb' 48 16 ++
      (descriptor 0x00101000 0x8E).extractLsb' 0 16) = some [0x5403] ∧
    (withGate 0x00101000 0x8E).irqs.length < (withGate 0x00101000 0x8E).cfg.maxNest := by
  unfold readsDescriptor goodGate; decide
theorem witness_SwintCompletes_trap_gate : goodGate (descriptor 0x00102000 0xEF) := by unfold goodGate; decide
theorem witness_DeliveryFaults_no_table : deliveryFault State.reset 0x40 (.noIdt 0x40) := .inl ⟨rfl, rfl⟩
theorem witness_DeliveryFaults_limit :
    deliveryFault { s0 [] with idtr := some ⟨0x0206, 0x00020000⟩ } 0x40 (.unhandledVector 0x40) :=
  .inr (.inl ⟨_, rfl, by decide, rfl⟩)
theorem witness_DeliveryFaults_not_present :
    deliveryFault (withGate 0x00101000 0x0E) 0x40 (.unhandledVector 0x40) :=
  .inr (.inr ⟨⟨0x0207, 0x00020000⟩, descriptor 0x00101000 0x0E, by unfold readsDescriptor; decide,
    .inl ⟨by decide, rfl⟩⟩)
theorem witness_DeliveryFaults_gate :
    deliveryFault (withGate 0x00101000 0x85) 0x40 (.unsupportedGate 0x40 0x85 0x0008) :=
  .inr (.inr ⟨⟨0x0207, 0x00020000⟩, descriptor 0x00101000 0x85, by unfold readsDescriptor; decide,
    .inr (.inl ⟨by decide, by unfold goodGate; decide, by decide⟩)⟩)
theorem witness_DeliveryFaults_no_code :
    deliveryFault (withGate 0x00103000 0x8F) 0x40 (.noHandlerCode 0x40 0x00103000) :=
  .inr (.inr ⟨⟨0x0207, 0x00020000⟩, descriptor 0x00103000 0x8F, by unfold readsDescriptor; decide,
    .inr (.inr (.inl ⟨by unfold goodGate; decide, by decide, by decide⟩))⟩)

/-- The gate's state with a context on top, as deep as `MAX_NEST` admits. -/
def nested : State := inHandler .body false (withGate 0x00101000 0x8F)

theorem witness_DeliveryFaults_depth : deliveryFault nested 0x40 (.stackExhausted 0x40) :=
  .inr (.inr ⟨⟨0x0207, 0x00020000⟩, descriptor 0x00101000 0x8F, by unfold readsDescriptor; decide,
    .inr (.inr (.inr ⟨by unfold goodGate; decide, by decide, by decide, rfl⟩))⟩)

/-- A delivery about to take slave line 7. -/
def delivering : State :=
  { withDescriptor 0x2F (descriptor 0x00101000 0x8E) requested with IF := true, sched := [.deliver] }

theorem witness_HardwareDeliveryCompletes : delivering.canMove ∧ delivering.nextChoice = .deliver ∧
    delivering.IF = true ∧ delivering.picM.configured = true ∧ delivering.picS.configured = true ∧
    (∀ f ∈ delivering.frames, f.inOp ≠ some .picremap) ∧ delivering.request = some (.S, 7) ∧
    readsDescriptor delivering (idtRegister cfg) (delivering.lineVector .S 7) (descriptor 0x00101000 0x8E) ∧
    goodGate (descriptor 0x00101000 0x8E) ∧
    handlerAt delivering.cfg ((descriptor 0x00101000 0x8E).extractLsb' 48 16 ++
      (descriptor 0x00101000 0x8E).extractLsb' 0 16) = some [0x5403] ∧
    delivering.irqs.length < delivering.cfg.maxNest := by
  unfold State.canMove readsDescriptor goodGate; decide

/-- The same where the slave line's descriptor is zero (V-D4). -/
def deliveringNone : State := withDescriptor 0x2F 0 delivering

theorem witness_DeliveryFaults_hardware : deliveringNone.canMove ∧ deliveringNone.nextChoice = .deliver ∧
    deliveringNone.IF = true ∧ deliveringNone.picM.configured = true ∧ deliveringNone.picS.configured = true ∧
    (∀ f ∈ deliveringNone.frames, f.inOp ≠ some .picremap) ∧ deliveringNone.request = some (.S, 7) ∧
    deliveryFault deliveringNone (deliveringNone.lineVector .S 7) (.unhandledVector 0x2F) :=
  ⟨by unfold State.canMove; decide, rfl, rfl, rfl, rfl, by decide, by decide,
    .inr (.inr ⟨idtRegister cfg, 0, by unfold readsDescriptor; decide, .inl ⟨by decide, by decide⟩⟩)⟩

/-- A delivery move with `IF` and the controllers as given, inside a command of kind `k`. -/
def tryDeliver (b : Bool) (k : Kind) (m sl : Pic) : State :=
  { (atMicro 1 k (s0 [0x0000000000282020])) with IF := b, picM := m, picS := sl, sched := [.deliver] }

theorem witness_HardwareDeliveryGuards_off :
    (tryDeliver false .piceoi requested.picM requested.picS).canMove ∧
    (tryDeliver false .piceoi requested.picM requested.picS).nextChoice = .deliver ∧
    (tryDeliver false .piceoi requested.picM requested.picS).IF = false := by
  unfold State.canMove; decide
theorem witness_HardwareDeliveryGuards_no_line :
    (tryDeliver true .piceoi (configured .M 0x20) (configured .S 0x28)).canMove ∧
    (tryDeliver true .piceoi (configured .M 0x20) (configured .S 0x28)).nextChoice = .deliver ∧
    (tryDeliver true .piceoi (configured .M 0x20) (configured .S 0x28)).picM.irr = 0 ∧
    (tryDeliver true .piceoi (configured .M 0x20) (configured .S 0x28)).picS.irr = 0 := by
  unfold State.canMove; decide
theorem witness_HardwareDeliveryGuards_pending :
    (tryDeliver true .piceoi { configured .M 0x20 with irr := 0x02, isr := 0x01 }
      { configured .S 0x28 with irr := 0x01, imr := 0x01 }).canMove ∧
    (tryDeliver true .piceoi { configured .M 0x20 with irr := 0x02, isr := 0x01 }
      { configured .S 0x28 with irr := 0x01, imr := 0x01 }).request = none := by
  unfold State.canMove; decide
theorem witness_HardwareDeliveryGuards_remap :
    (tryDeliver true .picremap requested.picM requested.picS).canMove ∧
    (tryDeliver true .picremap requested.picM requested.picS).nextChoice = .deliver ∧
    (tryDeliver true .picremap requested.picM requested.picS).IF = true ∧
    (tryDeliver true .picremap requested.picM requested.picS).request ≠ none ∧
    ∃ f ∈ (tryDeliver true .picremap requested.picM requested.picS).frames, f.inOp = some .picremap := by
  unfold State.canMove; decide
theorem witness_HardwareDeliveryGuards_master :
    (tryDeliver true .piceoi { Pic.reset with irr := 1 } (configured .S 0x28)).canMove ∧
    (tryDeliver true .piceoi { Pic.reset with irr := 1 } (configured .S 0x28)).nextChoice = .deliver ∧
    (tryDeliver true .piceoi { Pic.reset with irr := 1 } (configured .S 0x28)).IF = true ∧
    ((tryDeliver true .piceoi { Pic.reset with irr := 1 } (configured .S 0x28)).pic .M).configured = false ∧
    ((tryDeliver true .piceoi { Pic.reset with irr := 1 } (configured .S 0x28)).pic .M).irr ≠ 0 ∧
    ∀ f ∈ (tryDeliver true .piceoi { Pic.reset with irr := 1 } (configured .S 0x28)).frames,
      f.inOp ≠ some .picremap := by
  unfold State.canMove; decide
theorem witness_HardwareDeliveryGuards_slave :
    (tryDeliver true .piceoi (configured .M 0x20) { Pic.reset with irr := 0x80 }).canMove ∧
    (tryDeliver true .piceoi (configured .M 0x20) { Pic.reset with irr := 0x80 }).nextChoice = .deliver ∧
    (tryDeliver true .piceoi (configured .M 0x20) { Pic.reset with irr := 0x80 }).IF = true ∧
    ((tryDeliver true .piceoi (configured .M 0x20) { Pic.reset with irr := 0x80 }).pic .S).configured = false ∧
    ((tryDeliver true .piceoi (configured .M 0x20) { Pic.reset with irr := 0x80 }).pic .S).irr ≠ 0 ∧
    ∀ f ∈ (tryDeliver true .piceoi (configured .M 0x20) { Pic.reset with irr := 0x80 }).frames,
      f.inOp ≠ some .picremap := by
  unfold State.canMove; decide

/-- An interrupt context with its program finished, in a phase. -/
def finishedHandler (ph : Phase) (mu : Nat) : State :=
  (inHandler ph true (s0 [])).setTop { Frame.start [] with mu := mu }

theorem witness_TrampolineEoi : (finishedHandler .body 0).canMove ∧ (finishedHandler .body 0).nextChoice.isRun = true ∧
    (∃ k rest, (finishedHandler .body 0).irqs = k :: rest ∧ k.phase = .body ∧ k.frame.pc = k.frame.prog.length) ∧
    (∃ k rest, (finishedHandler .eoi 0).irqs = k :: rest ∧ k.phase = .eoi ∧ k.frame.mu = 0) ∧
    (∃ k rest, (finishedHandler .eoi 1).irqs = k :: rest ∧ k.phase = .eoi ∧ k.frame.mu = 1) ∧
    (finishedHandler .eoi 1).picM.phase = .idle ∧ (finishedHandler .eoi 1).picS.phase = .idle :=
  ⟨⟨rfl, rfl, by decide⟩, rfl, ⟨_, _, rfl, rfl, rfl⟩, ⟨_, _, rfl, rfl, rfl⟩, ⟨_, _, rfl, rfl, rfl⟩, rfl, rfl⟩
theorem witness_TrapReturn : (finishedHandler .ret 0).canMove ∧ (finishedHandler .ret 0).nextChoice.isRun = true ∧
    ∃ k rest, (finishedHandler .ret 0).irqs = k :: rest ∧ k.phase = .ret :=
  ⟨⟨rfl, rfl, by decide⟩, rfl, _, _, rfl, rfl⟩

/-- A state inside PUTCHAR, and one inside PICREMAP after its first write. -/
def midPutchar : State := atMicro 1 .putchar (s0 [0x4103])
def midRemap : State := { atMicro 1 .picremap (s0 [0x282020]) with
  picM := { configured .M 0x20 with configured := false, phase := .wICW2 } }

theorem inStep_midPutchar : midPutchar.inStep :=
  ⟨.inr ⟨by decide, 0x4103, .putchar 0x41, rfl, by decide, rfl⟩, fun _ h => absurd h List.not_mem_nil⟩
theorem frames_main {s : State} (h : s.irqs = []) : s.frames = [s.main] := by simp [State.frames, h]
theorem localsOk_midPutchar : midPutchar.localsOk := by
  intro f hf
  rw [frames_main rfl, List.mem_singleton] at hf
  subst hf
  exact ⟨by decide, .inl (by decide)⟩
theorem cursorOk_midPutchar : midPutchar.cursorOk := by
  refine ⟨by decide, .inl (by decide), localsOk_midPutchar, fun f hf => ?_⟩
  rw [frames_main rfl, List.mem_singleton] at hf
  subst hf
  exact ⟨fun _ => rfl, fun h => absurd h (by decide)⟩

/-- An interleaved PUTCHAR at the end of a row, between its `u5` and its `u6`. -/
def wrapping : State :=
  { interleaved 5 3 79 (.storeCol :: cursorReads) with
    con := ⟨3, 80, 0x07, true⟩
    main := { (interleaved 5 3 79 (.storeCol :: cursorReads)).main with prog := [0x4103] } }

theorem witness_CursorKept_column_80 : wrapping.inStep ∧ wrapping.cursorOk ∧ ∃ t, step wrapping = .next t := by
  refine ⟨⟨.inr ⟨by decide, 0x4103, .putchar 0x41, rfl, by decide, rfl⟩, fun _ h => absurd h List.not_mem_nil⟩,
    ⟨by decide, .inr ⟨rfl, rfl, rfl, wrapping.main, by decide, rfl, by decide, by decide, rfl⟩, fun f hf => ?_,
      fun f hf => ?_⟩, _, rfl⟩ <;> (rw [frames_main rfl, List.mem_singleton] at hf; subst hf)
  · exact ⟨by decide, .inl (by decide)⟩
  · exact ⟨fun h => absurd h (by decide), fun _ _ => ⟨by decide, .inr ⟨by decide, by decide, rfl, by decide, by decide,
      by decide⟩⟩⟩
theorem witness_InStepKept : midPutchar.inStep ∧ ∃ t, step midPutchar = .next t := ⟨inStep_midPutchar, _, rfl⟩
theorem witness_NoRaceKept : midPutchar.inStep ∧ midPutchar.noRace ∧ ∃ t, step midPutchar = .next t :=
  ⟨inStep_midPutchar, fun _ => by decide, _, rfl⟩
theorem witness_CursorKept : midPutchar.inStep ∧ midPutchar.cursorOk ∧ ∃ t, step midPutchar = .next t :=
  ⟨inStep_midPutchar, cursorOk_midPutchar, _, rfl⟩
theorem witness_NestingKept : (inHandler .body true (s0 [])).nestOk ∧
    ∃ t, step (inHandler .body true (s0 [])) = .next t := ⟨by unfold State.nestOk; decide, _, rfl⟩
theorem witness_ControllersKept : midRemap.inStep ∧ midRemap.picsOk ∧ ∃ t, step midRemap = .next t := by
  refine ⟨⟨.inr ⟨by decide, 0x282020, .picremap 0x20 0x28, rfl, by decide, rfl⟩,
    fun _ h => absurd h List.not_mem_nil⟩, ⟨⟨by decide, by decide⟩, ⟨by decide, by decide⟩, by decide,
    fun _ h => absurd h List.not_mem_nil, fun _ => ⟨0x282020, 0x20, 0x28, rfl, by decide, ?_, ?_⟩,
    fun h => absurd rfl h⟩, _, rfl⟩
  · exact ⟨rfl, rfl⟩
  · exact rfl
theorem witness_TableKept : built.localsOk ∧ built.tableOk ∧ ∃ t, step built = .next t := by
  refine ⟨fun f hf => ?_, tableOk_built, _, rfl⟩
  rw [frames_main rfl, List.mem_singleton] at hf
  subst hf
  exact ⟨by decide, .inl (by decide)⟩
theorem witness_MemoryFormKept : midPutchar.localsOk ∧ midPutchar.mem.wf ∧ ∃ t, step midPutchar = .next t :=
  ⟨localsOk_midPutchar, State.reset_mem_wf, _, rfl⟩
theorem witness_ReachableStatesInOrder :
    ∃ t, Sys2Proof.core.run 1 { State.launch cfg [0x31] with sched := [.raiseLine .M 0, .run 0] } = .next t := ⟨_, rfl⟩
theorem witness_steps : (∃ t, step (s0 [0x31]) = .next t) ∧ (∃ t, step delivering = .next t) ∧
    ∃ t, step (finishedHandler .ret 0) = .next t := ⟨⟨_, rfl⟩, ⟨_, rfl⟩, ⟨_, rfl⟩⟩
theorem witness_MemoryWriters : midPutchar.localsOk ∧
    ∃ t, step midPutchar = .next t ∧ t.mem.byteAt 0x00010000 ≠ midPutchar.mem.byteAt 0x00010000 :=
  ⟨localsOk_midPutchar, _, rfl, by decide⟩
theorem witness_InterruptFlagWriters : ∃ t, step (s0 [0x31]) = .next t ∧ t.IF ≠ (s0 [0x31]).IF := ⟨_, rfl, by decide⟩
theorem witness_CommandsDoNotReadTable : (Instr.putchar 0x41).kind ≠ .swint ∧
    (Instr.idtbuild = .idtbuild ∧ State.reset.IF = false) := by decide

end Sys2Proof.Tests
end

section
/-!
PROOFS. 00_scope.md: what an admitted configuration guarantees (R9, R10, R47, R59), what the first step answers
otherwise, and the boot program's launch (R142).
-/

namespace Sys2Proof.Machine

/-! ### A step that is not an agent's move -/

/-- A configuration that is not admitted is marked refused, before any agent moves (R10, log 8). -/
theorem step_of_not_configOk {s : State} (hf : s.fault = none) (hr : s.refused = none)
    (hc : configOk s.cfg = false) : step s = .next (s.refuse .badConfig) := by
  simp [step, hf, hr, hc]

/-- A recorded refusal is what the step answers, where no fault is recorded (R40, R120). -/
theorem step_of_refused {s : State} {r : Refusal} (hf : s.fault = none) (hr : s.refused = some r) :
    step s = .refused r := by
  simp [step, hf, hr]

/-! ### What an admitted configuration guarantees -/

/-- Two regions are disjoint when one ends at or before the start of the other. -/
theorem Region.disjoint_iff (x y : Region) :
    Region.disjoint x y = true ↔ x.base + x.size ≤ y.base ∨ y.base + y.size ≤ x.base := by
  simp [Region.disjoint]

/-- The bases of an admitted configuration are aligned (R9, R47). -/
theorem configOk_aligned {cfg : Config} (h : configOk cfg = true) :
    cfg.fbBase.toNat % 2 = 0 ∧ cfg.idtBase.toNat % 8 = 0 := by
  simp only [configOk, configAligned, Bool.and_eq_true, beq_iff_eq] at h
  obtain ⟨⟨⟨haligned, _⟩, _⟩, _⟩ := h
  exact haligned

/-- An admitted configuration has room for a handler (R9). -/
theorem configOk_maxNest {cfg : Config} (h : configOk cfg = true) : 1 ≤ cfg.maxNest := by
  simp only [configOk, Bool.and_eq_true, decide_eq_true_eq] at h
  obtain ⟨_, hnest⟩ := h
  exact hnest

/-- Under an admitted configuration a byte of occupied memory lies in neither region of the block (R10, R59). -/
theorem configOk_occupied {cfg : Config} (h : configOk cfg = true) {r : Region} (hr : r ∈ occupiedRegions cfg)
    {a : Nat} (hlo : r.base ≤ a) (hhi : a < r.base + r.size) :
    ¬ ((cfg.fbBase.toNat ≤ a ∧ a < cfg.fbBase.toNat + FB_BYTES) ∨
      (cfg.idtBase.toNat ≤ a ∧ a < cfg.idtBase.toNat + IDT_BYTES)) := by
  simp only [configOk, configDisjoint, Bool.and_eq_true, List.all_eq_true, Region.disjoint_iff] at h
  obtain ⟨⟨_, _, hdisjoint⟩, _⟩ := h
  obtain ⟨hfb, hidt⟩ := hdisjoint r hr
  simp only [fbRegion, idtRegion, FB_BYTES, IDT_BYTES] at hfb hidt ⊢
  omega

/-- Listed code and stack memory is occupied (R10). -/
theorem mem_occupiedRegions_of_occupied {cfg : Config} {r : Region} (h : r ∈ cfg.occupied) :
    r ∈ occupiedRegions cfg :=
  List.mem_append_left _ h

/-- The entry byte of a handler is occupied (R59). -/
theorem mem_occupiedRegions_of_handler {cfg : Config} {p : Addr × List CmdWord} (h : p ∈ cfg.handlers) :
    ⟨p.1.toNat, 1⟩ ∈ occupiedRegions cfg :=
  List.mem_append_right _ (List.mem_map_of_mem h)

/-! ### The obligation -/

/-- Settles O11: each way to break R9, R10, R47 or R59 contradicts what an admitted configuration guarantees, so the
first step marks the refusal; the launch follows `configTestVectors`. -/
theorem badConfigRefused : Obligations.BadConfigRefused := by
  unfold Obligations.BadConfigRefused
  refine ⟨fun s hf hr hbad => ?_, fun cfg mb sb => ⟨fun hA hB => ?_, fun hAB => ?_⟩⟩
  · have hc : configOk s.cfg = false := by
      refine Bool.eq_false_iff.mpr fun hok => ?_
      obtain ⟨hfbAligned, hidtAligned⟩ := configOk_aligned hok
      obtain ⟨hfbSpace, hidtSpace, hapart⟩ := configOk_regions hok
      rcases hbad with h | h | h | h | ⟨a, h⟩ | ⟨r, hmem, a, hlo, hhi, h⟩ | ⟨p, hmem, h⟩ | h
      · exact h hfbAligned
      · exact h hidtAligned
      · exact h.not_ge hfbSpace
      · exact h.not_ge hidtSpace
      · simp only [FB_BYTES, IDT_BYTES] at hapart
        omega
      · exact configOk_occupied hok (mem_occupiedRegions_of_occupied hmem) hlo hhi h
      · exact configOk_occupied hok (mem_occupiedRegions_of_handler hmem) le_rfl (Nat.lt_succ_self _) h
      · exact absurd (configOk_maxNest hok) (by omega)
    exact ⟨step_of_not_configOk hf hr hc, step_of_refused hf rfl⟩
  · have hadmitted := (configTestVectors_iff cfg mb).mpr ⟨hA, hB⟩
    rcases launchBoot_cases cfg mb sb with ⟨_, hlaunch⟩ | ⟨hrejected, _⟩
    · exact hlaunch
    · simp [hadmitted] at hrejected
  · rcases launchBoot_cases cfg mb sb with ⟨hadmitted, _⟩ | ⟨_, hlaunch⟩
    · obtain ⟨hA, hB⟩ := (configTestVectors_iff cfg mb).mp hadmitted
      exact absurd hAB (not_or.mpr ⟨hA, hB⟩)
    · exact ⟨hlaunch, step_of_refused (by rw [hlaunch]; rfl) (by rw [hlaunch]; rfl)⟩

end Sys2Proof.Machine
end

section
/-!
PROOFS. 20_memory.md: `MemRead` and `MemWrite` (R13, R45).
-/

namespace Sys2Proof.Machine

/-- Little-endian placement: byte `i` of the stored value stands at `a + i` (R45). -/
theorem byteAt_memWrite_inside (s : State) (a v : Nat) {n i : Nat} (hi : i < n) :
    (s.memWrite a n v).mem.byteAt (a + i) = some (BitVec.ofNat 8 (v / 256 ^ i)) := by
  have hlen : a + i < a + (leBytes n v).length := by simpa using hi
  rw [State.memWrite_mem, byteAt_store_inside _ (Nat.le_add_right a i) hlen, Nat.add_sub_cancel_left,
    getElem?_leBytes n v i hi]

/-- The frame of `MemWrite`: it writes only the `n` bytes from `a` on (R13). -/
theorem keepsMemoryOutside_memWrite (s : State) (a n v : Nat) : keepsMemoryOutside a n s (s.memWrite a n v) := by
  intro x hx
  rw [State.memWrite_mem]
  exact byteAt_store_outside _ (by simpa only [leBytes_length] using hx)

/-- Settles O13: the value read back, the place of each of its bytes and the frame are the laws of a store of the
value's little-endian bytes. -/
theorem memReadAfterMemWrite : Obligations.MemReadAfterMemWrite := by
  unfold Obligations.MemReadAfterMemWrite
  intro s a n v
  exact ⟨memRead_memWrite_same s a n v, fun _ => byteAt_memWrite_inside s a v, keepsMemoryOutside_memWrite s a n v⟩

end Sys2Proof.Machine
end

section
/-!
PROOFS. 30_encoding.md: the value formats of the block, each field of a glyph cell, of an `attr` byte and of a
descriptor in its place (R62, R63, R68, R69).
-/

namespace Sys2Proof.Machine

/-! ### Two fields packed by shift and OR -/

/-- Packing a high field over a low one by shift and OR is putting the two side by side (R14). -/
theorem or_shiftLeft_eq_append {m n : Nat} (hi : BitVec m) (lo : BitVec n) :
    lo.setWidth (m + n) ||| (hi.setWidth (m + n) <<< n) = hi ++ lo := by
  rw [BitVec.append_def, BitVec.shiftLeftZeroExtend_eq, BitVec.setWidth'_eq, BitVec.or_comm]

/-- Fields side by side do not overlap, so the packed value is their weighted sum (R14). -/
theorem toNat_append_eq_add {m n : Nat} (hi : BitVec m) (lo : BitVec n) :
    (hi ++ lo).toNat = lo.toNat + 2 ^ n * hi.toNat := by
  rw [BitVec.toNat_append, ← Nat.shiftLeft_add_eq_or_of_lt lo.isLt, Nat.shiftLeft_eq, Nat.mul_comm, Nat.add_comm]

/-- A glyph cell is the `attr` byte above the character (R68). -/
theorem glyphCell_eq_append (c a : Byte) : glyphCell c a = a ++ c :=
  or_shiftLeft_eq_append a c

/-- An `attr` byte is the background above the foreground, each masked to 4 bits (R69, R86). -/
theorem attrByte_eq_append (fg bg : Nat) : attrByte fg bg = BitVec.ofNat 4 bg ++ BitVec.ofNat 4 fg := by
  have masked : ∀ k, BitVec.ofNat 8 (k % 16) = (BitVec.ofNat 4 k).setWidth (4 + 4) := fun k =>
    BitVec.ofNat_toNat 8 (BitVec.ofNat 4 k)
  rw [attrByte, masked, masked]
  exact or_shiftLeft_eq_append (BitVec.ofNat 4 bg) (BitVec.ofNat 4 fg)

@[simp] theorem attrFg_attrByte (fg bg : Nat) : (attrFg (attrByte fg bg)).val = fg % 16 := by
  rw [attrFg, attrByte_eq_append, BitVec.extractLsb'_append_eq_right]
  rfl

@[simp] theorem attrBg_attrByte (fg bg : Nat) : (attrBg (attrByte fg bg)).val = bg % 16 := by
  rw [attrBg, attrByte_eq_append, BitVec.extractLsb'_append_eq_left]
  rfl

/-- Settles O6: the cell and the `attr` byte are two fields side by side, and the rest is read off from that. -/
theorem cellAndAttributeFields : Obligations.CellAndAttributeFields := by
  unfold Obligations.CellAndAttributeFields
  refine ⟨fun c a => ?_, fun fg bg => ⟨?_, attrFg_attrByte fg bg, attrBg_attrByte fg bg⟩⟩
  · rw [glyphCell_eq_append]
    exact ⟨BitVec.extractLsb'_append_eq_right, BitVec.extractLsb'_append_eq_left, toNat_append_eq_add a c⟩
  · rw [attrByte_eq_append]
    exact toNat_append_eq_add (BitVec.ofNat 4 bg) (BitVec.ofNat 4 fg)

/-! ### The slices of a descriptor

Which operand each bit range of `D(h, t)` copies; the fields of R62 and the bytes in memory are such ranges. -/

/-- Bits 15:0 copy the handler address's own (R63). -/
theorem extractLsb'_descriptor_offsetLow (h : Addr) (t : Byte) {start len : Nat} (hin : start + len ≤ 16) :
    (descriptor h t).extractLsb' start len = h.extractLsb' start len := by
  ext i hi
  rw [BitVec.getElem_extractLsb', BitVec.getElem_extractLsb', descriptor_getLsbD h t _ (by omega),
    if_pos (by omega)]

/-- Bits 39:16 are the selector 8 under the zero reserved byte, whatever the operands (R63). -/
theorem extractLsb'_descriptor_selector (h : Addr) (t : Byte) {start len : Nat} (hlo : 16 ≤ start)
    (hhi : start + len ≤ 40) :
    (descriptor h t).extractLsb' start len = (0x000008 : BitVec 24).extractLsb' (start - 16) len := by
  have hbit : ∀ j < 24, (0x000008 : BitVec 24).getLsbD j = decide (j = 3) := by decide
  ext i hi
  rw [BitVec.getElem_extractLsb', BitVec.getElem_extractLsb', descriptor_getLsbD h t _ (by omega),
    if_neg (by omega), if_pos (by omega), hbit _ (by omega)]
  exact decide_eq_decide.mpr (by omega)

/-- Bits 47:40 are the type byte (R63). -/
theorem extractLsb'_descriptor_type (h : Addr) (t : Byte) : (descriptor h t).extractLsb' 40 8 = t := by
  ext i hi
  rw [BitVec.getElem_extractLsb', descriptor_getLsbD h t _ (by omega), if_neg (by omega),
    if_neg (by omega), if_pos (by omega), Nat.add_sub_cancel_left, BitVec.getLsbD_eq_getElem]

/-- Bits 63:48 copy the handler address's bits 31:16 (R63). -/
theorem extractLsb'_descriptor_offsetHigh (h : Addr) (t : Byte) {start len : Nat} (hlo : 48 ≤ start)
    (hhi : start + len ≤ 64) : (descriptor h t).extractLsb' start len = h.extractLsb' (start - 32) len := by
  ext i hi
  rw [BitVec.getElem_extractLsb', BitVec.getElem_extractLsb', descriptor_getLsbD h t _ (by omega),
    if_neg (by omega), if_neg (by omega), if_neg (by omega), Nat.sub_add_comm (by omega)]

/-! ### The fields and the bytes of a descriptor -/

/-- Bits 63:48 and 15:0 together are the handler address (R63, R126). -/
@[simp] theorem descOffset_descriptor (h : Addr) (t : Byte) : descOffset (descriptor h t) = h := by
  rw [descOffset, extractLsb'_descriptor_offsetHigh h t (by omega) (by omega),
    extractLsb'_descriptor_offsetLow h t (by omega)]
  exact BitVec.extractLsb'_append_extractLsb' (w := 16) (len := 16)

@[simp] theorem descSelector_descriptor (h : Addr) (t : Byte) : descSelector (descriptor h t) = 0x0008 := by
  rw [descSelector, extractLsb'_descriptor_selector h t (by omega) (by omega)]
  rfl

@[simp] theorem descType_descriptor (h : Addr) (t : Byte) : descType (descriptor h t) = t :=
  extractLsb'_descriptor_type h t

/-- The little-endian bytes of a word are its 8-bit slices, the lowest first (R45). -/
theorem leBytes_toNat {w : Nat} (n : Nat) (x : BitVec w) :
    leBytes n x.toNat = (List.range n).map fun i => x.extractLsb' (8 * i) 8 := by
  refine List.ext_getElem (by simp) fun i hi _ => ?_
  have hn : i < n := by simpa using hi
  have hbyte : (leBytes n x.toNat)[i] = BitVec.ofNat 8 (x.toNat / 256 ^ i) :=
    (List.getElem_eq_iff hi).mpr (getElem?_leBytes n x.toNat i hn)
  rw [hbyte, List.getElem_map, List.getElem_range, BitVec.extractLsb', Nat.shiftRight_eq_div_pow, Nat.pow_mul]

theorem leBytes_eight (x : BitVec 64) :
    leBytes 8 x.toNat =
      [x.extractLsb' 0 8, x.extractLsb' 8 8, x.extractLsb' 16 8, x.extractLsb' 24 8, x.extractLsb' 32 8,
        x.extractLsb' 40 8, x.extractLsb' 48 8, x.extractLsb' 56 8] :=
  leBytes_toNat 8 x

/-- The eight bytes of a descriptor, lowest address first (R62). -/
theorem leBytes_descriptor (h : Addr) (t : Byte) :
    leBytes 8 (descriptor h t).toNat =
      [h.extractLsb' 0 8, h.extractLsb' 8 8, 0x08, 0x00, 0x00, t, h.extractLsb' 16 8, h.extractLsb' 24 8] := by
  rw [leBytes_eight]
  simp (disch := omega) only [extractLsb'_descriptor_offsetLow, extractLsb'_descriptor_selector,
    extractLsb'_descriptor_type, extractLsb'_descriptor_offsetHigh]
  rfl

/-- Settles O7: every field, and every byte in memory, is one of the slices above. -/
theorem descriptorFields : Obligations.DescriptorFields := by
  unfold Obligations.DescriptorFields
  intro h t
  have hreserved : (descriptor h t).extractLsb' 32 8 = 0 := extractLsb'_descriptor_selector h t (by omega) (by omega)
  exact ⟨descOffset_descriptor h t, descSelector_descriptor h t, descType_descriptor h t, hreserved,
    leBytes_descriptor h t⟩

end Sys2Proof.Machine
end

section
/-!
PROOFS. 41_console.md: the cursor advance, which goes through the cells of the screen in the order of their
index and never scrolls (R88, R89).
-/

namespace Sys2Proof.Machine

/-! ### One advance -/

theorem nextCursor_inRow (r : Nat) {c : Nat} (hc : c + 1 < COLS) : nextCursor r c = (r, c + 1) :=
  if_pos hc

theorem nextCursor_rowEnd {r c : Nat} (hc : c + 1 = COLS) (hr : r + 1 < ROWS) : nextCursor r c = (r + 1, 0) := by
  rw [nextCursor, if_neg hc.not_lt, if_pos hr]

theorem nextCursor_lastCell {r c : Nat} (hc : c + 1 = COLS) (hr : r + 1 = ROWS) : nextCursor r c = (0, 0) := by
  rw [nextCursor, if_neg hc.not_lt, if_neg hr.not_lt]

/-- The advance keeps the cursor on the screen and goes to the next cell of the index order, from the last one
to the first (R88, R89). -/
theorem nextCursor_onScreen {r c : Nat} (hr : r < ROWS) (hc : c < COLS) :
    (nextCursor r c).1 < ROWS ∧ (nextCursor r c).2 < COLS ∧
      cellIdx (nextCursor r c).1 (nextCursor r c).2 = (cellIdx r c + 1) % CELLS := by
  have place : c + 1 < COLS ∨ c + 1 = COLS ∧ r + 1 < ROWS ∨ c + 1 = COLS ∧ r + 1 = ROWS := by omega
  rcases place with hin | ⟨hend, hnext⟩ | ⟨hend, hlast⟩
  · rw [nextCursor_inRow r hin]
    simp only [cellIdx, ROWS, COLS, CELLS] at *
    omega
  · rw [nextCursor_rowEnd hend hnext]
    simp only [cellIdx, ROWS, COLS, CELLS] at *
    omega
  · rw [nextCursor_lastCell hend hlast]
    simp only [cellIdx, ROWS, COLS, CELLS] at *
    omega

/-! ### Any number of advances -/

/-- The index of a cell of the screen is one of the `CELLS` indices (R88). -/
theorem cellIdx_lt {r c : Nat} (hr : r < ROWS) (hc : c < COLS) : cellIdx r c < CELLS := by
  simp only [cellIdx, ROWS, COLS, CELLS] at *
  omega

/-- The laws of one advance hold along every run of them: the index counts round the screen (R89). -/
theorem iterate_nextCursor_onScreen {r c : Nat} (hr : r < ROWS) (hc : c < COLS) (n : Nat) :
    ((fun p => nextCursor p.1 p.2)^[n] (r, c)).1 < ROWS ∧ ((fun p => nextCursor p.1 p.2)^[n] (r, c)).2 < COLS ∧
      cellIdx ((fun p => nextCursor p.1 p.2)^[n] (r, c)).1 ((fun p => nextCursor p.1 p.2)^[n] (r, c)).2
        = (cellIdx r c + n) % CELLS := by
  induction n with
  | zero => exact ⟨hr, hc, (Nat.mod_eq_of_lt (cellIdx_lt hr hc)).symm⟩
  | succ n ih =>
    obtain ⟨hrow, hcol, hidx⟩ := ih
    rw [Function.iterate_succ_apply']
    obtain ⟨hrow', hcol', hidx'⟩ := nextCursor_onScreen hrow hcol
    exact ⟨hrow', hcol', by rw [hidx', hidx, Nat.mod_add_mod, Nat.add_assoc]⟩

/-- Settles O14: the three cases of one advance, and the count of the cells along any number of them. -/
theorem cursorAdvance : Obligations.CursorAdvance := by
  unfold Obligations.CursorAdvance
  intro r c hr hc
  exact ⟨nextCursor_inRow r, nextCursor_rowEnd, nextCursor_lastCell, iterate_nextCursor_onScreen hr hc⟩

end Sys2Proof.Machine
end

section
/-!
PROOFS. 43_pic.md: the request of the controller pair is the source of highest priority that asks for service (R105),
and what acknowledging a line changes (R106).
-/

namespace Sys2Proof.Machine

/-! ### The request -/

/-- The master line a source comes in on: its own, and line 2 for every line of the slave (R105). -/
def masterLine : Ctrl × Nat → Nat
  | (.M, n) => n
  | (.S, _) => 2

/-- A slave line that asks makes the slave present some line to the master (R105). -/
theorem candS_isSome_of_asks {s : State} {m : Nat} (h : asks s (.S, m)) : s.candS.isSome = true := by
  obtain ⟨hlt, hirr, himr, hisr, -, -⟩ := h
  refine Option.isSome_iff_ne_none.mpr fun hnone => ?_
  exact candS_none hnone m hlt ⟨hirr, himr, (blocked_eq_false_iff _ _).mpr hisr⟩

/-- A source that asks is presented on its master line: that line is requested, not masked and not blocked (R105). -/
theorem presented_of_asks {s : State} {x : Ctrl × Nat} (h : asks s x) :
    masterLine x < 8 ∧ s.reqM (masterLine x) = true ∧ s.picM.imr.getLsbD (masterLine x) = false ∧
      s.picM.blocked (masterLine x) = false := by
  obtain ⟨c, n⟩ := x
  cases c with
  | M =>
    obtain ⟨hlt, hne, hirr, himr, hisr⟩ := h
    exact ⟨hlt, (if_neg hne).trans hirr, himr, (blocked_eq_false_iff _ _).mpr hisr⟩
  | S =>
    have hreq : s.reqM 2 = true := (if_pos rfl).trans (candS_isSome_of_asks h)
    obtain ⟨-, -, -, -, himr, hisr⟩ := h
    exact ⟨(by decide : 2 < 8), hreq, himr, (blocked_eq_false_iff _ _).mpr hisr⟩

/-- The master's candidate comes in on a line at or above that of every source that asks (R105). -/
theorem candM_le_masterLine {s : State} {n : Nat} (hn : s.candM = some n) {y : Ctrl × Nat} (hy : asks s y) :
    n ≤ masterLine y := by
  obtain ⟨-, -, hfirst⟩ := candM_some hn
  obtain ⟨-, hpresented⟩ := presented_of_asks hy
  exact Nat.not_lt.mp fun hlt => hfirst _ hlt hpresented

/-- The slave's candidate is at or above every slave line that asks (R105). -/
theorem candS_le {s : State} {m : Nat} (hm : s.candS = some m) {k : Nat} (hk : asks s (.S, k)) : m ≤ k := by
  obtain ⟨-, -, hfirst⟩ := candS_some hm
  obtain ⟨-, hirr, himr, hisr, -, -⟩ := hk
  exact Nat.not_lt.mp fun hlt => hfirst k hlt ⟨hirr, himr, (blocked_eq_false_iff _ _).mpr hisr⟩

/-- The master's candidate, other than line 2, is a source that asks (R105). -/
theorem asks_of_candM {s : State} {n : Nat} (hn : s.candM = some n) (h2 : n ≠ 2) : asks s (.M, n) := by
  obtain ⟨hlt, ⟨hreq, himr, hblocked⟩, -⟩ := candM_some hn
  exact ⟨hlt, h2, (if_neg h2).symm.trans hreq, himr, (blocked_eq_false_iff _ _).mp hblocked⟩

/-- The slave's candidate asks where the master's candidate is line 2 (R105). -/
theorem asks_of_candS {s : State} {m : Nat} (h2 : s.candM = some 2) (hm : s.candS = some m) : asks s (.S, m) := by
  obtain ⟨-, ⟨-, himrM, hblockedM⟩, -⟩ := candM_some h2
  obtain ⟨hlt, ⟨hirr, himr, hblocked⟩, -⟩ := candS_some hm
  exact ⟨hlt, hirr, himr, (blocked_eq_false_iff _ _).mp hblocked, himrM, (blocked_eq_false_iff _ _).mp hblockedM⟩

/-- Settles O35: a source that asks is presented on its master line, so the master's candidate, and for line 2 the
slave's, ranks before it. -/
theorem requestIsHighestPriority : Obligations.RequestIsHighestPriority := by
  unfold Obligations.RequestIsHighestPriority
  refine fun s => ⟨fun x hx => ?_, fun hnone y hy => ?_⟩
  · rcases request_cases hx with ⟨n, rfl, h2, hn⟩ | ⟨m, rfl, h2, hm⟩
    · refine ⟨asks_of_candM hn h2, fun ⟨c, k⟩ hy => ?_⟩
      have hle := candM_le_masterLine hn hy
      cases c with
      | M =>
        simp only [masterLine, sourceRank] at hle ⊢
        split_ifs <;> omega
      | S =>
        have hlt : n < 2 := lt_of_le_of_ne hle h2
        simp only [sourceRank, if_pos hlt]
        omega
    · refine ⟨asks_of_candS h2 hm, fun ⟨c, k⟩ hy => ?_⟩
      cases c with
      | M =>
        have hle : 2 ≤ k := candM_le_masterLine h2 hy
        obtain ⟨hlt, -⟩ := candS_some hm
        simp only [sourceRank, if_neg hle.not_gt]
        omega
      | S => exact Nat.add_le_add_right (candS_le hm hy) 2
  · obtain ⟨hlt, hpresented⟩ := presented_of_asks hy
    exact candM_none (request_none hnone) _ hlt hpresented

/-! ### Acknowledgment -/

/-- Taking a line clears its own request bit only (R106). -/
theorem takeLine_irr_getLsbD (p : Pic) (n k : Nat) :
    (p.takeLine n).irr.getLsbD k = (p.irr.getLsbD k && decide (k ≠ n)) :=
  clearLine_getLsbD p.irr n k

/-- Taking a line sets its own in-service bit only (R106). -/
theorem takeLine_isr_getLsbD (p : Pic) {n : Nat} (hn : n < 8) (k : Nat) :
    (p.takeLine n).isr.getLsbD k = (p.isr.getLsbD k || decide (k = n)) :=
  setLine_getLsbD p.isr n k hn

/-- From a base with its low three bits 0, base plus line does not wrap (R72, R106). -/
theorem vectorOfLine_toNat {base : Byte} {n : Nat} (hn : n < 8) (hbase : base &&& 7 = 0) :
    (vectorOfLine base n).toNat = base.toNat + n := by
  have haligned : base.toNat % 2 ^ 3 = 0 := by
    rw [← Nat.and_two_pow_sub_one_eq_mod]
    exact congrArg BitVec.toNat hbase
  have hlt := base.isLt
  rw [vectorOfLine, BitVec.toNat_add, BitVec.toNat_ofNat]
  omega

/-- Settles O36: an acknowledgment takes the line at its controller, and a slave line sets the master's in-service bit
2 besides; the frame is `acknowledge`'s own record updates. -/
theorem acknowledgeLine : Obligations.AcknowledgeLine := by
  unfold Obligations.AcknowledgeLine
  intro s n hn
  refine ⟨fun k => ⟨?_, ?_⟩, rfl, fun k => ⟨?_, ?_, ?_⟩, rfl, rfl, rfl, fun c => vectorOfLine_toNat hn⟩
  · exact takeLine_irr_getLsbD s.picM n k
  · exact takeLine_isr_getLsbD s.picM hn k
  · exact takeLine_irr_getLsbD s.picS n k
  · exact takeLine_isr_getLsbD s.picS hn k
  · exact setLine_getLsbD s.picM.isr 2 k (by decide)

end Sys2Proof.Machine
end

section
/-!
PROOFS. 43_pic.md: PICREMAP among the moves of the other agents, each controller's ports with its own initialization
sequence in order (R107 to R110).
-/

namespace Sys2Proof.Machine

/-! ### The two controllers' parts of the sequence -/

/-- Filtering two lists taken in turn, where only one of them keeps anything, is filtering them one after the other. -/
theorem filter_alternate {p : Half × Byte → Bool} {xs ys : List (Half × Byte)}
    (h : xs.filter p = [] ∨ ys.filter p = []) : (alternate xs ys).filter p = xs.filter p ++ ys.filter p := by
  induction xs, ys using alternate.induct with
  | case1 x xs y ys ih =>
    simp only [List.filter_eq_nil_iff, List.forall_mem_cons] at h ih
    rcases h with ⟨hx, hxs⟩ | ⟨hy, hys⟩
    · simp [alternate, List.filter_cons, hx, ih (.inl hxs), List.filter_eq_nil_iff.mpr hxs]
    · simp [alternate, List.filter_cons, hy, ih (.inr hys), List.filter_eq_nil_iff.mpr hys]
  | case2 ys => simp [alternate]
  | case3 xs _ => simp [alternate]

/-- A controller's sequence is its writes at the places from 0 on, the mask only with EXPLICIT_UNMASK (R107). -/
theorem initSequence_eq_map (cfg : Config) (c : Ctrl) (base : Byte) :
    initSequence cfg c base = (List.range (if cfg.explicitUnmask then 5 else 4)).map (remapWrite c base) := by
  unfold initSequence
  cases cfg.explicitUnmask <;> cases c <;> rfl

/-- The port of a write is one of the two of controller `c` (R33). -/
def onPortsOf (c : Ctrl) (w : Half × Byte) : Bool := w.1 == commandPort c || w.1 == dataPort c

/-- A write of a controller's sequence is on that controller's ports and not on the other's (R107). -/
theorem onPortsOf_remapWrite (c c' : Ctrl) (base : Byte) (n : Nat) :
    onPortsOf c (remapWrite c' base n) = decide (c = c') := by
  rcases n with _ | _ | _ | _ | _ <;> cases c <;> cases c' <;> rfl

theorem filter_initSequence (cfg : Config) (c c' : Ctrl) (base : Byte) :
    (initSequence cfg c' base).filter (onPortsOf c) = if c = c' then initSequence cfg c' base else [] := by
  rw [initSequence_eq_map]
  by_cases h : c = c'
  · rw [if_pos h]
    exact List.filter_eq_self.mpr (by simp [onPortsOf_remapWrite, h])
  · rw [if_neg h]
    exact List.filter_eq_nil_iff.mpr (by simp [onPortsOf_remapWrite, h])

/-- Whatever REMAP_ORDER is, a controller's part of PICREMAP's writes is its own sequence in order (R107, R110). -/
theorem filter_remapSequence (cfg : Config) (mb sb : Byte) (c : Ctrl) :
    (remapSequence cfg mb sb).filter (onPortsOf c) = initSequence cfg c (if c = .M then mb else sb) := by
  have parts : (remapSequence cfg mb sb).filter (onPortsOf c) =
      (initSequence cfg .M mb).filter (onPortsOf c) ++ (initSequence cfg .S sb).filter (onPortsOf c) := by
    unfold remapSequence
    cases cfg.remapOrder with
    | controllerMajor => exact List.filter_append ..
    | stepMajor => exact filter_alternate (by cases c <;> simp [filter_initSequence])
  rw [parts, filter_initSequence, filter_initSequence]
  cases c <;> simp

/-- How often PICREMAP writes a port of controller `c` is counted in that controller's sequence (R110). -/
theorem countP_remapSequence (cfg : Config) (mb sb : Byte) (c : Ctrl) {p : Half}
    (hp : p = commandPort c ∨ p = dataPort c) :
    (remapSequence cfg mb sb).countP (fun w => w.1 == p) =
      (initSequence cfg c (if c = .M then mb else sb)).countP (fun w => w.1 == p) := by
  rw [← filter_remapSequence, List.countP_filter]
  refine List.countP_congr fun w _ => ?_
  simp only [onPortsOf, Bool.and_eq_true, Bool.or_eq_true, beq_iff_eq]
  exact ⟨fun hw => ⟨hw, hw ▸ hp⟩, And.left⟩

/-- Without EXPLICIT_UNMASK a controller's sequence is one byte to its command port and three to its data port
(R107). -/
theorem countP_initSequence {cfg : Config} (hu : cfg.explicitUnmask = false) (c : Ctrl) (base : Byte) :
    (initSequence cfg c base).countP (fun w => w.1 == commandPort c) = 1 ∧
      (initSequence cfg c base).countP (fun w => w.1 == dataPort c) = 3 := by
  cases c <;> simp [initSequence, hu, commandPort, dataPort]

/-! ### The flow of a running PICREMAP -/

/-- The flow `f`, which stood before a PICREMAP, after `n` of its writes (R27, R41). -/
def remapFlow (cfg : Config) (f : Frame) (n : Nat) : Frame :=
  if n = 0 then f
  else if n < remapWrites cfg then { f with mu := n, inOp := some .picremap }
  else f.commandDone

theorem remapFlow_inside {cfg : Config} {n : Nat} (f : Frame) (h0 : 0 < n) (hn : n < remapWrites cfg) :
    remapFlow cfg f n = { f with mu := n, inOp := some .picremap } := by
  rw [remapFlow, if_neg h0.ne', if_pos hn]

theorem remapFlow_all (cfg : Config) (f : Frame) : remapFlow cfg f (remapWrites cfg) = f.commandDone := by
  rw [remapFlow, if_neg (by unfold remapWrites; split <;> decide), if_neg (lt_irrefl _)]

theorem remapFlow_mu {cfg : Config} {f : Frame} {n : Nat} (hf : f.mu = 0) (hn : n < remapWrites cfg) :
    (remapFlow cfg f n).mu = n := by
  rcases Nat.eq_zero_or_pos n with rfl | h0
  · exact hf
  · rw [remapFlow_inside f h0 hn]

/-- The flow stays at its command until the last write. -/
theorem remapFlow_fetch {cfg : Config} {n : Nat} (f : Frame) (hn : n < remapWrites cfg) :
    (remapFlow cfg f n).fetch = f.fetch := by
  rcases Nat.eq_zero_or_pos n with rfl | h0
  · rfl
  · rw [remapFlow_inside f h0 hn]
    rfl

/-- A write that is not the last leaves the flow inside the command, the last one completes it (R27, R108). -/
theorem remapFlow_succ {cfg : Config} {f : Frame} {n : Nat} (hf : f.mu = 0) (hn : n < remapWrites cfg) :
    remapFlow cfg f (n + 1) =
      if n + 1 < remapWrites cfg then (remapFlow cfg f n).microDone .picremap
      else (remapFlow cfg f n).commandDone := by
  rcases Nat.eq_zero_or_pos n with rfl | h0
  · simp [remapFlow, Frame.microDone, hf]
  · rw [remapFlow_inside f h0 hn, remapFlow, if_neg n.succ_ne_zero]
    rfl

/-! ### The contexts -/

theorem contextsWithTop_top {f : Frame} {s u : State} (h : contextsWithTop f s u) : u.top = f := by
  obtain ⟨hmain, hirqs⟩ := h
  rw [State.top_congr hmain hirqs, State.setTop_top]

theorem contextsWithTop_setTop {f : Frame} {s u : State} (g : Frame) (h : contextsWithTop f s u) :
    contextsWithTop g s (u.setTop g) := by
  obtain ⟨hmain, hirqs⟩ := h
  simpa only [contextsWithTop, State.setTop_setTop] using State.setTop_congr g hmain hirqs

/-- Replacing the top flow leaves the running context in its program (R128). -/
theorem inProgram_of_contextsWithTop {f : Frame} {s u : State} (h : contextsWithTop f s u) (hs : s.inProgram) :
    u.inProgram := by
  obtain ⟨-, hirqs⟩ := h
  cases hi : s.irqs with
  | nil => exact inProgram_nil (hirqs.trans (State.setTop_irqs_of_nil f s hi))
  | cons k rest =>
    exact (inProgram_cons (hirqs.trans (State.setTop_irqs_of_cons f s k rest hi))).mpr ((inProgram_cons hi).mp hs)

/-! ### One write -/

/-- The write at a place of a controller's sequence, the bytes of R107 spelled out. -/
theorem initSequence_getElem? {cfg : Config} {c : Ctrl} {base : Byte} {j : Nat} {w : Half × Byte}
    (h : (initSequence cfg c base)[j]? = some w) : w = remapWrite c base j ∧ j < 5 := by
  rw [initSequence_eq_map] at h
  obtain ⟨hlt, rfl⟩ := List.getElem?_eq_some_iff.mp h
  have hplaces : (if cfg.explicitUnmask then 5 else 4) ≤ 5 := by split <;> decide
  rw [List.length_map, List.length_range] at hlt
  exact ⟨by simp, hlt.trans_le hplaces⟩

theorem State.setPic_pic (c : Ctrl) (p : Pic) (s : State) : (s.setPic c p).pic c = p := by
  cases c <;> rfl

theorem State.setPic_pic_other {c c' : Ctrl} (h : c' ≠ c) (p : Pic) (s : State) : (s.setPic c p).pic c' = s.pic c' :=
  match c, c', h with
  | .M, .S, _ => rfl
  | .S, .M, _ => rfl
  | .M, .M, h => absurd rfl h
  | .S, .S, h => absurd rfl h

theorem State.setTop_pic (f : Frame) (c : Ctrl) (s : State) : (s.setTop f).pic c = s.pic c := by
  cases c <;> rfl

theorem State.logPort_pic (p : Half) (b : Byte) (c : Ctrl) (s : State) : (s.logPort p b).pic c = s.pic c := by
  cases c <;> rfl

/-- Where every controller stands after `n` writes of a PICREMAP, but for one that has had none of them, which may
stand anywhere (R102, R103). -/
def remapPlaced (cfg : Config) (mb sb : Byte) (n : Nat) (u : State) : Prop :=
  ∀ c, remapDone cfg c mb sb n ≠ 0 → Pic.atInit c (remapDone cfg c mb sb n) (u.pic c)

/-- A write of PICREMAP, where the writes before it have brought the controllers, stops nothing and brings them to the
next place (R107, R108). -/
theorem portWrite_remap {cfg : Config} {mb sb : Byte} {n : Nat} {w : Half × Byte} {u : State}
    (hw : (remapSequence cfg mb sb)[n]? = some w) (hplaced : remapPlaced cfg mb sb n u) :
    (u.portWrite w.1 w.2).fault = u.fault ∧ (u.portWrite w.1 w.2).refused = u.refused ∧
      remapPlaced cfg mb sb (n + 1) (u.portWrite w.1 w.2) := by
  obtain ⟨c, hplace, hsucc, hother⟩ := remapSequence_step cfg mb sb n w hw
  obtain ⟨rfl, hj⟩ := initSequence_getElem? hplace
  obtain ⟨hwrite, hnext⟩ := portWrite_place c _ _ hj u (hplaced c)
  rw [hwrite]
  refine ⟨by simp, by simp, fun c' hne => ?_⟩
  by_cases hc : c' = c
  · subst hc
    rw [State.setPic_pic, hsucc]
    exact hnext
  · rw [hother c' hc] at hne ⊢
    rw [State.setPic_pic_other hc, State.logPort_pic]
    exact hplaced c' hne

/-- PICREMAP's micro-step whose write stops nothing (R27, R108). -/
theorem exec_picremap_of_write {u : State} {mb sb : Byte} {w : Half × Byte}
    (hw : (remapSequence u.cfg mb sb)[u.top.mu]? = some w) (hrun : (u.portWrite w.1 w.2).stopped = false) :
    exec (.picremap mb sb) u = .next ((u.portWrite w.1 w.2).setTop
      (if u.top.mu + 1 < remapWrites u.cfg then u.top.microDone .picremap else u.top.commandDone)) := by
  simp only [exec, execPicremap, hw, remapWrites_length, State.andThen_of_running _ hrun]
  split
  · rw [State.microDone_eq, State.portWrite_top]
  · rw [State.commandDone_eq, State.portWrite_top]

/-! ### A PICREMAP in progress -/

/-- In `s` the running context is about to begin a PICREMAP. -/
structure BeginsRemap (mb sb : Byte) (s : State) : Prop where
  inProgram : s.inProgram
  fetches : ∃ w, s.top.fetch = some w ∧ decode w = .ok (.picremap mb sb)
  mu : s.top.mu = 0

/-- `u` is `s` after `n` writes of the PICREMAP that begins in `s`, and any moves of the other agents that stopped
nothing: they may have changed the controllers' requests. -/
structure RemapAt (mb sb : Byte) (s : State) (n : Nat) (u : State) : Prop where
  canMove : u.canMove
  cfg : u.cfg = s.cfg
  flag : u.IF = s.IF
  contexts : contextsWithTop (remapFlow s.cfg s.top n) s u
  trace : u.trace = s.trace ++ (remapSequence s.cfg mb sb).take n
  placed : remapPlaced s.cfg mb sb n u

section

variable {mb sb : Byte} {s u : State} {n : Nat}

theorem RemapAt.begin (hs : s.canMove) : RemapAt mb sb s 0 s where
  canMove := hs
  cfg := rfl
  flag := rfl
  contexts := (withTopFlow_self rfl rfl rfl rfl).1
  trace := by simp
  placed := fun c hne => absurd (by simp [remapDone]) hne

theorem RemapAt.popChoice (h : RemapAt mb sb s n u) : RemapAt mb sb s n u.popChoice :=
  ⟨h.canMove, h.cfg, h.flag, h.contexts, h.trace, h.placed⟩

/-- The running context's micro-step makes the next write (R108). -/
theorem RemapAt.exec_write (h : RemapAt mb sb s n u) (hs : BeginsRemap mb sb s) (hn : n < remapWrites s.cfg) :
    ∃ t, exec (.picremap mb sb) u = .next t ∧ t.sched = u.sched ∧ RemapAt mb sb s (n + 1) t := by
  have htop : u.top = remapFlow s.cfg s.top n := contextsWithTop_top h.contexts
  have hmu : u.top.mu = n := htop ▸ remapFlow_mu hs.mu hn
  obtain ⟨w, hw⟩ : ∃ w, (remapSequence s.cfg mb sb)[n]? = some w :=
    ⟨_, List.getElem?_eq_getElem (by rwa [remapWrites_length])⟩
  obtain ⟨hf, hr, hplaced⟩ := portWrite_remap hw h.placed
  obtain ⟨hfault, hrefused, hcfg⟩ := h.canMove
  rw [hfault] at hf
  rw [hrefused] at hr
  refine ⟨_, exec_picremap_of_write (by rwa [hmu, h.cfg]) ((State.stopped_false_iff _).mpr ⟨hf, hr⟩), by simp, ?_⟩
  rw [hmu, htop, h.cfg, ← remapFlow_succ hs.mu hn]
  constructor
  case canMove => exact ⟨hf, hr, by simpa using hcfg⟩
  case cfg => simpa using h.cfg
  case flag => simpa using h.flag
  case contexts => exact contextsWithTop_setTop _ (by simpa [contextsWithTop] using h.contexts)
  case trace => simp [h.trace, List.take_add_one, hw]
  case placed => exact fun c' => by rw [State.setTop_pic]; exact hplaced c'

/-- A move of the running context makes the next write (R27, R108). -/
theorem RemapAt.step_run (h : RemapAt mb sb s n u) (hs : BeginsRemap mb sb s) (hn : n < remapWrites s.cfg)
    (hrun : u.nextChoice.isRun = true) :
    ∃ t, step u = .next t ∧ t.sched = u.sched.tail ∧ RemapAt mb sb s (n + 1) t := by
  obtain ⟨w, hfetch, hdecode⟩ := hs.fetches
  have hprogram : u.popChoice.inProgram := inProgram_of_contextsWithTop h.contexts hs.inProgram
  have hword : u.popChoice.top.fetch = some w := by
    rw [State.popChoice_top, contextsWithTop_top h.contexts, remapFlow_fetch _ hn, hfetch]
  obtain ⟨t, hexec, hsched, hnext⟩ := h.popChoice.exec_write hs hn
  refine ⟨t, ?_, hsched, hnext⟩
  rw [step_of_canMove h.canMove, move_of_isRun _ hrun, runTop_of_fetch hprogram hword, State.runWord, hdecode]
  exact hexec

/-! ### The other agents' moves -/

/-- Raising a line leaves a controller where it stands in its sequence (R103, R104). -/
theorem atInit_raiseIrq {c k : Ctrl} {j : Nat} (m : Nat) (h : Pic.atInit c j (u.pic c)) :
    Pic.atInit c j ((u.raiseIrq k m).pic c) := by
  obtain ⟨irr, hraised⟩ : ∃ irr, (u.raiseIrq k m).pic c = { u.pic c with irr := irr } := by
    unfold State.raiseIrq
    cases k with
    | M => cases c <;> (dsimp only; split) <;> exact ⟨_, rfl⟩
    | S => cases c <;> exact ⟨_, rfl⟩
  rw [hraised]
  rcases j with _ | _ | _ | _ | _ <;> exact h

theorem RemapAt.raiseIrq (h : RemapAt mb sb s n u) (k : Ctrl) (m : Nat) : RemapAt mb sb s n (u.raiseIrq k m) := by
  have placed : remapPlaced s.cfg mb sb n (u.raiseIrq k m) := fun c hne => atInit_raiseIrq m (h.placed c hne)
  rw [raiseIrq_eq] at placed ⊢
  exact ⟨h.canMove, h.cfg, h.flag, h.contexts, h.trace, placed⟩

/-- A hardware delivery during PICREMAP faults where `IF` is 1, and else does nothing (R109, R126). -/
theorem hardwareDelivery_of_remapInProgress (h : u.remapInProgress = true) :
    u.hardwareDelivery = u ∨ (u.IF = true ∧ u.hardwareDelivery = u.raise .remapInterrupted) := by
  unfold State.hardwareDelivery
  cases henabled : u.deliveryEnabled with
  | false => exact .inl rfl
  | true =>
    obtain ⟨⟨-, hflag⟩, -⟩ : (u.stopped = false ∧ u.IF = true) ∧ _ := by
      simpa only [State.deliveryEnabled, Bool.and_eq_true, Bool.not_eq_true'] using henabled
    exact .inr ⟨hflag, by simp [h]⟩

/-- Between the first write and the last the running context is inside PICREMAP (R41). -/
theorem RemapAt.remapInProgress (h : RemapAt mb sb s n u) (h0 : 0 < n) (hn : n < remapWrites s.cfg) :
    u.remapInProgress = true := by
  refine (remapInProgress_iff u).mpr ⟨u.top, ?_, ?_⟩
  · rw [State.frames_eq]
    exact List.mem_cons_self
  · rw [contextsWithTop_top h.contexts, remapFlow_inside _ h0 hn]

/-! ### The run from the first write to the last -/

theorem run_succ_of_next {t : State} (k : Nat) (h : step s = .next t) :
    Sys2Proof.core.run (k + 1) s = Sys2Proof.core.run k t := by
  have hstep : Sys2Proof.core.step s = .next t := h
  simp only [Host.Core.run, hstep]

theorem run_succ_of_fault {f : Fault} (k : Nat) (h : s.fault = some f) :
    Sys2Proof.core.run (k + 1) s = .fault f := by
  have hstep : Sys2Proof.core.step s = .fault f := by
    change step s = .fault f
    simp [step, h]
  simp only [Host.Core.run, hstep]

/-- From `u` the moves `between` and one more complete the PICREMAP that begins in `s`, unless a delivery among them
with `IF = 1` is the fault of R109. -/
def EndsRemap (mb sb : Byte) (s : State) (between : List Choice) (u : State) : Prop :=
  (∃ t, Sys2Proof.core.run (between.length + 1) u = .next t ∧ RemapAt mb sb s (remapWrites s.cfg) t) ∨
    (s.IF = true ∧ .deliver ∈ between ∧ Sys2Proof.core.run (between.length + 1) u = .fault .remapInterrupted)

/-- A move that stops nothing may come before such moves. -/
theorem EndsRemap.of_step {c : Choice} {between : List Choice} {t : State} (hstep : step u = .next t)
    (h : EndsRemap mb sb s between t) : EndsRemap mb sb s (c :: between) u := by
  unfold EndsRemap
  rw [List.length_cons, run_succ_of_next _ hstep]
  rcases h with hend | ⟨hflag, hmem, hfault⟩
  · exact .inl hend
  · exact .inr ⟨hflag, List.mem_cons_of_mem c hmem, hfault⟩

/-- A PICREMAP in progress ends with the run that makes its last write, whatever the other agents do before it (R108,
R109). -/
theorem RemapAt.ends_of_sched {k : Nat} {rest : List Choice} (hs : BeginsRemap mb sb s) (between : List Choice) :
    ∀ {n : Nat} {u : State}, RemapAt mb sb s n u → 0 < n → u.sched = between ++ .run k :: rest →
      n + between.countP Choice.isRun + 1 = remapWrites s.cfg → EndsRemap mb sb s between u := by
  induction between with
  | nil =>
    intro n u h _ hsched hcount
    have hlast : n + 1 = remapWrites s.cfg := hcount
    obtain ⟨t, hstep, -, hend⟩ := h.step_run hs (by omega) (by rw [State.nextChoice, hsched]; rfl)
    exact .inl ⟨t, run_succ_of_next 0 hstep, hlast ▸ hend⟩
  | cons c between ih =>
    intro n u h h0 hsched hcount
    have hn : n < remapWrites s.cfg := by omega
    have hchoice : u.nextChoice = c := by rw [State.nextChoice, hsched]; rfl
    have hpopped : u.popChoice.sched = between ++ .run k :: rest := by rw [State.popChoice_sched, hsched]; rfl
    have hmove : step u = u.popChoice.move c := hchoice ▸ step_of_canMove h.canMove
    cases c with
    | run j =>
      obtain ⟨t, hstep, htail, hnext⟩ := h.step_run hs hn (by rw [hchoice]; rfl)
      rw [List.countP_cons_of_pos rfl] at hcount
      exact EndsRemap.of_step hstep (ih hnext n.succ_pos (htail.trans hpopped) (by omega))
    | deliver =>
      rw [List.countP_cons_of_neg (by decide)] at hcount
      rcases hardwareDelivery_of_remapInProgress (h.popChoice.remapInProgress h0 hn) with hidle | ⟨hflag, hraise⟩
      · exact EndsRemap.of_step (hmove.trans (congrArg Host.Outcome.next hidle)) (ih h.popChoice h0 hpopped hcount)
      · refine .inr ⟨h.flag ▸ hflag, List.mem_cons_self, ?_⟩
        rw [List.length_cons, run_succ_of_next _ (hmove.trans (congrArg Host.Outcome.next hraise)),
          run_succ_of_fault _ rfl]
    | raiseLine ctrl line =>
      rw [List.countP_cons_of_neg (by simp [Choice.isRun])] at hcount
      have hraised : (u.popChoice.raiseIrq ctrl line).sched = between ++ .run k :: rest := by
        rw [raiseIrq_eq]; exact hpopped
      exact EndsRemap.of_step hmove (ih (h.popChoice.raiseIrq ctrl line) h0 hraised hcount)

end

/-- Settles O30: the first write, then the moves between and the last write, complete PICREMAP or fault (R109); its
writes are then in the trace, and filtered by a controller's ports they are that controller's sequence. -/
theorem remapPortSubsequences : Obligations.RemapPortSubsequences := by
  unfold Obligations.RemapPortSubsequences
  intro s w mb sb k k' between rest hs hprogram hfetch hdecode hmu hsched hcount
  have hbegins : BeginsRemap mb sb s := ⟨hprogram, ⟨w, hfetch, hdecode⟩, hmu⟩
  have hrunFirst : s.nextChoice.isRun = true := by rw [State.nextChoice, hsched]; rfl
  obtain ⟨u, hfirst, htail, hu⟩ := (RemapAt.begin hs).step_run hbegins (by omega) hrunFirst
  have hends : EndsRemap mb sb s between u :=
    hu.ends_of_sched hbegins between Nat.one_pos (by rw [htail, hsched]; rfl) (by omega)
  have hrun : Sys2Proof.core.run (between.length + 2) s = Sys2Proof.core.run (between.length + 1) u :=
    run_succ_of_next _ hfirst
  rw [hrun]
  refine ⟨fun hquiet => ?_, fun t ht => ?_⟩
  · rcases hends with ⟨t, hend, -⟩ | ⟨hflag, hdeliver, -⟩
    · exact ⟨t, hend⟩
    · rcases hquiet with hoff | hnone
      · simp [hoff] at hflag
      · exact absurd hdeliver hnone
  · rcases hends with ⟨t', hend, hat⟩ | ⟨-, -, hfault⟩
    · obtain rfl : t' = t := Host.Outcome.next.inj (hend.symm.trans ht)
      refine ⟨remapFlow_all s.cfg s.top ▸ hat.contexts, remapSequence s.cfg mb sb, ?_, ?_, ?_,
        fun hu => ⟨?_, ?_, ?_, ?_⟩⟩
      · rw [hat.trace, ← remapWrites_length s.cfg mb sb, List.take_length]
      · exact filter_remapSequence s.cfg mb sb .M
      · exact filter_remapSequence s.cfg mb sb .S
      · exact (countP_remapSequence s.cfg mb sb .M (.inl rfl)).trans (countP_initSequence hu .M _).1
      · exact (countP_remapSequence s.cfg mb sb .M (.inr rfl)).trans (countP_initSequence hu .M _).2
      · exact (countP_remapSequence s.cfg mb sb .S (.inl rfl)).trans (countP_initSequence hu .S _).1
      · exact (countP_remapSequence s.cfg mb sb .S (.inr rfl)).trans (countP_initSequence hu .S _).2
    · exact absurd (hfault.symm.trans ht) nofun

end Sys2Proof.Machine
end

section
/-!
PROOFS. 60_exceptions.md: a recorded stop holds every agent and is no successful end of a run (R120), and the return
from a trap (R128, R129).
-/

namespace Sys2Proof.Machine

/-! ### A stopped machine -/

/-- A recorded fault is what the step answers, whatever else the state holds (R40, R120). -/
theorem step_of_fault {s : State} {f : Fault} (hf : s.fault = some f) : step s = .fault f := by
  simp [step, hf]

/-- Only a machine that nothing has stopped takes a step (R40, R120). -/
theorem stopped_of_step_eq_next {s t : State} (h : step s = .next t) : s.stopped = false := by
  obtain ⟨hf, hr, -⟩ := step_cases h
  exact (State.stopped_false_iff s).mpr ⟨hf, hr⟩

/-- A successful end of a run has no stop recorded (R120, R144). -/
theorem stopped_of_quiescent {s : State} (h : s.quiescent = true) : s.stopped = false := by
  simp only [State.quiescent, Bool.and_eq_true, Option.isNone_iff_eq_none] at h
  obtain ⟨⟨-, hf⟩, hr⟩ := h
  exact (State.stopped_false_iff s).mpr ⟨hf, hr⟩

theorem quiescent_of_stopped {s : State} (h : s.stopped = true) : s.quiescent = false :=
  Bool.eq_false_iff.mpr fun hq => by simp [stopped_of_quiescent hq] at h

theorem stopped_of_fault {s : State} {f : Fault} (hf : s.fault = some f) : s.stopped = true := by
  simp [State.stopped, hf]

theorem stopped_of_refused {s : State} {r : Refusal} (hr : s.refused = some r) : s.stopped = true := by
  simp [State.stopped, hr]

/-- Settles O10: the step looks at the recorded fault first and the refusal next; a next state, and a quiescent one,
need neither to be recorded. -/
theorem stoppedStaysStopped : Obligations.StoppedStaysStopped := by
  unfold Obligations.StoppedStaysStopped
  refine ⟨rfl, rfl, fun s f hf => ⟨step_of_fault hf, quiescent_of_stopped (stopped_of_fault hf)⟩, fun s r hr => ?_⟩
  have hstopped : s.stopped = true := stopped_of_refused hr
  refine ⟨fun hf => step_of_refused hf hr, fun t ht => ?_, quiescent_of_stopped hstopped⟩
  simp [stopped_of_step_eq_next ht] at hstopped

/-! ### The return from a trap -/

/-- In the `ret` phase the running context's move is the return (R128). -/
theorem runTop_of_ret {s : State} {k : IrqContext} {rest : List IrqContext} (hi : s.irqs = k :: rest)
    (hret : k.phase = .ret) : s.runTop = .next s.interruptReturn := by
  simp [State.runTop, hi, hret]

/-- The step that returns from a trap: beside the schedule and its pick, only `IF`, the privileged-operation trace and
the interrupt contexts change (R129). -/
theorem step_of_ret {s : State} {k : IrqContext} {rest : List IrqContext} (hs : s.canMove)
    (hrun : s.nextChoice.isRun = true) (hi : s.irqs = k :: rest) (hret : k.phase = .ret) :
    step s = .next { s.popChoice with
      IF := k.savedIF, ptrace := s.ptrace ++ [.iret k.savedIF], irqs := rest } := by
  have hpopped : s.popChoice.irqs = k :: rest := hi
  rw [step_of_canMove hs, move_of_isRun _ hrun, runTop_of_ret hpopped hret, interruptReturn_cons _ k rest hpopped]
  rfl

/-- Settles O45: the step is the return, and its next state is the state before it in every field but `IF`, the
privileged-operation trace, the interrupt contexts, the schedule and its pick. -/
theorem trapReturn : Obligations.TrapReturn := by
  unfold Obligations.TrapReturn
  intro s k rest hs hrun hi hret
  exact ⟨_, step_of_ret hs hrun hi hret, rfl, rfl, rfl, rfl,
    fun _ => rfl, rfl, ⟨rfl, rfl⟩, ⟨rfl, rfl⟩, rfl, ⟨rfl, rfl⟩⟩

end Sys2Proof.Machine
end

section
/-!
PROOFS. 30_encoding.md: decoding and encoding agree, which words are illegal, and commands as bytes (R78 to R83); and a
step that runs, refuses or passes the word at the running context's `pc` (R27, R81, R144).
-/

namespace Sys2Proof.Machine

/-! ### Words -/

/-- The word of a command decodes to it (R79). -/
theorem decode_encode (i : Instr) : decode (encode i) = .ok i := by
  rw [decode_eq_ok_iff, encode, CmdFields.ofWord_toWord]

/-- Settles O1: the fields of a command's word are the command's own. -/
theorem decodeOfEncode : Obligations.DecodeOfEncode := by
  unfold Obligations.DecodeOfEncode
  exact fun i _ => decode_encode i

/-- Settles O2: a word that decodes has the fields of its command, and a word is the word of its fields. -/
theorem encodeOfDecode : Obligations.EncodeOfDecode := by
  unfold Obligations.EncodeOfDecode
  intro w i h
  rw [encode, ← (decode_eq_ok_iff w i).mp h, CmdFields.toWord_ofWord]

/-- Settles O5. -/
theorem sampleWordsDecode : Obligations.SampleWordsDecode := by
  unfold Obligations.SampleWordsDecode
  decide

/-! ### Illegal words -/

/-- The opcode map has ten rows (R79). -/
theorem op_of_fieldUse {op : Byte} (h : (fieldUse op).isSome = true) :
    op = 0x01 ∨ op = 0x02 ∨ op = 0x03 ∨ op = 0x10 ∨ op = 0x11 ∨ op = 0x20 ∨ op = 0x21 ∨ op = 0x30 ∨ op = 0x31 ∨
      op = 0x32 := by
  revert op
  decide

/-- No field that the map lists as "0" is nonzero (R81). -/
def unusedFieldsZero (u : FieldUse) (f : CmdFields) : Prop :=
  (u.a = false → f.a = 0) ∧ (u.b = false → f.b = 0) ∧ (u.c = false → f.c = 0)

/-- The fields of some command are those whose `op` is in the map, whose `rsv` is 0 and whose unused fields are 0
(R79, R81). -/
theorem exists_fields_iff (f : CmdFields) :
    (∃ i : Instr, f = i.fields) ↔ ∃ u, fieldUse f.op = some u ∧ f.rsv = 0 ∧ unusedFieldsZero u f := by
  constructor
  · rintro ⟨i, rfl⟩
    cases i <;> exact ⟨_, rfl, rfl, by simp [unusedFieldsZero, Instr.fields]⟩
  · rintro ⟨u, hu, hrsv, ha, hb, hc⟩
    obtain ⟨op, a, b, c, rsv⟩ := f
    obtain rfl : rsv = 0 := hrsv
    simp only at hu ha hb hc
    rcases op_of_fieldUse (by rw [hu]; rfl) with rfl | rfl | rfl | rfl | rfl | rfl | rfl | rfl | rfl | rfl <;> cases hu
    · exact ⟨.cinit, by rw [ha rfl, hb rfl, hc rfl]; rfl⟩
    · exact ⟨.setcolor a, by rw [hb rfl, hc rfl]; rfl⟩
    · exact ⟨.putchar a, by rw [hb rfl, hc rfl]; rfl⟩
    · exact ⟨.idtbuild, by rw [ha rfl, hb rfl, hc rfl]; rfl⟩
    · exact ⟨.idtreg a c b, rfl⟩
    · exact ⟨.picremap a b, by rw [hc rfl]; rfl⟩
    · exact ⟨.piceoi, by rw [ha rfl, hb rfl, hc rfl]; rfl⟩
    · exact ⟨.cli, by rw [ha rfl, hb rfl, hc rfl]; rfl⟩
    · exact ⟨.sti, by rw [ha rfl, hb rfl, hc rfl]; rfl⟩
    · exact ⟨.swint a, by rw [hb rfl, hc rfl]; rfl⟩

/-- The running context's next word is run, or refused where it is illegal (R27, R81). -/
theorem step_of_fetch {s : State} {w : CmdWord} (hs : s.canMove) (hrun : s.nextChoice.isRun = true)
    (hp : s.inProgram) (hf : s.top.fetch = some w) : step s = s.popChoice.runWord w := by
  rw [step_of_canMove hs, move_of_isRun _ hrun, runTop_of_fetch (s := s.popChoice) hp hf]

/-- Settles O3: a word decodes exactly when its fields are some command's; the step at another word is `runWord`'s
refusal. -/
theorem illegalWordRefused : Obligations.IllegalWordRefused := by
  unfold Obligations.IllegalWordRefused
  intro w
  refine ⟨?_, fun s hs hrun hp hf hill => ⟨?_, step_of_refused hs.1 rfl, rfl⟩⟩
  · simp only [ne_eq, decode_eq_ok_iff, ← not_exists]
    rw [exists_fields_iff]
    cases hu : fieldUse (CmdFields.ofWord w).op with
    | none => simp
    | some u =>
      simp only [Option.some.injEq, exists_eq_left', unusedFieldsZero, reduceCtorEq, false_or]
      tauto
  · rw [step_of_fetch hs hrun hp hf, State.runWord]
    cases hd : decode w with
    | error e => rfl
    | ok i => exact absurd hd (hill i)

/-! ### Bytes -/

/-- Settles O4: eight little-endian bytes give the word back, and the word gives the command back. -/
theorem byteStreamDecodes : Obligations.ByteStreamDecodes := by
  unfold Obligations.ByteStreamDecodes
  refine ⟨fun i rest => ?_, fun bs hbs => if_pos hbs⟩
  have hlen : (encodeBytes i).length = 8 := leBytes_length 8 _
  have hvalue : leValue (encodeBytes i) = (encode i).toNat := by
    rw [encodeBytes, leValue_leBytes]
    exact Nat.mod_eq_of_lt (encode i).isLt
  have htake : (encodeBytes i ++ rest).take 8 = encodeBytes i := List.take_left' hlen
  have hdrop : (encodeBytes i ++ rest).drop 8 = rest := List.drop_left' hlen
  have hlong : ¬ (encodeBytes i ++ rest).length < 8 := by rw [List.length_append]; omega
  refine ⟨hlen, ?_⟩
  rw [decodeBytes, if_neg hlong, htake, hdrop, hvalue, BitVec.ofNat_toNat, BitVec.setWidth_eq, decode_encode]

/-! ### A step of the running context -/

/-- Settles O8. -/
theorem stepRunsDecoded : Obligations.StepRunsDecoded := by
  unfold Obligations.StepRunsDecoded
  intro s w i hs hrun hp hf hd
  rw [step_of_fetch hs hrun hp hf, State.runWord, hd]

/-- A finished flow has no next word (R27). -/
theorem fetch_of_finished {f : Frame} (h : f.pc = f.prog.length) : f.fetch = none :=
  List.getElem?_eq_none (Nat.le_of_eq h.symm)

/-- Settles O12: the finished main context fetches nothing, so its move leaves the state. -/
theorem finishedMainIdles : Obligations.FinishedMainIdles := by
  unfold Obligations.FinishedMainIdles
  intro s hs hrun hi hpc
  obtain ⟨hfault, hrefused, -⟩ := id hs
  refine ⟨?_, ?_⟩
  · rw [step_of_canMove hs, move_of_isRun _ hrun]
    simp [State.runTop, hi, fetch_of_finished hpc]
  · simp [State.quiescent, Frame.finished, hi, hpc, hfault, hrefused]

/-- Settles O9: each value is the one `launch` gives. -/
theorem launchState : Obligations.LaunchState := by
  unfold Obligations.LaunchState
  intro cfg prog
  exact ⟨rfl, rfl, rfl, rfl, rfl, rfl, rfl, rfl, fun c => by cases c <;> exact ⟨rfl, rfl, rfl⟩, rfl, rfl, rfl, rfl,
    fun _ => rfl⟩

end Sys2Proof.Machine
end

section
/-!
PROOFS. 10_state.md: where every context stands after a step (R27, R28, R41), and what follows for the Console race
(R90) and for the nesting (R28, R130).
-/

namespace Sys2Proof.Machine

/-! ### `mu` and `inOp` -/

/-- A flow that ran a micro-step of the command at its `pc` stays in step (R27, R41). -/
theorem Frame.inStep_of_flowAfter {f g : Frame} {w : CmdWord} {i : Instr} (hf : f.inStep) (hw : f.fetch = some w)
    (hd : decode w = .ok i) (h : flowAfter i.kind f g) : g.inStep := by
  rcases h with rfl | ⟨hprog, hpc, hmu, hop⟩ | rfl
  · exact hf
  · refine .inr ⟨by omega, w, i, ?_, hd, hop⟩
    rw [Frame.fetch, hprog, hpc]
    exact hw
  · exact .inl ⟨rfl, rfl⟩

theorem Frame.inStep_atCommand (f : Frame) (n : Nat) : (f.atCommand n).inStep := .inl ⟨rfl, rfl⟩

theorem Frame.inStep_start (prog : List CmdWord) : (Frame.start prog).inStep := .inl ⟨rfl, rfl⟩

/-- In a program the running flow is in step as its context is. -/
theorem State.inStep_top {s : State} (h : s.inStep) (hp : s.inProgram) : s.top.inStep := by
  obtain ⟨hmain, hirqs⟩ := h
  cases hi : s.irqs with
  | nil => rwa [State.top_nil s hi]
  | cons k rest =>
    have hk : k.inStep := hirqs k (hi ▸ List.mem_cons_self)
    rw [State.top_cons s k rest hi]
    simpa only [IrqContext.inStep, (inProgram_cons hi).1 hp] using hk

/-- Replacing the running program's flow by one in step. -/
theorem State.inStep_of_contextsWithTop {s t : State} {g : Frame} (h : s.inStep) (hp : s.inProgram)
    (hc : contextsWithTop g s t) (hg : g.inStep) : t.inStep := by
  obtain ⟨hmain, hirqs⟩ := h
  obtain ⟨htmain, htirqs⟩ := hc
  cases hi : s.irqs with
  | nil =>
    rw [State.setTop_main_of_nil g s hi] at htmain
    rw [State.setTop_irqs_of_nil g s hi] at htirqs
    exact ⟨htmain ▸ hg, by simp [htirqs]⟩
  | cons k rest =>
    rw [State.setTop_main_of_cons g s k rest hi] at htmain
    rw [State.setTop_irqs_of_cons g s k rest hi] at htirqs
    rw [hi] at hirqs
    refine ⟨htmain ▸ hmain, fun j hj => ?_⟩
    rw [htirqs] at hj
    rcases List.mem_cons.1 hj with rfl | hj
    · simpa only [IrqContext.inStep, (inProgram_cons hi).1 hp] using hg
    · exact hirqs j (List.mem_cons_of_mem k hj)

/-- Replacing the top interrupt context, the contexts below it as they were. -/
theorem State.inStep_of_irqs {s t : State} {k j : IrqContext} {rest : List IrqContext} (h : s.inStep)
    (hi : s.irqs = k :: rest) (hmain : t.main = s.main) (hirqs : t.irqs = j :: rest) (hj : j.inStep) : t.inStep := by
  obtain ⟨hs, hrest⟩ := h
  rw [hi] at hrest
  refine ⟨hmain ▸ hs, fun x hx => ?_⟩
  rw [hirqs] at hx
  rcases List.mem_cons.1 hx with rfl | hx
  · exact hj
  · exact hrest x (List.mem_cons_of_mem k hx)

/-- A delivery pushes a context that is in step (R126). -/
theorem State.inStep_deliver {s : State} (v : Byte) (h : s.inStep) : (s.deliver v).inStep := by
  rcases deliver_cases v s with ⟨f, hf, -⟩ | ⟨_, p, b, -, -, -, hpush⟩
  · rw [hf]; exact h
  · rw [hpush]
    obtain ⟨hmain, hirqs⟩ := h
    refine ⟨hmain, fun k hk => ?_⟩
    rcases List.mem_cons.1 hk with rfl | hk
    · exact Frame.inStep_start p
    · exact hirqs k hk

/-- Settles O47: the running flow moves as `flowAfter` says, the trampoline as its phases, a delivery pushes a flow at
its start and a return takes one off. -/
theorem inStepKept : Obligations.InStepKept := by
  unfold Obligations.InStepKept
  intro s t hs hstep
  obtain ⟨-, h⟩ := step_contexts hstep
  rcases h with ⟨hmain, hirqs, -⟩ | ⟨w, i, g, -, hp, hw, hd, -, hflow, hc⟩ | ⟨w, v, -, hp, hw, hd, rfl⟩ |
    ⟨c, n, -, -, -, rfl⟩ | ⟨k, rest, hi, hbody, -, rfl⟩ | ⟨k, rest, hi, heoi, rfl⟩ | ⟨k, rest, hi, hret, rfl⟩
  · unfold State.inStep
    rwa [hmain, hirqs]
  · exact State.inStep_of_contextsWithTop hs hp hc (Frame.inStep_of_flowAfter (State.inStep_top hs hp) hw hd hflow)
  · have hbefore : contextsWithTop s.top.commandDone s ((s.popChoice.logEvent (.int v)).commandDone) :=
      (swint_before v s.popChoice).1
    exact State.inStep_deliver v (State.inStep_of_contextsWithTop hs hp hbefore (Frame.inStep_atCommand _ _))
  · refine State.inStep_deliver _ ?_
    rw [acknowledge_eq]
    exact hs
  · rw [setPhase_cons _ s.popChoice k rest hi]
    exact State.inStep_of_irqs hs hi rfl rfl (j := { k with phase := .eoi, frame := _ }) (.inl ⟨rfl, rfl⟩)
  · obtain ⟨hmain, -, -, -, -, -, -, hirqs | hirqs | hirqs⟩ := trampolineEoi_contexts (s := s.popChoice) hi
    · unfold State.inStep
      rw [hmain, hirqs]
      exact hs
    · refine State.inStep_of_irqs hs hi hmain hirqs ?_
      simp [IrqContext.inStep, heoi]
    · exact State.inStep_of_irqs hs hi hmain hirqs ⟨rfl, rfl⟩
  · rw [interruptReturn_cons s.popChoice k rest hi]
    obtain ⟨hmain, hirqs⟩ := hs
    exact ⟨hmain, fun j hj => hirqs j (hi ▸ List.mem_cons_of_mem k hj)⟩

/-! ### The nesting -/

/-- Settles O50: only a delivery pushes a context, and only below MAX_NEST (R126). -/
theorem nestingKept : Obligations.NestingKept := by
  unfold Obligations.NestingKept
  intro s t hs hstep
  have deliver_nestOk : ∀ (v : Byte) (u : State), u.cfg = s.cfg → u.irqs.length ≤ s.cfg.maxNest →
      (u.deliver v).irqs.length ≤ s.cfg.maxNest := by
    intro v u hcfg hu
    rcases deliver_contexts v u with ⟨hirqs, -⟩ | ⟨_, p, -, hroom, hirqs, -⟩ <;> rw [hirqs]
    · exact hu
    · rw [hcfg] at hroom
      exact hroom
  obtain ⟨hcfg, h⟩ := step_contexts hstep
  unfold State.nestOk at hs ⊢
  rw [hcfg]
  rcases h with ⟨-, hirqs, -⟩ | ⟨w, i, g, -, -, -, -, -, -, hc⟩ | ⟨w, v, -, -, -, -, rfl⟩ |
    ⟨c, n, -, -, -, rfl⟩ | ⟨k, rest, hi, -, -, rfl⟩ | ⟨k, rest, hi, -, rfl⟩ | ⟨k, rest, hi, -, rfl⟩
  · rwa [hirqs]
  · rw [hc.2, State.setTop_irqs_length]
    exact hs
  · refine deliver_nestOk v _ rfl ?_
    rw [State.commandDone_eq, State.setTop_irqs_length]
    exact hs
  · exact deliver_nestOk _ _ (by rw [acknowledge_eq]; rfl) (by rw [acknowledge_eq]; exact hs)
  · rw [setPhase_cons _ s.popChoice k rest hi]
    rwa [hi] at hs
  · obtain ⟨-, -, -, -, -, -, -, hirqs⟩ := trampolineEoi_contexts (s := s.popChoice) hi
    rw [hi] at hs
    rcases hirqs with hirqs | hirqs | hirqs <;> rw [hirqs]
    · exact hi ▸ hs
    · exact hs
    · exact hs
  · rw [interruptReturn_cons s.popChoice k rest hi]
    rw [hi] at hs
    exact Nat.le_of_succ_le hs

end Sys2Proof.Machine
end

section
/-!
PROOFS. 41_console.md: the micro-steps of CINIT, SETCOLOR and PUTCHAR from any state, under either race model (R90 to
R95).
-/

namespace Sys2Proof.Machine

/-! ### The running flow replaced -/

theorem contextsWithTop_of_setTop {s u : State} (f : Frame) (hm : u.main = s.main) (hi : u.irqs = s.irqs) :
    contextsWithTop f s (u.setTop f) := State.setTop_congr f hm hi

/-! ### The start of a Console command -/

/-- A Console command goes on where `fault` sees no race (R90). -/
theorem startConsole_of_noRace {s : State} (k : Kind) (f : State → State)
    (h : s.cfg.raceModel = .fault → noConsoleBelow s) : s.startConsole k f = f s := by
  rcases startConsole_cases k f s with ⟨k', hr, hp, -⟩ | ⟨-, hgo⟩
  · rw [(preemptedConsole_eq_none_iff s).2 (h hr)] at hp
    exact absurd hp nofun
  · exact hgo

/-- SETCOLOR and PUTCHAR go on where `fault` sees no race and the console is ready (R92, R93). -/
theorem startReady_of_ready {s : State} (k : Kind) (f : State → State)
    (h : s.cfg.raceModel = .fault → noConsoleBelow s) (hready : s.con.ready = true) : s.startReady k f = f s := by
  rw [State.startReady, startConsole_of_noRace k _ h, if_pos hready]

/-- They record CONSOLE_NOT_READY where `fault` sees no race and it is not (R92, R93). -/
theorem startReady_of_not_ready {s : State} (k : Kind) (f : State → State)
    (h : s.cfg.raceModel = .fault → noConsoleBelow s) (hready : s.con.ready = false) :
    s.startReady k f = s.raise (.consoleNotReady k) := by
  rw [State.startReady, startConsole_of_noRace k _ h, if_neg (by simp [hready])]

/-- A race is recorded with the kind of a Console command some context below is inside (R90). -/
theorem startConsole_of_race {s : State} (k : Kind) (f : State → State) (hr : s.cfg.raceModel = .fault)
    (h : ¬ noConsoleBelow s) :
    ∃ g ∈ s.below, ∃ k', g.inOp = some k' ∧ k'.isConsole = true ∧
      s.startConsole k f = s.raise (.consoleRace k' k) := by
  rcases startConsole_cases k f s with ⟨k', -, hp, hrace⟩ | ⟨hnone, -⟩
  · obtain ⟨g, hg, hop, hk⟩ := preemptedConsole_some hp
    exact ⟨g, hg, k', hop, hk, hrace⟩
  · exact absurd ((preemptedConsole_eq_none_iff s).1 (hnone hr)) h

/-! ### One equation per micro-step -/

/-- CINIT's four register stores as one micro-step (R91 `m0`). -/
theorem exec_cinit_start {s : State} (hr : s.cfg.raceModel = .fault) (hmu : s.top.mu = 0) (hb : noConsoleBelow s) :
    exec .cinit s = .next (({ s with con := initialConsole s.cfg } : State).microDone .cinit) := by
  simp only [exec, execCinit, hr, State.cinitMicro, hmu]
  rw [startConsole_of_noRace _ _ fun _ => hb]

/-- After its register stores CINIT writes its cells (R91, R95). -/
theorem exec_cinit_cell {s : State} (i : Nat) (hmu : s.top.mu = i + if s.cfg.raceModel = .fault then 1 else 4) :
    exec .cinit s = .next (s.initCell i) := by
  cases hr : s.cfg.raceModel with
  | fault =>
    rw [if_pos hr] at hmu
    simp only [exec, execCinit, hr, State.cinitMicro, hmu]
  | interleave =>
    rw [if_neg (by simp [hr])] at hmu
    have hlen : initStores.length = 4 := rfl
    simp only [exec, execCinit, hr, State.cinitInterleaved, hmu, hlen]
    rw [if_neg (by omega), Nat.add_sub_cancel]

theorem exec_setcolor {s : State} (a : Byte) (h : s.cfg.raceModel = .fault → noConsoleBelow s)
    (hready : s.con.ready = true) :
    exec (.setcolor a) s = .next (({ s with con := s.con.setAttr a } : State).commandDone) := by
  rw [exec, execSetcolor, startReady_of_ready _ _ h hready]

/-- PUTCHAR's three reads as one micro-step (R93 `m0`). -/
theorem exec_putchar_start {s : State} (ch : Byte) (hr : s.cfg.raceModel = .fault) (hmu : s.top.mu = 0)
    (hb : noConsoleBelow s) (hready : s.con.ready = true) :
    exec (.putchar ch) s = .next (s.readCursor.microDone .putchar) := by
  simp only [exec, execPutchar, hr, State.putcharMicro, hmu]
  rw [startReady_of_ready _ _ (fun _ => hb) hready]

/-- PUTCHAR's glyph under `fault` (R93 `m1`). -/
theorem exec_putchar_glyph {s : State} (ch : Byte) (hr : s.cfg.raceModel = .fault) (hmu : s.top.mu = 1) :
    exec (.putchar ch) s = .next ((s.writeGlyph ch).microDone .putchar) := by
  simp only [exec, execPutchar, hr, State.putcharMicro, hmu]

/-- PUTCHAR's cursor under `fault` (R93 `m2`). -/
theorem exec_putchar_advance {s : State} (ch : Byte) (hr : s.cfg.raceModel = .fault) (hmu : 2 ≤ s.top.mu) :
    exec (.putchar ch) s = .next s.advanceCursor.commandDone := by
  obtain ⟨n, hn⟩ := Nat.exists_eq_add_of_le' hmu
  simp only [exec, execPutchar, hr, State.putcharMicro, hn]

/-- PUTCHAR's glyph under `interleave`, with its range check (R95 `u4`). -/
theorem exec_putchar_checked {s : State} (ch : Byte) (hr : s.cfg.raceModel = .interleave) (hmu : s.top.mu = 3) :
    exec (.putchar ch) s = .next (s.checkedGlyph ch) := by
  have hlen : cursorReads.length = 3 := rfl
  simp only [exec, execPutchar, hr, State.putcharInterleaved, hmu, hlen]
  rfl

/-- PUTCHAR's cursor stores under `interleave` (R95 `u5..u7`). -/
theorem exec_putchar_store {s : State} (ch : Byte) (hr : s.cfg.raceModel = .interleave) (hmu : 4 ≤ s.top.mu) :
    exec (.putchar ch) s = .next s.cursorStoreMicro := by
  have hlen : cursorReads.length = 3 := rfl
  simp only [exec, execPutchar, hr, State.putcharInterleaved, hlen]
  rw [if_neg (by omega), if_neg (by omega)]

/-! ### CINIT -/

/-- The cell CINIT writes, and where it leaves the command (R91). -/
theorem initCell_eq {i : Nat} (s : State) (h : i < CELLS) :
    s.initCell i = (s.storeCell i (blankCell s.cfg)).setTop
      (if i = 1999 then s.top.commandDone else s.top.microDone .cinit) := by
  rw [State.initCell]
  by_cases hlast : i = 1999
  · subst hlast
    rfl
  · rw [if_pos (by simp only [CELLS] at *; omega), if_neg hlast]
    rfl

/-- A written cell reads as the value written (R36, R48). -/
theorem cellAt_storeCell (s : State) (i : Nat) (v : Half) : (s.storeCell i v).cellAt i = some v := by
  simp only [State.cellAt, State.storeCell, State.memWrite_cfg, memRead_memWrite_same]
  rw [Nat.mod_eq_of_lt (show v.toNat < 256 ^ 2 from v.isLt), Option.map_some, BitVec.ofNat_toNat, BitVec.setWidth_eq]

/-- Settles O15: the register stores are `doesInit` of the one the run picks, and a cell is one store of two bytes. -/
theorem cinitMicroSteps : Obligations.CinitMicroSteps := by
  unfold Obligations.CinitMicroSteps
  refine ⟨fun s hr hmu hb => ?_, fun s hr hmu => ⟨fun m hm => ?_, fun ⟨m, hm⟩ => ?_⟩, fun s i hi hmu => ?_⟩
  · exact ⟨_, exec_cinit_start hr hmu hb, rfl, contextsWithTop_of_setTop _ rfl rfl, fun _ => rfl, ⟨rfl, rfl⟩,
      ⟨rfl, rfl⟩, rfl, rfl, rfl, ⟨rfl, rfl⟩, ⟨rfl, rfl⟩⟩
  · obtain ⟨k, hk⟩ := exists_pickFrom ((initLeft_iff s m).1 hm)
    exact ⟨k, _, exec_cinit_store hr hmu hk, initStore_doesInit k hm⟩
  · obtain ⟨n, hn, hpick⟩ := pickFrom_of_mem ((initLeft_iff s m).1 hm) s.pick
    have hleft : initLeft s n := (initLeft_iff s n).2 hn
    exact ⟨n, _, hleft, exec_cinit_store hr hmu hpick, initStore_doesInit s.pick hleft⟩
  · refine ⟨_, exec_cinit_cell i hmu, ?_⟩
    rw [initCell_eq s hi]
    refine ⟨cellAt_storeCell s i _, ?_, contextsWithTop_of_setTop _ rfl rfl, rfl, ⟨rfl, rfl⟩, ⟨rfl, rfl⟩, rfl, rfl, rfl,
      ⟨rfl, rfl⟩, ⟨rfl, rfl⟩⟩
    exact keepsMemoryOutside_memWrite s (cellAddrOf s.cfg i) CELL_BYTES _

/-! ### SETCOLOR -/

/-- Settles O17: SETCOLOR goes on past its checks. -/
theorem setcolorCompletes : Obligations.SetcolorCompletes := by
  unfold Obligations.SetcolorCompletes
  intro s a hready hb
  exact ⟨_, exec_setcolor a hb hready, rfl, contextsWithTop_of_setTop _ rfl rfl, fun _ => rfl, ⟨rfl, rfl⟩, ⟨rfl, rfl⟩,
    rfl, rfl, rfl, ⟨rfl, rfl⟩, ⟨rfl, rfl⟩⟩

/-! ### PUTCHAR -/

/-- The glyph stands in the two bytes of the cell that was read, and no other byte changes (R93, R95). -/
theorem writeGlyph_reads (ch : Byte) (s : State) :
    (s.writeGlyph ch).memRead (cellAddr s.cfg s.top.row s.top.col) 2 = some (glyphCell ch s.top.attr).toNat ∧
      keepsMemoryOutside (cellAddr s.cfg s.top.row s.top.col) 2 s (s.writeGlyph ch) := by
  refine ⟨?_, keepsMemoryOutside_memWrite s _ CELL_BYTES _⟩
  rw [State.writeGlyph, memRead_memWrite_same]
  exact congrArg some (Nat.mod_eq_of_lt (glyphCell ch s.top.attr).isLt)

theorem checkedGlyph_of_onScreen {s : State} (ch : Byte) (hrow : s.top.row < 25) (hcol : s.top.col < 80) :
    s.checkedGlyph ch = (s.writeGlyph ch).microDone .putchar := by
  rw [State.checkedGlyph, if_neg (by simp only [ROWS, COLS]; omega)]

theorem checkedGlyph_of_offScreen {s : State} (ch : Byte) (h : 25 ≤ s.top.row ∨ 80 ≤ s.top.col) :
    s.checkedGlyph ch = s.raise (.cursorOutOfRange s.top.row s.top.col) := by
  rw [State.checkedGlyph, if_pos h]

/-- Settles O22. -/
theorem putcharOutOfRange : Obligations.PutcharOutOfRange := by
  unfold Obligations.PutcharOutOfRange
  intro s ch hr hmu hout
  rw [exec_putchar_checked ch hr hmu, checkedGlyph_of_offScreen ch hout]
  rfl

/-- What the model lists as the stores left is R95's. -/
theorem storeLeft_iff (s : State) (m : Micro) :
    storeLeft s m ↔ m ∈ cursorStoresLeft s.cfg.exposeIntermediateColumn s.top.done := by
  unfold storeLeft cursorStoresLeft
  cases s.cfg.exposeIntermediateColumn <;> cases m <;> simp

/-- The Console registers a cursor store leaves, and that it leaves everything else (R95 `u5..u7`). -/
theorem cursorStore_eq {s : State} {m : Micro} (h : storeLeft s m) : s.cursorStore m =
    { s with con := storedConsole s.cfg.exposeIntermediateColumn s.top.row s.top.col m s.con } := by
  obtain ⟨-, rfl | rfl | ⟨rfl, hexpose, -⟩⟩ := h
  · unfold State.cursorStore storedConsole
    cases s.cfg.exposeIntermediateColumn <;> rfl
  · unfold State.cursorStore storedConsole
    cases s.cfg.exposeIntermediateColumn
    · by_cases hrow : (nextCursor s.top.row s.top.col).1 = s.top.row <;> simp [hrow, Console.setRow]
    · by_cases hcol : s.top.col + 1 = 80 <;> simp [hcol, Console.setRow, COLS, ROWS]
  · unfold State.cursorStore storedConsole
    rw [hexpose]
    by_cases hcol : s.top.col + 1 = 80 <;> simp [hcol, Console.setCol, COLS]

/-- The flow that a cursor store leaves (R95). -/
def storedFlow (cfg : Config) (m : Micro) (f : Frame) : Frame :=
  if f.mu + 1 < putcharSteps cfg.exposeIntermediateColumn then { f.microDone .putchar with done := m :: f.done }
  else f.commandDone

/-- The cursor store that the run picks (R95 `u5..u7`). -/
theorem cursorStoreMicro_eq {s : State} {m : Micro} (h : storeLeft s m)
    (hpick : pickFrom (cursorStoresLeft s.cfg.exposeIntermediateColumn s.top.done) s.pick = some m) :
    s.cursorStoreMicro =
      ({ s with con := storedConsole s.cfg.exposeIntermediateColumn s.top.row s.top.col m s.con } : State).setTop
        (storedFlow s.cfg m s.top) := by
  simp only [State.cursorStoreMicro, hpick, cursorStore_eq h, storedFlow]
  split <;> rfl

theorem exec_putchar_doesStore {s : State} {m : Micro} {k : Nat} (ch : Byte) (hr : s.cfg.raceModel = .interleave)
    (hmu : 4 ≤ s.top.mu) (h : storeLeft s m)
    (hpick : pickFrom (cursorStoresLeft s.cfg.exposeIntermediateColumn s.top.done) k = some m) :
    ∃ t, exec (.putchar ch) { s with pick := k } = .next t ∧ doesStore m s t := by
  refine ⟨_, exec_putchar_store (s := { s with pick := k }) ch hr hmu, ?_⟩
  rw [cursorStoreMicro_eq (s := { s with pick := k }) h hpick]
  exact ⟨rfl, contextsWithTop_of_setTop _ rfl rfl, fun _ => rfl, ⟨rfl, rfl⟩, ⟨rfl, rfl⟩, rfl, rfl, rfl, ⟨rfl, rfl⟩,
    ⟨rfl, rfl⟩⟩

/-- Settles O20: one equation per micro-step, and for the unordered ones the choice that the run's pick makes. -/
theorem putcharMicroSteps : Obligations.PutcharMicroSteps := by
  unfold Obligations.PutcharMicroSteps
  refine ⟨fun s ch hr => ⟨fun hmu hready hb => ?_, fun hmu => ?_, fun hmu => ?_⟩, fun s ch hr => ⟨fun hmu => ⟨?_, ?_⟩,
    fun hmu hrow hcol => ?_, fun hmu => ⟨fun m hm => ?_, fun ⟨m, hm⟩ => ?_⟩⟩⟩
  · refine ⟨_, exec_putchar_start ch hr hmu hb hready, ?_, fun _ => rfl, rfl, ⟨rfl, rfl⟩, ⟨rfl, rfl⟩, rfl, rfl, rfl,
      ⟨rfl, rfl⟩, ⟨rfl, rfl⟩⟩
    rw [State.microDone_eq, State.readCursor, State.setTop_top, State.setTop_setTop]
    exact contextsWithTop_of_setTop _ rfl rfl
  · obtain ⟨hread, hframe⟩ := writeGlyph_reads ch s
    exact ⟨_, exec_putchar_glyph ch hr hmu, hread, hframe, contextsWithTop_of_setTop _ rfl rfl, rfl, ⟨rfl, rfl⟩,
      ⟨rfl, rfl⟩, rfl, rfl, rfl, ⟨rfl, rfl⟩, ⟨rfl, rfl⟩⟩
  · exact ⟨_, exec_putchar_advance ch hr hmu.ge, rfl, contextsWithTop_of_setTop _ rfl rfl, fun _ => rfl, ⟨rfl, rfl⟩,
      ⟨rfl, rfl⟩, rfl, rfl, rfl, ⟨rfl, rfl⟩, ⟨rfl, rfl⟩⟩
  · intro m hm hraises
    obtain ⟨k, hk⟩ := exists_pickFrom ((readLeft_iff s m).1 hm)
    exact ⟨k, _, exec_putchar_read ch hr hmu hk, cursorRead_takesRead k hm ((readable_iff hm).2 hraises)⟩
  · rintro ⟨m, hm⟩
    obtain ⟨n, hn, hpick⟩ := pickFrom_of_mem ((readLeft_iff s m).1 hm) s.pick
    have hleft : readLeft s n := (readLeft_iff s n).2 hn
    refine ⟨n, _, hleft, exec_putchar_read ch hr hmu hpick, ?_⟩
    rcases cursorRead_cases n s with ⟨hreadable, -⟩ | ⟨hnot, hraise⟩
    · exact .inl ⟨(readable_iff hleft).1 hreadable, cursorRead_takesRead s.pick hleft hreadable⟩
    · exact .inr ⟨by simpa [hnot] using (readable_iff hleft).not, hraise⟩
  · obtain ⟨hread, hframe⟩ := writeGlyph_reads ch s
    refine ⟨_, exec_putchar_checked ch hr hmu, ?_⟩
    rw [checkedGlyph_of_onScreen ch hrow hcol]
    exact ⟨hread, hframe, contextsWithTop_of_setTop _ rfl rfl, rfl, ⟨rfl, rfl⟩, ⟨rfl, rfl⟩, rfl, rfl, rfl, ⟨rfl, rfl⟩,
      ⟨rfl, rfl⟩⟩
  · obtain ⟨k, hk⟩ := exists_pickFrom ((storeLeft_iff s m).1 hm)
    obtain ⟨t, ht⟩ := exec_putchar_doesStore ch hr hmu hm hk
    exact ⟨k, t, ht⟩
  · obtain ⟨n, hn, hpick⟩ := pickFrom_of_mem ((storeLeft_iff s m).1 hm) s.pick
    have hleft : storeLeft s n := (storeLeft_iff s n).2 hn
    obtain ⟨t, ht⟩ := exec_putchar_doesStore ch hr hmu hleft hpick
    exact ⟨n, t, hleft, ht⟩

/-! ### Races -/

/-- Where no read raises another fault, the first micro-step of an interleaved PUTCHAR records none or
CONSOLE_NOT_READY (R95). -/
theorem putcharInterleaved_fault {s : State} (ch : Byte) (hmu : s.top.mu = 0) :
    (s.putcharInterleaved ch).fault = s.fault ∨ (s.putcharInterleaved ch).fault = some (.consoleNotReady .putchar) := by
  rw [State.putcharInterleaved, if_pos (by rw [hmu]; decide)]
  split
  · next m _ =>
    rcases cursorRead_cases m s with ⟨-, h⟩ | ⟨-, h⟩ <;> rw [h]
    · exact .inl rfl
    · exact .inr rfl
  · exact .inl rfl

/-- Settles O19: each Console command's first micro-step goes through the race check. -/
theorem consoleRace : Obligations.ConsoleRace := by
  unfold Obligations.ConsoleRace
  intro s i hk hmu
  refine ⟨fun hr hb => ?_, fun hno => ?_⟩
  · have race : ∀ k f, ∃ g ∈ s.below, ∃ k', g.inOp = some k' ∧ k'.isConsole = true ∧
        (.next (s.startConsole k f) : Host.Outcome State Fault Refusal) =
          .next { s with fault := some (.consoleRace k' k) } := fun k f => by
      obtain ⟨g, hg, k', hop, hk', hrace⟩ := startConsole_of_race k f hr hb
      exact ⟨g, hg, k', hop, hk', congrArg _ hrace⟩
    cases i with
    | cinit =>
      simp only [exec, execCinit, hr, State.cinitMicro, hmu]
      exact race .cinit _
    | setcolor a => exact race .setcolor _
    | putchar ch =>
      simp only [exec, execPutchar, hr, State.putcharMicro, hmu]
      exact race .putchar _
    | _ => exact absurd hk nofun
  · have hrace : s.cfg.raceModel = .fault → noConsoleBelow s := fun hr => by
      rcases hno with h | h
      · simp [h] at hr
      · exact h
    have ready : ∀ (k : Kind) (f : State → State), (f s).fault = s.fault →
        (s.startReady k f).fault = s.fault ∨ (s.startReady k f).fault = some (.consoleNotReady k) := by
      intro k f hf
      cases hready : s.con.ready with
      | false => rw [startReady_of_not_ready k f hrace hready]; exact .inr rfl
      | true => rw [startReady_of_ready k f hrace hready]; exact .inl hf
    cases i with
    | cinit =>
      refine ⟨_, rfl, .inl ?_⟩
      cases hr : s.cfg.raceModel with
      | fault =>
        simp only [State.cinitMicro, hmu]
        rw [startConsole_of_noRace _ _ hrace]
        rfl
      | interleave =>
        simp only [State.cinitInterleaved]
        rw [if_pos (by rw [hmu]; decide)]
        split
        · next m _ => cases m <;> rfl
        · rfl
    | setcolor a => exact ⟨_, rfl, ready .setcolor _ rfl⟩
    | putchar ch =>
      refine ⟨_, rfl, ?_⟩
      cases hr : s.cfg.raceModel with
      | fault =>
        simp only [State.putcharMicro, hmu]
        exact ready .putchar _ rfl
      | interleave => exact putcharInterleaved_fault ch hmu
    | _ => exact absurd hk nofun

end Sys2Proof.Machine
end

section
/-!
PROOFS. 41_console.md: uninterrupted Console commands, under either race model and in every order that R95 leaves open
(R91 to R95).
-/

namespace Sys2Proof.Machine

/-! ### Micro-steps with nothing between them -/

theorem execMicros_of_stopped {i : Instr} {s : State} (picks : List Nat) (h : s.stopped = true) :
    execMicros i picks s = .next s := by
  cases picks with
  | nil => rfl
  | cons k picks => rw [execMicros, if_pos h]

theorem execMicros_cons {i : Instr} {s t : State} {k : Nat} (picks : List Nat) (hs : s.stopped = false)
    (h : exec i { s with pick := k } = .next t) : execMicros i (k :: picks) s = execMicros i picks t := by
  rw [execMicros, if_neg (by simp [hs]), h]

/-- From `s` to `t` the running context has moved on to the flow `f`; beside its flow only the Console registers, memory
and a recorded fault may have changed. -/
structure ConsoleMove (f : Frame) (s t : State) : Prop where
  contexts : contextsWithTop f s t
  table : keepsTable s t
  pics : keepsPics s t
  flag : keepsIF s t
  trace : keepsTrace s t
  ptrace : keepsPtrace s t
  refused : t.refused = s.refused
  inputs : keepsInputs s t

theorem contextsWithTop_trans {f g : Frame} {s u t : State} (h : contextsWithTop f s u) (h' : contextsWithTop g u t) :
    contextsWithTop g s t := by
  obtain ⟨hmain, hirqs⟩ := contextsWithTop_setTop g h
  exact ⟨h'.1.trans hmain, h'.2.trans hirqs⟩

theorem ConsoleMove.trans {f g : Frame} {s u t : State} (h : ConsoleMove f s u) (h' : ConsoleMove g u t) :
    ConsoleMove g s t where
  contexts := contextsWithTop_trans h.contexts h'.contexts
  table := ⟨h'.table.1.trans h.table.1, h'.table.2.trans h.table.2⟩
  pics := ⟨h'.pics.1.trans h.pics.1, h'.pics.2.trans h.pics.2⟩
  flag := Eq.trans h'.flag h.flag
  trace := Eq.trans h'.trace h.trace
  ptrace := Eq.trans h'.ptrace h.ptrace
  refused := h'.refused.trans h.refused
  inputs := ⟨h'.inputs.1.trans h.inputs.1, h'.inputs.2.trans h.inputs.2⟩

theorem ConsoleMove.refl (s : State) : ConsoleMove s.top s s :=
  ⟨(withTopFlow_self rfl rfl rfl rfl).1, ⟨rfl, rfl⟩, ⟨rfl, rfl⟩, rfl, rfl, rfl, rfl, ⟨rfl, rfl⟩⟩

/-- Console registers, memory, fault and pick set, then the top flow replaced. -/
theorem ConsoleMove.of_setTop (f : Frame) (s : State) (con : Console) (mem : Memory) (fault : Option Fault) (k : Nat) :
    ConsoleMove f s (({ s with con := con, mem := mem, fault := fault, pick := k } : State).setTop f) :=
  ⟨contextsWithTop_of_setTop f rfl rfl, ⟨rfl, rfl⟩, ⟨rfl, rfl⟩, rfl, rfl, rfl, rfl, ⟨rfl, rfl⟩⟩

theorem ConsoleMove.top {f : Frame} {s t : State} (h : ConsoleMove f s t) : t.top = f := contextsWithTop_top h.contexts

theorem ConsoleMove.cfg {f : Frame} {s t : State} (h : ConsoleMove f s t) : t.cfg = s.cfg := h.inputs.1

/-- A move that records no stop leaves the machine running. -/
theorem ConsoleMove.stopped {f : Frame} {s t : State} (h : ConsoleMove f s t) (hs : s.stopped = false)
    (hf : t.fault = s.fault) : t.stopped = false := by
  rw [State.stopped_false_iff] at hs ⊢
  exact ⟨hf.trans hs.1, h.refused.trans hs.2⟩

/-- The next command is at the place after the one the flow is in, whatever it holds of that one. -/
theorem Frame.commandDone_congr {f g : Frame} (hprog : g.prog = f.prog) (hpc : g.pc = f.pc) :
    g.commandDone = f.commandDone := by
  rw [Frame.commandDone_eq, Frame.commandDone_eq, Frame.atCommand, Frame.atCommand, hprog, hpc]

/-! ### CINIT -/

theorem cellAt_congr {s t : State} {i : Nat} (hc : t.cfg = s.cfg)
    (h : ∀ a, cellAddrOf s.cfg i ≤ a → a < cellAddrOf s.cfg i + 2 → t.mem.byteAt a = s.mem.byteAt a) :
    t.cellAt i = s.cellAt i := by
  rw [State.cellAt, State.cellAt, hc, memRead_congr h]

/-- From cell `n` on CINIT's micro-steps blank the cells that are left, in ascending order, and complete the command
(R91). -/
theorem execMicros_cinit_cells (picks : List Nat) : ∀ {n : Nat} {s : State}, s.stopped = false →
    n + picks.length = 2000 → 0 < picks.length → s.top.mu = n + (if s.cfg.raceModel = .fault then 1 else 4) →
    ∃ t, execMicros .cinit picks s = .next t ∧ ConsoleMove s.top.commandDone s t ∧ t.con = s.con ∧ t.fault = s.fault ∧
      (∀ i, n ≤ i → i < 2000 → t.cellAt i = some (blankCell s.cfg)) ∧
      keepsMemoryOutside (cellAddrOf s.cfg n) (2 * picks.length) s t := by
  induction picks with
  | nil => exact fun _ _ hlen => absurd hlen (by simp)
  | cons k picks ih =>
    intro n s hs hcount _ hmu
    rw [List.length_cons] at hcount
    have hcell := exec_cinit_cell (s := { s with pick := k }) n hmu
    rw [initCell_eq _ (by simp only [CELLS]; omega)] at hcell
    rw [execMicros_cons picks hs hcell]
    set u : State := (({ s with pick := k } : State).storeCell n (blankCell s.cfg)).setTop
      (if n = 1999 then s.top.commandDone else s.top.microDone .cinit) with hu
    have hblank : u.cellAt n = some (blankCell s.cfg) := cellAt_storeCell _ n _
    have hkeeps : keepsMemoryOutside (cellAddrOf s.cfg n) 2 s u := keepsMemoryOutside_memWrite s _ CELL_BYTES _
    have hmove : ConsoleMove (if n = 1999 then s.top.commandDone else s.top.microDone .cinit) s u :=
      ConsoleMove.of_setTop _ s s.con _ s.fault k
    by_cases hlast : n = 1999
    · obtain rfl : picks = [] := List.eq_nil_of_length_eq_zero (by omega)
      rw [if_pos hlast] at hmove
      refine ⟨u, rfl, hmove, rfl, rfl, fun i h1 h2 => ?_, hkeeps⟩
      obtain rfl : i = n := by omega
      exact hblank
    · rw [if_neg hlast] at hmove
      have htop : u.top = s.top.microDone .cinit := hmove.top
      obtain ⟨t, hrun, hmove', hcon, hfault, hcells, hkeeps'⟩ := ih (n := n + 1) (s := u) (hmove.stopped hs rfl)
        (by omega) (by omega) (by rw [htop, Frame.microDone_mu, hmove.cfg, hmu]; omega)
      have haddr : ∀ i, cellAddrOf s.cfg i = s.cfg.fbBase.toNat + 2 * i := fun _ => rfl
      rw [hmove.cfg, haddr] at hkeeps'
      rw [haddr] at hkeeps ⊢
      refine ⟨t, hrun, ?_, hcon, hfault, fun i h1 h2 => ?_, fun a ha => ?_⟩
      · have hdone : u.top.commandDone = s.top.commandDone := by rw [htop]; rfl
        exact hdone ▸ hmove.trans hmove'
      · rcases Nat.eq_or_lt_of_le h1 with rfl | h1
        · refine (cellAt_congr hmove'.cfg fun a h3 h4 => hkeeps' a ?_).trans hblank
          rw [hmove.cfg, haddr] at h4
          omega
        · exact hmove.cfg ▸ hcells i h1 h2
      · rw [List.length_cons] at ha
        exact (hkeeps' a (by omega)).trans (hkeeps a (by omega))

/-- The Console registers of an interleaved CINIT that has done the stores of `done` (R95). -/
def consoleAfterInit (cfg : Config) (con : Console) (done : List Micro) : Console where
  row := if .initRow ∈ done then 0 else con.row
  col := if .initCol ∈ done then 0 else con.col
  attr := if .initAttr ∈ done then cfg.defaultAttr else con.attr
  ready := con.ready || decide (.initReady ∈ done)

/-- Among distinct elements of a list, those of a shorter one leave some out. -/
theorem exists_left {done stores : List Micro} (hnodup : stores.Nodup) (hlen : done.length < stores.length) :
    ∃ m, m ∈ stores.filter (fun m => !done.contains m) := by
  by_contra hnone
  have hsub : stores ⊆ done := fun m hm => by
    by_contra hout
    exact hnone ⟨m, by simp [hm, hout]⟩
  have := (hnodup.subperm hsub).length_le
  omega

/-- Distinct elements of a list, as many as it has, are all of them. -/
theorem subset_of_length_le {done stores : List Micro} (hnodup : done.Nodup) (hsub : done ⊆ stores)
    (hlen : stores.length ≤ done.length) : stores ⊆ done :=
  ((hnodup.subperm hsub).perm_of_length_le hlen).symm.subset

/-- The register stores of an interleaved CINIT, in every order (R95). -/
theorem execMicros_cinit_stores (con : Console) (rest : List Nat) (picks : List Nat) : ∀ {s : State},
    s.stopped = false → s.cfg.raceModel = .interleave → s.top.done.Nodup → s.top.done ⊆ initStores →
    s.top.done.length = s.top.mu → s.top.mu + picks.length = 4 → s.con = consoleAfterInit s.cfg con s.top.done →
    ∃ t f, execMicros .cinit (picks ++ rest) s = execMicros .cinit rest t ∧ ConsoleMove f s t ∧ f.mu = 4 ∧
      f.commandDone = s.top.commandDone ∧ t.con = initialConsole s.cfg ∧ t.fault = s.fault ∧ t.mem = s.mem := by
  induction picks with
  | nil =>
    intro s _ _ hnodup hsub hlen hmu hcon
    have hmu : s.top.mu = 4 := hmu
    have hall : initStores ⊆ s.top.done := subset_of_length_le hnodup hsub (by rw [hlen, hmu]; decide)
    refine ⟨s, s.top, rfl, ConsoleMove.refl s, hmu, rfl, ?_, rfl, rfl⟩
    have mem : ∀ m ∈ initStores, m ∈ s.top.done := fun m hm => hall hm
    simp only [initStores, List.forall_mem_cons, List.not_mem_nil, false_implies, implies_true, and_true] at mem
    obtain ⟨hattr, hrow, hcol, hready⟩ := mem
    simp [hcon, consoleAfterInit, initialConsole, hattr, hrow, hcol, hready]
  | cons k picks ih =>
    intro s hs hr hnodup hsub hlen hmu hcon
    rw [List.length_cons] at hmu
    obtain ⟨x, hx⟩ := exists_left (done := s.top.done) (stores := initStores) (by decide)
      (by rw [hlen, show initStores.length = 4 from rfl]; omega)
    obtain ⟨m, hm, hpick⟩ := pickFrom_of_mem hx k
    have hleft : initLeft s m := (initLeft_iff s m).2 hm
    have hexec := exec_cinit_store hr (by omega) hpick
    obtain ⟨hcon', hcontexts, hmemory, htable, hpics, hif, htrace, hptrace, hstops, hinputs⟩ :=
      initStore_doesInit k hleft
    rw [List.cons_append, execMicros_cons _ hs hexec]
    set u := ({ s with pick := k }.initStore m).microDoneOf .cinit m
    have hmem : u.mem = s.mem := by cases m <;> rfl
    have hmove : ConsoleMove { s.top.microDone .cinit with done := m :: s.top.done } s u :=
      ⟨hcontexts, htable, hpics, hif, htrace, hptrace, hstops.2, hinputs⟩
    have htop := hmove.top
    obtain ⟨t, f, hrun, hmove', hfmu, hdone, htcon, htfault, htmem⟩ := ih (s := u) (hmove.stopped hs hstops.1)
      (by rw [hmove.cfg, hr]) (by rw [htop]; exact List.nodup_cons.2 ⟨hleft.2, hnodup⟩)
      (by rw [htop]; exact List.cons_subset.2 ⟨(List.mem_filter.1 hm).1, hsub⟩)
      (by rw [htop]; exact congrArg (· + 1) hlen) (by rw [htop]; simp only [Frame.microDone_mu]; omega)
      (by
        rw [hcon', htop, hmove.cfg, hcon]
        obtain ⟨rfl | rfl | rfl | rfl, -⟩ := hleft <;> simp [consoleAfterInit])
    refine ⟨t, f, hrun, hmove.trans hmove', hfmu, ?_, htcon.trans (by rw [hmove.cfg]), htfault.trans hstops.1,
      htmem.trans hmem⟩
    rw [hdone, htop]
    rfl

/-- Settles O16: the register stores, in one micro-step or in any order of four, and then the 2000 cells. -/
theorem cinitWhole : Obligations.CinitWhole := by
  unfold Obligations.CinitWhole
  intro s picks hs hlen hmu hdone hb
  -- the stores, from which the cells go on
  obtain ⟨u, f, rest, hrest, hrun, hmove, hfmu, hfdone, hcon, hfault, hmem⟩ : ∃ u f rest, List.length rest = 2000 ∧
      execMicros .cinit picks s = execMicros .cinit rest u ∧ ConsoleMove f s u ∧
      f.mu = (if s.cfg.raceModel = .fault then 1 else 4) ∧ f.commandDone = s.top.commandDone ∧
      u.con = initialConsole s.cfg ∧ u.fault = s.fault ∧ u.mem = s.mem := by
    cases hr : s.cfg.raceModel with
    | fault =>
      cases picks with
      | nil => simp [microCount, hr] at hlen
      | cons k rest =>
        refine ⟨_, s.top.microDone .cinit, rest, ?_,
          execMicros_cons rest hs (exec_cinit_start (s := { s with pick := k }) hr hmu (hb hr)),
          ConsoleMove.of_setTop _ s _ s.mem s.fault k, by simp [hmu], rfl, rfl, rfl, rfl⟩
        simp only [microCount, hr, List.length_cons, CELLS] at hlen
        omega
    | interleave =>
      simp only [microCount, hr, CELLS] at hlen
      obtain ⟨u, f, hrun, hmove, hfmu, hfdone, hcon, hfault, hmem⟩ := execMicros_cinit_stores s.con (picks.drop 4)
        (picks.take 4) hs hr (by simp [hdone]) (by simp [hdone]) (by simp [hdone, hmu])
        (by rw [hmu, List.length_take]; omega) (by simp [hdone, consoleAfterInit])
      rw [List.take_append_drop] at hrun
      exact ⟨u, f, picks.drop 4, by rw [List.length_drop]; omega, hrun, hmove, hfmu, hfdone, hcon, hfault, hmem⟩
  obtain ⟨t, hcells, hmove', htcon, htfault, hblank, hkeeps⟩ := execMicros_cinit_cells rest (n := 0)
    (hmove.stopped hs hfault) (by omega) (by omega) (by rw [hmove.top, hmove.cfg, hfmu, Nat.zero_add])
  have h := hmove.trans hmove'
  rw [hmove.top, hfdone] at h
  refine ⟨t, hrun.trans hcells, htcon.trans hcon, fun i hi => ?_, fun a ha => ?_, h.contexts, h.table, h.pics, h.flag,
    h.trace, h.ptrace, ⟨htfault.trans hfault, h.refused⟩, h.inputs⟩
  · exact (hblank i (Nat.zero_le i) hi).trans (by rw [hmove.cfg]; rfl)
  · rw [hmove.cfg, hrest] at hkeeps
    exact (hkeeps a ha).trans (by rw [hmem])

end Sys2Proof.Machine
end

section
/-!
PROOFS. 41_console.md: the unordered micro-steps of an interleaved PUTCHAR, what it has done at each place, and the
whole command (R93, R95).
-/

namespace Sys2Proof.Machine

/-! ### The micro-steps done -/

/-- The flow of an interleaved PUTCHAR among its reads: as many reads done as micro-steps (R95 `u1..u3`). -/
structure Frame.ReadsDone (f : Frame) : Prop where
  mu : f.mu ≤ 3
  nodup : f.done.Nodup
  length : f.done.length = f.mu
  reads : ∀ m ∈ f.done, m ∈ cursorReads

/-- A cursor store that PUTCHAR has, exposed column or not (R95 `u5..u7`). -/
def isStore (cfg : Config) (m : Micro) : Prop :=
  m = .storeCol ∨ m = .storeRow ∨ (m = .wrapCol ∧ cfg.exposeIntermediateColumn = true)

/-- The unordered micro-steps of a PUTCHAR: all but its glyph (R95). -/
def putcharMicros (cfg : Config) : List Micro :=
  cursorReads ++ ([.storeCol, .storeRow] ++ if cfg.exposeIntermediateColumn then [.wrapCol] else [])

theorem mem_putcharMicros (cfg : Config) (m : Micro) : m ∈ putcharMicros cfg ↔ m ∈ cursorReads ∨ isStore cfg m := by
  unfold putcharMicros isStore
  cases cfg.exposeIntermediateColumn <;> simp

theorem putcharMicros_nodup (cfg : Config) : (putcharMicros cfg).Nodup := by
  unfold putcharMicros
  cases cfg.exposeIntermediateColumn <;> decide

theorem putcharMicros_length (cfg : Config) :
    (putcharMicros cfg).length + 1 = putcharSteps cfg.exposeIntermediateColumn := by
  unfold putcharMicros
  cases cfg.exposeIntermediateColumn <;> rfl

/-- The flow of an interleaved PUTCHAR among its cursor stores: all reads done, and stores for the micro-steps past the
glyph (R95 `u5..u7`). -/
structure Frame.StoresDone (cfg : Config) (f : Frame) : Prop where
  past : 4 ≤ f.mu
  mu : f.mu < putcharSteps cfg.exposeIntermediateColumn
  nodup : f.done.Nodup
  length : f.done.length + 1 = f.mu
  reads : ∀ m ∈ cursorReads, m ∈ f.done
  stores : ∀ m ∈ f.done, m ∈ cursorReads ∨ isStore cfg m
  wrap : .wrapCol ∈ f.done → .storeCol ∈ f.done

/-- The two cases of `Frame.doneOk` inside a PUTCHAR. -/
theorem Frame.doneOk_inside {cfg : Config} {f : Frame} (h : f.doneOk cfg) (hr : cfg.raceModel = .interleave)
    (hop : f.inOp = some .putchar) : f.ReadsDone ∨ f.StoresDone cfg := by
  obtain ⟨hnodup, ⟨hmu, hlen, hreads⟩ | ⟨hpast, hmu, hlen, hreads, hstores, hwrap⟩⟩ := h.2 hr hop
  · exact .inl ⟨hmu, hnodup, hlen, hreads⟩
  · exact .inr ⟨hpast, hmu, hnodup, hlen, hreads, hstores, hwrap⟩

theorem Frame.ReadsDone.doneOk {cfg : Config} {f : Frame} (h : f.ReadsDone) : f.doneOk cfg :=
  ⟨fun h0 => List.eq_nil_of_length_eq_zero (h.length.trans h0), fun _ _ => ⟨h.nodup, .inl ⟨h.mu, h.length, h.reads⟩⟩⟩

theorem Frame.StoresDone.doneOk {cfg : Config} {f : Frame} (h : f.StoresDone cfg) : f.doneOk cfg :=
  ⟨fun h0 => absurd h.past (by omega),
    fun _ _ => ⟨h.nodup, .inr ⟨h.past, h.mu, h.length, h.reads, h.stores, h.wrap⟩⟩⟩

theorem Frame.ReadsDone.of_start {f : Frame} (hmu : f.mu = 0) (hdone : f.done = []) : f.ReadsDone :=
  ⟨by omega, by simp [hdone], by simp [hdone, hmu], by simp [hdone]⟩

/-- The flow after PUTCHAR's read `m` of the Console registers `con` (R95 `u1..u3`). -/
def readFlow (con : Console) (m : Micro) (f : Frame) : Frame :=
  { (f.takeRead con m).microDone .putchar with done := m :: f.done }

theorem cursorRead_of_readable {s : State} {m : Micro} (h : s.con.readable m = true) :
    s.cursorRead m = s.setTop (readFlow s.con m s.top) := by
  rw [State.cursorRead, if_pos h, State.microDoneOf_eq, State.setTop_setTop, State.setTop_top, Frame.takeRead_done]
  rfl

/-- A read is left where fewer than three are done. -/
theorem Frame.ReadsDone.exists_left {s : State} (h : s.top.ReadsDone) (hmu : s.top.mu < 3) : ∃ m, readLeft s m := by
  obtain ⟨m, hm⟩ := Machine.exists_left (done := s.top.done) (stores := cursorReads) (by decide) (h.length ▸ hmu)
  exact ⟨m, (readLeft_iff s m).2 hm⟩

theorem Frame.ReadsDone.read {s : State} {m : Micro} (h : s.top.ReadsDone) (hmu : s.top.mu < 3) (con : Console)
    (hm : readLeft s m) : (readFlow con m s.top).ReadsDone where
  mu := by
    simp only [readFlow, Frame.microDone_mu, Frame.takeRead_mu]
    omega
  nodup := List.nodup_cons.2 ⟨hm.2, h.nodup⟩
  length := by simp [readFlow, h.length]
  reads := List.forall_mem_cons.2 ⟨(List.mem_filter.1 ((readLeft_iff s m).1 hm)).1, h.reads⟩

/-- The three reads are all done before the glyph. -/
theorem Frame.ReadsDone.all {f : Frame} (h : f.ReadsDone) (hmu : f.mu = 3) : ∀ m ∈ cursorReads, m ∈ f.done :=
  fun _ hm => subset_of_length_le h.nodup h.reads (by rw [h.length, hmu]; decide) hm

theorem Frame.ReadsDone.glyph {cfg : Config} {f : Frame} (h : f.ReadsDone) (hmu : f.mu = 3) :
    (f.microDone .putchar).StoresDone cfg where
  past := by simp [hmu]
  mu := by rw [Frame.microDone_mu, hmu]; unfold putcharSteps; split <;> decide
  nodup := h.nodup
  length := by simp [h.length]
  reads := h.all hmu
  stores := fun m hm => .inl (h.reads m hm)
  wrap := fun hm => absurd (h.reads _ hm) (by decide)

/-- Not every store is done while the command runs (R95). -/
theorem Frame.StoresDone.not_all {cfg : Config} {f : Frame} (h : f.StoresDone cfg)
    (hall : ∀ m, isStore cfg m → m ∈ f.done) : False := by
  have hsub : putcharMicros cfg ⊆ f.done := fun m hm => ((mem_putcharMicros cfg m).1 hm).elim (h.reads m) (hall m)
  have hle := ((putcharMicros_nodup cfg).subperm hsub).length_le
  have hlen := h.length
  have hmu := h.mu
  have hsteps := putcharMicros_length cfg
  omega

/-- A store is left until the command is completed. -/
theorem Frame.StoresDone.exists_left {s : State} (h : s.top.StoresDone s.cfg) : ∃ m, storeLeft s m := by
  by_contra hnone
  have hcol : .storeCol ∈ s.top.done := by
    by_contra hout
    exact hnone ⟨_, hout, .inl rfl⟩
  refine h.not_all fun m hm => ?_
  by_contra hout
  rcases hm with rfl | rfl | ⟨rfl, hexpose⟩
  · exact hout hcol
  · exact hnone ⟨_, hout, .inr (.inl rfl)⟩
  · exact hnone ⟨_, hout, .inr (.inr ⟨rfl, hexpose, hcol⟩)⟩

theorem isStore_of_storeLeft {s : State} {m : Micro} (h : storeLeft s m) : isStore s.cfg m := by
  obtain ⟨-, h | h | ⟨h, hexpose, -⟩⟩ := h
  · exact .inl h
  · exact .inr (.inl h)
  · exact .inr (.inr ⟨h, hexpose⟩)

/-- A store that is left keeps `u6` after `u5` (R95). -/
theorem Frame.StoresDone.wrap_cons {s : State} {m : Micro} (h : s.top.StoresDone s.cfg) (hm : storeLeft s m) :
    .wrapCol ∈ m :: s.top.done → .storeCol ∈ m :: s.top.done := by
  intro hwrap
  rcases List.mem_cons.1 hwrap with rfl | hwrap
  · obtain ⟨-, h' | h' | ⟨-, -, hcol⟩⟩ := hm
    · cases h'
    · cases h'
    · exact List.mem_cons_of_mem _ hcol
  · exact List.mem_cons_of_mem _ (h.wrap hwrap)

theorem Frame.StoresDone.store {s : State} {m : Micro} (h : s.top.StoresDone s.cfg) (hm : storeLeft s m)
    (hmu : s.top.mu + 1 < putcharSteps s.cfg.exposeIntermediateColumn) :
    ({ s.top.microDone .putchar with done := m :: s.top.done } : Frame).StoresDone s.cfg where
  past := Nat.le_succ_of_le h.past
  mu := hmu
  nodup := List.nodup_cons.2 ⟨hm.1, h.nodup⟩
  length := congrArg (· + 1) h.length
  reads := fun x hx => List.mem_cons_of_mem m (h.reads x hx)
  stores := List.forall_mem_cons.2 ⟨.inr (isStore_of_storeLeft hm), h.stores⟩
  wrap := h.wrap_cons hm

/-- The last store leaves none (R95). -/
theorem Frame.StoresDone.last {s : State} {m : Micro} (h : s.top.StoresDone s.cfg) (hm : storeLeft s m)
    (hmu : ¬ s.top.mu + 1 < putcharSteps s.cfg.exposeIntermediateColumn) (x : Micro) (hx : isStore s.cfg x) :
    x ∈ m :: s.top.done := by
  refine subset_of_length_le (List.nodup_cons.2 ⟨hm.1, h.nodup⟩) (List.cons_subset.2 ⟨?_, fun y hy => ?_⟩) ?_
    ((mem_putcharMicros s.cfg x).2 (.inr hx))
  · exact (mem_putcharMicros s.cfg m).2 (.inr (isStore_of_storeLeft hm))
  · exact (mem_putcharMicros s.cfg y).2 (h.stores y hy)
  · have hlen := h.length
    have hsteps := putcharMicros_length s.cfg
    rw [List.length_cons]
    omega

/-! ### CONSOLE_NOT_READY -/

/-- `u1` raises CONSOLE_NOT_READY where the console is not ready (R95, log 12). -/
theorem cursorRead_of_not_ready {s : State} (h : s.con.ready = false) :
    s.cursorRead .readRow = s.raise (.consoleNotReady .putchar) := by
  rw [State.cursorRead, if_neg (by simp [Console.readable, h])]

/-- With the console not ready, an uninterrupted PUTCHAR comes to its `u1` among its reads and stops there (R95). -/
theorem execMicros_putchar_not_ready (ch : Byte) (picks : List Nat) : ∀ {s : State}, s.stopped = false →
    s.cfg.raceModel = .interleave → s.con.ready = false → s.top.ReadsDone → .readRow ∉ s.top.done →
    3 ≤ s.top.mu + picks.length →
    ∃ t f, execMicros (.putchar ch) picks s = .next t ∧ ConsoleMove f s t ∧
      t.fault = some (.consoleNotReady .putchar) ∧ f.prog = s.top.prog ∧ f.pc = s.top.pc ∧ t.con = s.con ∧
      t.mem = s.mem := by
  induction picks with
  | nil =>
    intro s _ _ _ hdone hrow hcount
    have hmu : s.top.mu = 3 := le_antisymm hdone.mu hcount
    exact absurd (hdone.all hmu _ (by decide)) hrow
  | cons k picks ih =>
    intro s hs hr hready hdone hrow hcount
    have hmu : s.top.mu < 3 := lt_of_le_of_ne hdone.mu fun h => hrow (hdone.all h _ (by decide))
    obtain ⟨x, hx⟩ := hdone.exists_left hmu
    obtain ⟨m, hm, hpick⟩ := pickFrom_of_mem ((readLeft_iff s x).1 hx) k
    have hleft : readLeft s m := (readLeft_iff s m).2 hm
    rw [execMicros_cons picks hs (exec_putchar_read ch hr hmu hpick)]
    by_cases hfirst : m = .readRow
    · subst hfirst
      rw [cursorRead_of_not_ready (s := { s with pick := k }) hready, execMicros_of_stopped _ (State.raise_stopped _ _)]
      have hmove : ConsoleMove s.top s ({ s with pick := k } : State) :=
        ⟨(withTopFlow_self rfl rfl rfl rfl).1, ⟨rfl, rfl⟩, ⟨rfl, rfl⟩, rfl, rfl, rfl, rfl, ⟨rfl, rfl⟩⟩
      exact ⟨_, s.top, rfl, ⟨hmove.contexts, hmove.table, hmove.pics, rfl, rfl, rfl, rfl, hmove.inputs⟩, rfl, rfl, rfl,
        rfl, rfl⟩
    · have hreadable : s.con.readable m = true := (readable_iff hleft).2 fun h => hfirst h.1
      rw [cursorRead_of_readable (s := { s with pick := k }) hreadable]
      set u : State := ({ s with pick := k } : State).setTop (readFlow s.con m s.top)
      have hmove : ConsoleMove (readFlow s.con m s.top) s u := ConsoleMove.of_setTop _ s s.con s.mem s.fault k
      have htop := hmove.top
      obtain ⟨t, f, hrun, hmove', hfault, hprog, hpc, hcon, hmem⟩ := ih (s := u) (hmove.stopped hs rfl) hr hready
        (by rw [htop]; exact hdone.read hmu _ hleft)
        (by rw [htop]; exact fun h => (List.mem_cons.1 h).elim (fun h => hfirst h.symm) hrow)
        (by
          rw [htop, readFlow]
          simp only [Frame.microDone_mu, Frame.takeRead_mu]
          rw [List.length_cons] at hcount
          omega)
      refine ⟨t, f, hrun, hmove.trans hmove', hfault, ?_, ?_, hcon, hmem⟩
      · rw [hprog, htop, readFlow]
        simp
      · rw [hpc, htop, readFlow]
        simp

/-- Settles O18: the checks of `startReady` under `fault`, and of `u1` under `interleave`. -/
theorem consoleNotReady : Obligations.ConsoleNotReady := by
  unfold Obligations.ConsoleNotReady
  refine ⟨fun s a hready hb => ?_, fun s ch hready hr hmu hb => ?_, fun s ch hr hready =>
    ⟨fun hmu hleft => ⟨?_, fun honly => ?_⟩, fun picks hlen hs hmu hdone => ?_⟩⟩
  · rw [exec, execSetcolor, startReady_of_not_ready _ _ hb hready]
    rfl
  · simp only [exec, execPutchar, hr, State.putcharMicro, hmu]
    rw [startReady_of_not_ready _ _ (fun _ => hb) hready]
    rfl
  · obtain ⟨k, hk⟩ := exists_pickFrom ((readLeft_iff s .readRow).1 hleft)
    refine ⟨k, (exec_putchar_read ch hr hmu hk).trans ?_⟩
    rw [cursorRead_of_not_ready (s := { s with pick := k }) hready]
    rfl
  · obtain ⟨m, hm, hpick⟩ := pickFrom_of_mem ((readLeft_iff s .readRow).1 hleft) s.pick
    obtain rfl : m = .readRow := honly m ((readLeft_iff s m).2 hm)
    refine (exec_putchar_read (s := s) (k := s.pick) ch hr hmu hpick).trans ?_
    rw [cursorRead_of_not_ready (s := { s with pick := s.pick }) hready]
    rfl
  · obtain ⟨t, f, hrun, hmove, hfault, hprog, hpc, hcon, hmem⟩ := execMicros_putchar_not_ready ch picks hs hr hready
      (Frame.ReadsDone.of_start hmu hdone) (by simp [hdone]) (by omega)
    exact ⟨t, f, hrun, hfault, hmove.contexts, hprog, hpc, fun a => by rw [hmem], hcon, hmove.table, hmove.pics,
      hmove.flag, hmove.trace, hmove.ptrace, hmove.refused, hmove.inputs⟩

/-! ### A whole PUTCHAR -/

/-- The flow holds the Console registers of the reads it has done (R95 `u1..u3`). -/
def Frame.HasRead (con : Console) (f : Frame) : Prop :=
  (.readRow ∈ f.done → f.row = con.row) ∧ (.readCol ∈ f.done → f.col = con.col) ∧
    (.readAttr ∈ f.done → f.attr = con.attr)

theorem Frame.HasRead.read {con : Console} {f : Frame} (h : f.HasRead con) (m : Micro) :
    (readFlow con m f).HasRead con := by
  obtain ⟨hrow, hcol, hattr⟩ := h
  simp only [Frame.HasRead, readFlow, Frame.takeRead_eq, Frame.microDone, List.mem_cons]
  refine ⟨fun h => ?_, fun h => ?_, fun h => ?_⟩ <;> split_ifs with hm
  all_goals first | rfl | skip
  · exact hrow (h.resolve_left fun h => hm h.symm)
  · exact hcol (h.resolve_left fun h => hm h.symm)
  · exact hattr (h.resolve_left fun h => hm h.symm)

/-- The reads of an interleaved PUTCHAR, in every order (R95). -/
theorem execMicros_putchar_reads (ch : Byte) (rest : List Nat) (picks : List Nat) : ∀ {s : State}, s.stopped = false →
    s.cfg.raceModel = .interleave → s.con.ready = true → s.top.ReadsDone → s.top.HasRead s.con →
    s.top.mu + picks.length = 3 →
    ∃ t f, execMicros (.putchar ch) (picks ++ rest) s = execMicros (.putchar ch) rest t ∧ ConsoleMove f s t ∧
      f.mu = 3 ∧ f.ReadsDone ∧ f.HasRead s.con ∧ f.commandDone = s.top.commandDone ∧ t.con = s.con ∧ t.mem = s.mem ∧
      t.fault = s.fault := by
  induction picks with
  | nil =>
    intro s _ _ _ hdone hread hmu
    exact ⟨s, s.top, rfl, ConsoleMove.refl s, hmu, hdone, hread, rfl, rfl, rfl, rfl⟩
  | cons k picks ih =>
    intro s hs hr hready hdone hread hcount
    rw [List.length_cons] at hcount
    have hmu : s.top.mu < 3 := by omega
    obtain ⟨x, hx⟩ := hdone.exists_left hmu
    obtain ⟨m, hm, hpick⟩ := pickFrom_of_mem ((readLeft_iff s x).1 hx) k
    have hleft : readLeft s m := (readLeft_iff s m).2 hm
    have hreadable : s.con.readable m = true := (readable_iff hleft).2 fun ⟨_, hnot⟩ => by simp [hready] at hnot
    rw [List.cons_append, execMicros_cons _ hs (exec_putchar_read ch hr hmu hpick),
      cursorRead_of_readable (s := { s with pick := k }) hreadable]
    set u : State := ({ s with pick := k } : State).setTop (readFlow s.con m s.top)
    have hmove : ConsoleMove (readFlow s.con m s.top) s u := ConsoleMove.of_setTop _ s s.con s.mem s.fault k
    have htop := hmove.top
    obtain ⟨t, f, hrun, hmove', hfmu, hfdone, hfread, hfnext, hcon, hmem, hfault⟩ := ih (s := u) (hmove.stopped hs rfl)
      hr hready (by rw [htop]; exact hdone.read hmu _ hleft) (by rw [htop]; exact hread.read m)
      (by
        rw [htop, readFlow]
        simp only [Frame.microDone_mu, Frame.takeRead_mu]
        omega)
    refine ⟨t, f, hrun, hmove.trans hmove', hfmu, hfdone, hfread, hfnext.trans ?_, hcon, hmem, hfault⟩
    rw [htop]
    exact Frame.commandDone_congr (by simp [readFlow]) (by simp [readFlow])

/-- The Console registers of an interleaved PUTCHAR that found them as `con` and has done the stores of `done` (R95). -/
def consoleAfterStores (expose : Bool) (con : Console) (done : List Micro) : Console :=
  { con with
    row := if .storeRow ∈ done then (nextCursor con.row con.col).1 else con.row
    col := if .wrapCol ∈ done then (nextCursor con.row con.col).2
      else if .storeCol ∈ done then (if expose then con.col + 1 else (nextCursor con.row con.col).2)
      else con.col }

theorem nextCursor_fst (r c : Nat) :
    (nextCursor r c).1 = if c + 1 < 80 then r else if r + 1 < 25 then r + 1 else 0 := by
  unfold nextCursor
  split_ifs <;> rfl

theorem nextCursor_snd (r c : Nat) : (nextCursor r c).2 = if c + 1 < 80 then c + 1 else 0 := by
  unfold nextCursor
  split_ifs <;> rfl

/-- A store that is left does its part (R95 `u5..u7`). -/
theorem storedConsole_consoleAfterStores {s : State} {con : Console} {m : Micro} (h : s.top.StoresDone s.cfg)
    (hm : storeLeft s m) (hcol : con.col < 80) :
    storedConsole s.cfg.exposeIntermediateColumn con.row con.col m
        (consoleAfterStores s.cfg.exposeIntermediateColumn con s.top.done) =
      consoleAfterStores s.cfg.exposeIntermediateColumn con (m :: s.top.done) := by
  obtain ⟨hout, rfl | rfl | ⟨rfl, hexpose, hstored⟩⟩ := hm
  · have hwrap : .wrapCol ∉ s.top.done := fun hw => hout (h.wrap hw)
    cases s.cfg.exposeIntermediateColumn <;> simp [storedConsole, consoleAfterStores, hwrap]
  · cases s.cfg.exposeIntermediateColumn
    · by_cases hrow : (nextCursor con.row con.col).1 = con.row <;> simp [storedConsole, consoleAfterStores, hout, hrow]
    · by_cases hlast : con.col + 1 = 80
      · simp [storedConsole, consoleAfterStores, hlast, nextCursor_fst]
      · simp [storedConsole, consoleAfterStores, hout, hlast, nextCursor_fst, show con.col + 1 < 80 by omega]
  · rw [hexpose]
    by_cases hlast : con.col + 1 = 80
    · simp [storedConsole, consoleAfterStores, hlast, nextCursor_snd]
    · simp [storedConsole, consoleAfterStores, hout, hstored, hlast, nextCursor_snd, show con.col + 1 < 80 by omega]

/-- All stores done, the cursor has advanced (R95). -/
theorem consoleAfterStores_all {cfg : Config} (con : Console) {done : List Micro}
    (hall : ∀ m, isStore cfg m → m ∈ done) :
    consoleAfterStores cfg.exposeIntermediateColumn con done = { con with
      row := (nextCursor con.row con.col).1, col := (nextCursor con.row con.col).2 } := by
  have hrow := hall _ (.inr (.inl rfl))
  have hcol := hall _ (.inl rfl)
  cases hexpose : cfg.exposeIntermediateColumn with
  | true => simp [consoleAfterStores, hrow, hall _ (.inr (.inr ⟨rfl, hexpose⟩))]
  | false => simp [consoleAfterStores, hrow, hcol]

/-- The cursor stores of an interleaved PUTCHAR, in every order (R95). -/
theorem execMicros_putchar_stores (ch : Byte) (con : Console) (hcol : con.col < 80) (picks : List Nat) :
    ∀ {s : State}, s.stopped = false → s.cfg.raceModel = .interleave → s.top.StoresDone s.cfg →
    s.top.row = con.row → s.top.col = con.col →
    s.con = consoleAfterStores s.cfg.exposeIntermediateColumn con s.top.done →
    s.top.mu + picks.length = putcharSteps s.cfg.exposeIntermediateColumn →
    ∃ t, execMicros (.putchar ch) picks s = .next t ∧ ConsoleMove s.top.commandDone s t ∧
      t.con = { con with row := (nextCursor con.row con.col).1, col := (nextCursor con.row con.col).2 } ∧
      t.mem = s.mem ∧ t.fault = s.fault := by
  induction picks with
  | nil => exact fun _ _ hdone _ _ _ hcount => absurd hdone.mu hcount.not_lt
  | cons k picks ih =>
    intro s hs hr hdone hrowf hcolf hcon hcount
    rw [List.length_cons] at hcount
    obtain ⟨x, hx⟩ := hdone.exists_left
    obtain ⟨m, hm, hpick⟩ := pickFrom_of_mem ((storeLeft_iff s x).1 hx) k
    have hleft : storeLeft s m := (storeLeft_iff s m).2 hm
    have hstored : storedConsole s.cfg.exposeIntermediateColumn s.top.row s.top.col m s.con =
        consoleAfterStores s.cfg.exposeIntermediateColumn con (m :: s.top.done) := by
      rw [hrowf, hcolf, hcon]
      exact storedConsole_consoleAfterStores hdone hleft hcol
    rw [execMicros_cons picks hs (exec_putchar_store (s := { s with pick := k }) ch hr hdone.past),
      cursorStoreMicro_eq (s := { s with pick := k }) hleft hpick]
    set u : State := (({ s with
      pick := k
      con := storedConsole s.cfg.exposeIntermediateColumn s.top.row s.top.col m s.con } : State).setTop
        (storedFlow s.cfg m s.top)) with hu
    have hmove : ConsoleMove (storedFlow s.cfg m s.top) s u := ConsoleMove.of_setTop _ s _ s.mem s.fault k
    have htop := hmove.top
    by_cases hlast : s.top.mu + 1 < putcharSteps s.cfg.exposeIntermediateColumn
    · have hflow : storedFlow s.cfg m s.top = { s.top.microDone .putchar with done := m :: s.top.done } := if_pos hlast
      rw [hflow] at htop
      obtain ⟨t, hrun, hmove', htcon, htmem, htfault⟩ := ih (s := u) (hmove.stopped hs rfl) hr
        (by rw [htop]; exact hdone.store hleft hlast) (by rw [htop]; exact hrowf) (by rw [htop]; exact hcolf)
        (by rw [htop]; exact hstored)
        (by
          rw [htop]
          simp only [Frame.microDone_mu]
          rw [hmove.cfg]
          omega)
      have hnext : u.top.commandDone = s.top.commandDone := by rw [htop]; rfl
      exact ⟨t, hrun, hnext ▸ hmove.trans hmove', htcon, htmem, htfault⟩
    · have hflow : storedFlow s.cfg m s.top = s.top.commandDone := if_neg hlast
      have hmu := hdone.mu
      obtain rfl : picks = [] := List.eq_nil_of_length_eq_zero (by omega)
      exact ⟨u, rfl, hflow ▸ hmove, hstored.trans (consoleAfterStores_all con (hdone.last hleft hlast)), rfl, rfl⟩

/-- What a whole PUTCHAR of `ch` does from `s` to `t` (R93). -/
structure PutcharDone (ch : Byte) (s t : State) : Prop where
  move : ConsoleMove s.top.commandDone s t
  con : t.con = { s.con with
    row := (nextCursor s.con.row s.con.col).1, col := (nextCursor s.con.row s.con.col).2 }
  mem : t.mem = (s.storeCell (cellIdx s.con.row s.con.col) (glyphCell ch s.con.attr)).mem
  fault : t.fault = s.fault

/-- The glyph of a PUTCHAR whose flow holds the Console registers (R93, R95). -/
theorem writeGlyph_of_read {f : Frame} {s u : State} (ch : Byte) (h : ConsoleMove f s u) (hrow : f.row = s.con.row)
    (hcol : f.col = s.con.col) (hattr : f.attr = s.con.attr) (hmem : u.mem = s.mem) :
    (u.writeGlyph ch).mem = (s.storeCell (cellIdx s.con.row s.con.col) (glyphCell ch s.con.attr)).mem := by
  simp only [State.writeGlyph, State.storeCell, State.memWrite_mem, h.top, h.cfg, hrow, hcol, hattr, hmem, cellAddr]

/-- The reads under `fault`, all in one micro-step (R93 `m0`). -/
theorem putchar_start_move {s : State} (ch : Byte) (k : Nat) (hr : s.cfg.raceModel = .fault) (hmu : s.top.mu = 0)
    (hb : noConsoleBelow s) (hready : s.con.ready = true) :
    ∃ u, exec (.putchar ch) { s with pick := k } = .next u ∧
      ConsoleMove { s.top.microDone .putchar with row := s.con.row, col := s.con.col, attr := s.con.attr } s u ∧
      u.con = s.con ∧ u.mem = s.mem ∧ u.fault = s.fault := by
  refine ⟨_, exec_putchar_start (s := { s with pick := k }) ch hr hmu hb hready, ?_, rfl, rfl, rfl⟩
  rw [State.microDone_eq, State.readCursor, State.setTop_top, State.setTop_setTop]
  exact ConsoleMove.of_setTop _ s s.con s.mem s.fault k

/-- The glyph under `fault` (R93 `m1`), and under `interleave` of a cursor on the screen (R95 `u4`). -/
theorem putchar_glyph_move {s : State} (ch : Byte) (k : Nat)
    (hmu : s.top.mu = if s.cfg.raceModel = .fault then 1 else 3)
    (hrow : s.top.row < 25) (hcol : s.top.col < 80) :
    ∃ u, exec (.putchar ch) { s with pick := k } = .next u ∧ ConsoleMove (s.top.microDone .putchar) s u ∧
      u.con = s.con ∧ u.mem = (s.writeGlyph ch).mem ∧ u.fault = s.fault := by
  refine ⟨(({ s with pick := k } : State).writeGlyph ch).microDone .putchar, ?_,
    ConsoleMove.of_setTop _ s s.con _ s.fault k, rfl, rfl, rfl⟩
  cases hr : s.cfg.raceModel with
  | fault => exact exec_putchar_glyph (s := { s with pick := k }) ch hr (hmu.trans (if_pos hr))
  | interleave =>
    rw [exec_putchar_checked (s := { s with pick := k }) ch hr (hmu.trans (if_neg (by simp [hr])))]
    exact congrArg _ (checkedGlyph_of_onScreen (s := { s with pick := k }) ch hrow hcol)

/-- The cursor under `fault` (R93 `m2`). -/
theorem putchar_advance_move {s : State} (ch : Byte) (k : Nat) (hr : s.cfg.raceModel = .fault) (hmu : 2 ≤ s.top.mu) :
    ∃ u, exec (.putchar ch) { s with pick := k } = .next u ∧ ConsoleMove s.top.commandDone s u ∧
      u.con = { s.con with row := (nextCursor s.top.row s.top.col).1, col := (nextCursor s.top.row s.top.col).2 } ∧
      u.mem = s.mem ∧ u.fault = s.fault :=
  ⟨_, exec_putchar_advance (s := { s with pick := k }) ch hr hmu, ConsoleMove.of_setTop _ s _ s.mem s.fault k, rfl, rfl,
    rfl⟩

theorem execMicros_putchar_fault {s : State} (ch : Byte) (picks : List Nat) (hs : s.stopped = false)
    (hr : s.cfg.raceModel = .fault) (hlen : picks.length = 3) (hmu : s.top.mu = 0) (hready : s.con.ready = true)
    (hb : noConsoleBelow s) (hrow : s.con.row < 25) (hcol : s.con.col < 80) :
    ∃ t, execMicros (.putchar ch) picks s = .next t ∧ PutcharDone ch s t := by
  obtain ⟨k₁, k₂, k₃, rfl⟩ := List.length_eq_three.1 hlen
  obtain ⟨u, hu, move₁, con₁, mem₁, fault₁⟩ := putchar_start_move ch k₁ hr hmu hb hready
  have hur : u.cfg.raceModel = .fault := by rw [move₁.cfg, hr]
  obtain ⟨v, hv, move₂, con₂, mem₂, fault₂⟩ := putchar_glyph_move (s := u) ch k₂
    (by rw [move₁.top, if_pos hur]; exact congrArg (· + 1) hmu) (by rw [move₁.top]; exact hrow)
    (by rw [move₁.top]; exact hcol)
  have move₁₂ := move₁.trans move₂
  rw [move₁.top] at move₁₂
  obtain ⟨t, ht, move₃, con₃, mem₃, fault₃⟩ := putchar_advance_move (s := v) ch k₃ (by rw [move₁₂.cfg, hr])
    (by rw [move₁₂.top]; simp [hmu])
  have hnext : v.top.commandDone = s.top.commandDone := by rw [move₁₂.top]; rfl
  refine ⟨t, ?_, hnext ▸ move₁₂.trans move₃, ?_, ?_, fault₃.trans (fault₂.trans fault₁)⟩
  · rw [execMicros_cons _ hs hu, execMicros_cons _ (move₁.stopped hs fault₁) hv,
      execMicros_cons _ (move₁₂.stopped hs (fault₂.trans fault₁)) ht]
    rfl
  · rw [con₃, move₁₂.top, con₂, con₁]
    rfl
  · exact mem₃.trans (mem₂.trans (writeGlyph_of_read ch move₁ rfl rfl rfl mem₁))

theorem execMicros_putchar_interleave {s : State} (ch : Byte) (picks : List Nat) (hs : s.stopped = false)
    (hr : s.cfg.raceModel = .interleave) (hlen : picks.length = putcharSteps s.cfg.exposeIntermediateColumn)
    (hmu : s.top.mu = 0) (hdone : s.top.done = []) (hready : s.con.ready = true) (hrow : s.con.row < 25)
    (hcol : s.con.col < 80) : ∃ t, execMicros (.putchar ch) picks s = .next t ∧ PutcharDone ch s t := by
  have hsteps : 6 ≤ putcharSteps s.cfg.exposeIntermediateColumn := by unfold putcharSteps; split <;> decide
  obtain ⟨k, rest, hrest⟩ : ∃ k rest, picks.drop 3 = k :: rest :=
    List.exists_cons_of_length_pos (by rw [List.length_drop]; omega)
  have hcount : rest.length + 4 = putcharSteps s.cfg.exposeIntermediateColumn := by
    have := congrArg List.length hrest
    rw [List.length_drop, List.length_cons] at this
    omega
  -- the reads
  obtain ⟨u, f, hu, move₁, hfmu, hfdone, ⟨hfrow, hfcol, hfattr⟩, hfnext, con₁, mem₁, fault₁⟩ :=
    execMicros_putchar_reads ch (picks.drop 3) (picks.take 3) hs hr hready (Frame.ReadsDone.of_start hmu hdone)
      (by simp [Frame.HasRead, hdone]) (by rw [hmu, List.length_take]; omega)
  rw [List.take_append_drop, hrest] at hu
  have hfall := hfdone.all hfmu
  replace hfrow := hfrow (hfall _ (by decide))
  replace hfcol := hfcol (hfall _ (by decide))
  replace hfattr := hfattr (hfall _ (by decide))
  have hur : u.cfg.raceModel = .interleave := by rw [move₁.cfg, hr]
  -- the glyph
  obtain ⟨v, hv, move₂, con₂, mem₂, fault₂⟩ := putchar_glyph_move (s := u) ch k
    (by rw [move₁.top, if_neg (by simp [hur]), hfmu]) (by rw [move₁.top, hfrow]; exact hrow)
    (by rw [move₁.top, hfcol]; exact hcol)
  have move₁₂ := move₁.trans move₂
  rw [move₁.top] at move₁₂
  have hvdone : v.top.StoresDone v.cfg := by rw [move₁₂.top]; exact hfdone.glyph hfmu
  have hvcon : v.con = consoleAfterStores v.cfg.exposeIntermediateColumn s.con v.top.done := by
    have hreads : ∀ m, m ∉ cursorReads → m ∉ f.done := fun m hm h => hm (hfdone.reads m h)
    have hout : .storeRow ∉ f.done ∧ .storeCol ∉ f.done ∧ .wrapCol ∉ f.done :=
      ⟨hreads _ (by decide), hreads _ (by decide), hreads _ (by decide)⟩
    rw [con₂, con₁, move₁₂.top]
    simp [consoleAfterStores, hout]
  -- the cursor stores
  obtain ⟨t, ht, move₃, con₃, mem₃, fault₃⟩ := execMicros_putchar_stores ch s.con hcol rest (s := v)
    (move₁₂.stopped hs (fault₂.trans fault₁)) (by rw [move₁₂.cfg, hr]) hvdone (by rw [move₁₂.top]; exact hfrow)
    (by rw [move₁₂.top]; exact hfcol) hvcon
    (by
      rw [move₁₂.top, move₁₂.cfg, ← hcount, Frame.microDone_mu, hfmu]
      omega)
  have hnext : v.top.commandDone = s.top.commandDone := by rw [move₁₂.top, ← hfnext]; rfl
  refine ⟨t, ?_, hnext ▸ move₁₂.trans move₃, con₃, ?_, fault₃.trans (fault₂.trans fault₁)⟩
  · rw [hu, execMicros_cons _ (move₁.stopped hs fault₁) hv, ht]
  · exact mem₃.trans (mem₂.trans (writeGlyph_of_read ch move₁ hfrow hfcol hfattr mem₁))

/-- Settles O21: under `fault` the three micro-steps in turn; under `interleave` the reads in any order, the glyph, and
the cursor stores in any order. -/
theorem putcharWhole : Obligations.PutcharWhole := by
  unfold Obligations.PutcharWhole
  intro s ch picks hs hlen hmu hdone hready hb hrow hcol
  obtain ⟨t, hrun, hmove, hcon, hmem, hfault⟩ :
      ∃ t, execMicros (.putchar ch) picks s = .next t ∧ PutcharDone ch s t := by
    cases hr : s.cfg.raceModel with
    | fault =>
      simp only [microCount, hr] at hlen
      exact execMicros_putchar_fault ch picks hs hr hlen hmu hready (hb hr) hrow hcol
    | interleave =>
      simp only [microCount, hr] at hlen
      exact execMicros_putchar_interleave ch picks hs hr hlen hmu hdone hready hrow hcol
  have hstored : ∀ a, t.mem.byteAt a =
      (s.storeCell (cellIdx s.con.row s.con.col) (glyphCell ch s.con.attr)).mem.byteAt a := fun a => by rw [hmem]
  refine ⟨t, hrun, ?_, fun a ha => ?_, hcon, hmove.contexts, hmove.table, hmove.pics, hmove.flag, hmove.trace,
    hmove.ptrace, ⟨hfault, hmove.refused⟩, hmove.inputs⟩
  · exact (cellAt_congr (s := s.storeCell _ _) hmove.cfg fun a _ _ => hstored a).trans (cellAt_storeCell s _ _)
  · exact (hstored a).trans (keepsMemoryOutside_memWrite s _ CELL_BYTES _ a ha)

end Sys2Proof.Machine
end

section
/-!
PROOFS. 10_state.md and 41_console.md: the flows after a step, the Console race (R90), and the cursor with what every
flow has read of it (R24, R95).
-/

namespace Sys2Proof.Machine

/-! ### The flows after a step -/

/-- The flow is inside neither a Console command nor PICREMAP. -/
def Frame.quiet (f : Frame) : Prop := ∀ k, f.inOp = some k → k.isConsole = false ∧ k ≠ .picremap

/-- What a step that runs no command puts on top, where `f` was the running flow: a flow at the start of a command, or
`f` inside the trampoline's EOI pair. -/
def freshOver (f g : Frame) : Prop :=
  (∃ prog pc, g = { Frame.start prog with pc := pc }) ∨ (f.quiet ∧ g = f.microDone .piceoi)

theorem Frame.quiet_of_none {f : Frame} (h : f.inOp = none) : f.quiet := fun k hk => by simp [h] at hk

theorem Frame.quiet_of_kind {f : Frame} {k : Kind} (h : f.inOp = some k) (hk : k.isConsole = false)
    (hr : k ≠ .picremap) : f.quiet := fun k' hk' => by
  obtain rfl : k = k' := Option.some.inj (h.symm.trans hk')
  exact ⟨hk, hr⟩

theorem freshOver_atCommand (f g : Frame) (n : Nat) : freshOver f (g.atCommand n) := .inl ⟨g.prog, n, rfl⟩

theorem freshOver_start (f : Frame) (prog : List CmdWord) : freshOver f (Frame.start prog) := .inl ⟨prog, 0, rfl⟩

/-- A flow with a decoded word at its `pc` is inside no command or inside that one (R41). -/
theorem Frame.inStep_cases {f : Frame} {w : CmdWord} {i : Instr} (h : f.inStep) (hf : f.fetch = some w)
    (hd : decode w = .ok i) : (f.mu = 0 ∧ f.inOp = none) ∨ (f.mu ≠ 0 ∧ f.inOp = some i.kind) := by
  refine h.imp id fun ⟨hmu, w', i', hf', hd', hop⟩ => ⟨hmu, ?_⟩
  obtain rfl : w = w' := Option.some.inj (hf.symm.trans hf')
  rw [hop, decode_inj hd hd']

/-- A finished flow is inside no command (R41). -/
theorem Frame.inOp_of_fetch_none {f : Frame} (h : f.inStep) (hf : f.fetch = none) : f.inOp = none := by
  rcases h with ⟨-, hop⟩ | ⟨-, w, i, hw, -⟩
  · exact hop
  · simp [hf] at hw

theorem deliver_frames (v : Byte) (s : State) :
    (s.deliver v).frames = s.frames ∨ ∃ p, (s.deliver v).frames = Frame.start p :: s.frames := by
  rcases deliver_cases v s with ⟨f, h, -⟩ | ⟨_, p, b, -, -, -, h⟩ <;> rw [h]
  · exact .inl rfl
  · exact .inr ⟨p, rfl⟩

theorem State.frames_of_irqs {s t : State} {k j : IrqContext} {rest : List IrqContext} (hi : s.irqs = k :: rest)
    (hm : t.main = s.main) (hj : t.irqs = j :: rest) : t.frames = j.frame :: s.below := by
  simp [State.frames, State.below, hi, hm, hj]

/-- The flows after a step: the running flow has run a micro-step of its command; or the Console registers are as
before and fresh flows stand on top of the old ones, none of which is inside PICREMAP where there is a fresh one, or of
those below the running one, which was inside neither a Console command nor PICREMAP. -/
theorem step_frames {s t : State} (hs : s.inStep) (h : step s = .next t) :
    (∃ w i g, s.inProgram ∧ s.top.fetch = some w ∧ decode w = .ok i ∧ (∀ v, i ≠ .swint v) ∧
        exec i s.popChoice = .next t ∧ flowAfter i.kind s.top g ∧ t.frames = g :: s.below) ∨
      (t.con = s.con ∧ ∃ new, ((t.frames = new ++ s.frames ∧ (new = [] ∨ s.remapInProgress = false)) ∨
        (s.top.quiet ∧ t.frames = new ++ s.below)) ∧ ∀ g ∈ new, freshOver s.top g) := by
  have swint : ∀ w v, s.inProgram → s.top.fetch = some w → decode w = .ok (.swint v) →
      t = ((s.popChoice.logEvent (.int v)).commandDone).deliver v →
      t.con = s.con ∧ ∃ new, ((t.frames = new ++ s.frames ∧ (new = [] ∨ s.remapInProgress = false)) ∨
        (s.top.quiet ∧ t.frames = new ++ s.below)) ∧ ∀ g ∈ new, freshOver s.top g := by
    rintro w v hp hf hd rfl
    have hquiet : s.top.quiet := by
      rcases Frame.inStep_cases (State.inStep_top hs hp) hf hd with ⟨-, hop⟩ | ⟨-, hop⟩
      · exact Frame.quiet_of_none hop
      · exact Frame.quiet_of_kind hop rfl nofun
    have hbefore : ((s.popChoice.logEvent (.int v)).commandDone).frames = s.top.commandDone :: s.below :=
      withTopFlow_frames (s := s.popChoice) (swint_before v s.popChoice)
    have hfresh : freshOver s.top s.top.commandDone := freshOver_atCommand s.top s.top (s.top.pc + 1)
    refine ⟨(deliver_keeps v _).1, ?_⟩
    rcases deliver_frames v ((s.popChoice.logEvent (.int v)).commandDone) with h | ⟨p, h⟩ <;> rw [hbefore] at h
    · exact ⟨[s.top.commandDone], .inr ⟨hquiet, h⟩, by simpa using hfresh⟩
    · exact ⟨[Frame.start p, s.top.commandDone], .inr ⟨hquiet, h⟩,
        List.forall_mem_cons.2 ⟨freshOver_start _ p, by simpa using hfresh⟩⟩
  rcases step_data h with ⟨-, hcon, -⟩ | ⟨-, -, w, i, hp, hf, hd, he⟩
  · obtain ⟨-, h⟩ := step_contexts h
    rcases h with ⟨hmain, hirqs, -⟩ | ⟨w, i, g, -, hp, hf, hd, he, hflow, hc⟩ | ⟨w, v, -, hp, hf, hd, ht⟩ |
      ⟨c, n, -, hidle, -, rfl⟩ | ⟨k, rest, hi, hbody, hfetch, rfl⟩ | ⟨k, rest, hi, heoi, rfl⟩ | ⟨k, rest, hi, hret, rfl⟩
    · exact .inr ⟨hcon, [], .inl ⟨by simp [State.frames, hmain, hirqs], .inl rfl⟩, by simp⟩
    · by_cases hv : ∃ v, i = .swint v
      · obtain ⟨v, rfl⟩ := hv
        exact .inr (swint w v hp hf hd (Host.Outcome.next.inj he).symm)
      refine .inl ⟨w, i, g, hp, hf, hd, not_exists.1 hv, he, hflow, ?_⟩
      rw [State.frames_eq, State.top_congr hc.1 hc.2, State.below_congr hc.1 hc.2, State.setTop_top,
        State.setTop_below]
    · exact .inr (swint w v hp hf hd ht)
    · have hack : (s.popChoice.acknowledge c n).frames = s.frames := by rw [acknowledge_eq]; rfl
      refine .inr ⟨hcon, ?_⟩
      rcases deliver_frames (s.lineVector c n) (s.popChoice.acknowledge c n) with h | ⟨p, h⟩ <;> rw [hack] at h
      · exact ⟨[], .inl ⟨h, .inl rfl⟩, by simp⟩
      · exact ⟨[Frame.start p], .inl ⟨h, .inr hidle⟩, by simpa using freshOver_start _ p⟩
    · have htop : s.top = k.frame := State.top_cons s k rest hi
      have hk : k.inStep := hs.2 k (hi ▸ List.mem_cons_self)
      have hstep : k.frame.inStep := by simpa only [IrqContext.inStep, hbody] using hk
      refine .inr ⟨hcon, [k.frame.atCommand k.frame.pc], .inr ⟨?_, ?_⟩, by simpa using freshOver_atCommand _ _ _⟩
      · rw [htop]
        exact Frame.quiet_of_none (Frame.inOp_of_fetch_none hstep hfetch)
      · rw [setPhase_cons _ s.popChoice k rest hi]
        simp [State.frames, State.below, hi]
    · have htop : s.top = k.frame := State.top_cons s k rest hi
      have hk : k.inStep := hs.2 k (hi ▸ List.mem_cons_self)
      have hquiet : s.top.quiet := by
        simp only [IrqContext.inStep, heoi] at hk
        rw [htop]
        rcases hk with ⟨-, hop⟩ | ⟨-, hop⟩
        · exact Frame.quiet_of_none hop
        · exact Frame.quiet_of_kind hop rfl nofun
      obtain ⟨hmain, -, -, -, -, -, -, hirqs | hirqs | hirqs⟩ := trampolineEoi_contexts (s := s.popChoice) hi
      · exact .inr ⟨hcon, [], .inl ⟨by simp [State.frames, hmain, hirqs], .inl rfl⟩, by simp⟩
      · refine .inr ⟨hcon, [k.frame.microDone .piceoi], .inr ⟨hquiet, State.frames_of_irqs hi hmain hirqs⟩, ?_⟩
        simpa using .inr ⟨hquiet, htop ▸ rfl⟩
      · exact .inr ⟨hcon, [k.frame.atCommand k.frame.pc], .inr ⟨hquiet, State.frames_of_irqs hi hmain hirqs⟩,
          by simpa using freshOver_atCommand _ _ _⟩
    · have hk : k.inStep := hs.2 k (hi ▸ List.mem_cons_self)
      simp only [IrqContext.inStep, hret] at hk
      refine .inr ⟨hcon, [], .inr ⟨?_, ?_⟩, by simp⟩
      · rw [State.top_cons s k rest hi]
        exact Frame.quiet_of_none hk.2
      · rw [interruptReturn_cons s.popChoice k rest hi]
        simp [State.frames, State.below, hi]
  · by_cases hv : ∃ v, i = .swint v
    · obtain ⟨v, rfl⟩ := hv
      exact .inr (swint w v hp hf hd (Host.Outcome.next.inj he).symm)
    · rcases exec_contexts he with ⟨g, hg, hw⟩ | ⟨v, h', -⟩
      · exact .inl ⟨w, i, g, hp, hf, hd, not_exists.1 hv, he, hg, withTopFlow_frames (s := s.popChoice) hw⟩
      · exact absurd ⟨v, h'⟩ hv

/-! ### The Console race -/

/-- The flow is inside a Console command, as `State.noRace` counts it. -/
def Frame.inConsole (f : Frame) : Bool := (f.inOp.filter Kind.isConsole).isSome

theorem Frame.inConsole_iff (f : Frame) : f.inConsole = true ↔ ∃ k, f.inOp = some k ∧ k.isConsole = true := by
  cases hop : f.inOp with
  | none => simp [Frame.inConsole, hop]
  | some k => cases hk : k.isConsole <;> simp [Frame.inConsole, hop, Option.filter, hk]

theorem Frame.inConsole_of_freshOver {f g : Frame} (h : freshOver f g) : g.inConsole = false := by
  rcases h with ⟨prog, pc, rfl⟩ | ⟨-, rfl⟩ <;> rfl

theorem State.noRace_iff (s : State) :
    s.noRace ↔ (s.cfg.raceModel = .fault → s.frames.countP Frame.inConsole ≤ 1) := by
  unfold State.noRace
  rw [List.countP_eq_length_filter]
  exact Iff.rfl

/-- Under `fault`, the first micro-step of a Console command leaves the flows as they are, or no context below is inside
a Console command (R90). -/
theorem exec_console_start {i : Instr} {s t : State} (hk : i.kind.isConsole = true) (hr : s.cfg.raceModel = .fault)
    (hmu : s.top.mu = 0) (he : exec i s = .next t) : t.frames = s.frames ∨ noConsoleBelow s := by
  by_cases hb : noConsoleBelow s
  · exact .inr hb
  · obtain ⟨f, -, k, -, -, hrace⟩ := (consoleRace s i hk hmu).1 hr hb
    obtain rfl := Host.Outcome.next.inj (hrace.symm.trans he)
    exact .inl rfl

/-- Settles O48: a flow comes into a Console command past the race check only; every other change of the flows puts
quiet ones in their place. -/
theorem noRaceKept : Obligations.NoRaceKept := by
  unfold Obligations.NoRaceKept
  intro s t hs hrace hstep
  obtain ⟨hcfg, -⟩ := step_contexts hstep
  rw [State.noRace_iff] at hrace ⊢
  rw [hcfg]
  intro hr
  have hcount := hrace hr
  rw [State.frames_eq, List.countP_cons] at hcount
  rcases step_frames hs hstep with ⟨w, i, g, hp, hf, hd, -, he, hflow, hframes⟩ | ⟨-, new, hframes, hnew⟩
  · have hle : ∀ b : Bool, (b = true → s.top.inConsole = true ∨ s.below.countP Frame.inConsole = 0) →
        s.below.countP Frame.inConsole + (if b = true then 1 else 0) ≤ 1 := by
      intro b hb
      cases b with
      | false => exact (Nat.le_add_right _ _).trans hcount
      | true => rcases hb rfl with h | h <;> simp_all
    by_cases hk : i.kind.isConsole = true
    · rcases Frame.inStep_cases (State.inStep_top hs hp) hf hd with ⟨hmu, -⟩ | ⟨-, hop⟩
      · rcases exec_console_start (s := s.popChoice) hk hr hmu he with hsame | hb
        · rw [hsame]
          exact hrace hr
        · rw [hframes, List.countP_cons]
          refine hle _ fun _ => .inr (List.countP_eq_zero.2 fun f hfm hc => ?_)
          obtain ⟨k, hop, hkc⟩ := f.inConsole_iff.1 hc
          simp [hb f hfm k hop] at hkc
      · rw [hframes, List.countP_cons]
        exact hle _ fun _ => .inl (s.top.inConsole_iff.2 ⟨_, hop, hk⟩)
    · rw [hframes, List.countP_cons]
      refine hle _ fun hg => ?_
      rcases hflow with rfl | ⟨-, -, -, hop⟩ | rfl
      · exact .inl hg
      · obtain ⟨k, hop', hkc⟩ := g.inConsole_iff.1 hg
        obtain rfl := Option.some.inj (hop.symm.trans hop')
        exact absurd hkc hk
      · exact absurd hg nofun
  · have hzero : new.countP Frame.inConsole = 0 :=
      List.countP_eq_zero.2 fun g hg => by simp [Frame.inConsole_of_freshOver (hnew g hg)]
    rcases hframes with ⟨hframes, -⟩ | ⟨-, hframes⟩ <;> rw [hframes, List.countP_append, hzero, Nat.zero_add]
    · exact hrace hr
    · exact (Nat.le_add_right _ _).trans hcount

end Sys2Proof.Machine
end

section
/-!
PROOFS. 10_state.md R24 and 41_console.md R95: every step keeps the cursor on the screen, with what every flow has read
of it, but for the intermediate column.
-/

namespace Sys2Proof.Machine

/-! ### Commands other than PUTCHAR -/

/-- The flow `f` is as it was, at the next command, or one micro-step further in a command of kind `k` with what it had
read. -/
def plainFlow (k : Kind) (f g : Frame) : Prop :=
  g = f ∨ g = f.commandDone ∨ ∃ d, g = { f.microDone k with done := d }

theorem plainFlow_top_microDone (k : Kind) {s u : State} (h : u.top = s.top) :
    plainFlow k s.top (u.microDone k).top := by
  rw [State.microDone_eq, State.setTop_top, h]
  exact .inr (.inr ⟨s.top.done, rfl⟩)

theorem plainFlow_top_microDoneOf (k : Kind) (m : Micro) {s u : State} (h : u.top = s.top) :
    plainFlow k s.top (u.microDoneOf k m).top := by
  rw [State.microDoneOf_eq, State.setTop_top, h]
  exact .inr (.inr ⟨_, rfl⟩)

theorem plainFlow_top_commandDone (k : Kind) {s u : State} (h : u.top = s.top) :
    plainFlow k s.top u.commandDone.top := by
  rw [State.commandDone_eq, State.setTop_top, h]
  exact .inr (.inl rfl)

theorem initCell_plain (s : State) (i : Nat) :
    plainFlow .cinit s.top (s.initCell i).top ∧ (s.initCell i).con = s.con := by
  unfold State.initCell
  split_ifs
  · exact ⟨plainFlow_top_microDone _ rfl, rfl⟩
  · exact ⟨plainFlow_top_commandDone _ rfl, rfl⟩
  · exact ⟨plainFlow_top_commandDone _ rfl, rfl⟩

/-- CINIT homes the row and the column or leaves them, and reads neither (R91, R95). -/
theorem exec_cinit_plain {s t : State} (he : exec .cinit s = .next t) :
    plainFlow .cinit s.top t.top ∧ (t.con.row = s.con.row ∨ t.con.row = 0) ∧ (t.con.col = s.con.col ∨ t.con.col = 0) ∧
      (s.con.ready = true → t.con.ready = true) := by
  have cell : ∀ i, t = s.initCell i → plainFlow .cinit s.top t.top ∧ (t.con.row = s.con.row ∨ t.con.row = 0) ∧
      (t.con.col = s.con.col ∨ t.con.col = 0) ∧ (s.con.ready = true → t.con.ready = true) := by
    rintro i rfl
    obtain ⟨hflow, hcon⟩ := initCell_plain s i
    rw [hcon]
    exact ⟨hflow, .inl rfl, .inl rfl, id⟩
  simp only [exec, execCinit, Host.Outcome.next.injEq] at he
  cases hr : s.cfg.raceModel with
  | fault =>
    simp only [hr, State.cinitMicro] at he
    split at he
    · rcases startConsole_cases .cinit (fun s => ({ s with con := initialConsole s.cfg } : State).microDone .cinit) s
        with ⟨k, -, -, h⟩ | ⟨-, h⟩ <;> rw [h] at he <;> subst he
      · exact ⟨.inl rfl, .inl rfl, .inl rfl, id⟩
      · exact ⟨plainFlow_top_microDone _ rfl, .inr rfl, .inr rfl, fun _ => rfl⟩
    · exact cell _ he.symm
  | interleave =>
    simp only [hr, State.cinitInterleaved] at he
    split at he
    · split at he <;> subst he
      · next m _ =>
        refine ⟨plainFlow_top_microDoneOf _ m (by cases m <;> rfl), ?_⟩
        cases m
        case initRow => exact ⟨.inr rfl, .inl rfl, id⟩
        case initCol => exact ⟨.inl rfl, .inr rfl, id⟩
        case initReady => exact ⟨.inl rfl, .inl rfl, fun _ => rfl⟩
        all_goals exact ⟨.inl rfl, .inl rfl, id⟩
      · exact ⟨plainFlow_top_microDone _ rfl, .inl rfl, .inl rfl, id⟩
    · exact cell _ he.symm

/-- SETCOLOR leaves the cursor (R92). -/
theorem exec_setcolor_plain {a : Byte} {s t : State} (he : exec (.setcolor a) s = .next t) :
    plainFlow .setcolor s.top t.top ∧ t.con.row = s.con.row ∧ t.con.col = s.con.col ∧ t.con.ready = s.con.ready := by
  simp only [exec, execSetcolor, Host.Outcome.next.injEq] at he
  rcases startReady_cases .setcolor (fun s => ({ s with con := s.con.setAttr a } : State).commandDone) s with
    ⟨k, -, -, h⟩ | ⟨-, -, h⟩ | ⟨-, -, h⟩ <;> rw [h] at he <;> subst he
  · exact ⟨.inl rfl, rfl, rfl, rfl⟩
  · exact ⟨.inl rfl, rfl, rfl, rfl⟩
  · exact ⟨plainFlow_top_commandDone _ rfl, rfl, rfl, rfl⟩

/-- A command that is no Console command leaves the Console registers. -/
theorem exec_con {i : Instr} {s t : State} (hk : i.kind.isConsole = false) (he : exec i s = .next t) :
    t.con = s.con := by
  cases i with
  | cinit => exact absurd hk nofun
  | setcolor a => exact absurd hk nofun
  | putchar ch => exact absurd hk nofun
  | idtbuild =>
    simp only [exec, execIdtbuild, Host.Outcome.next.injEq] at he
    subst he
    split <;> rfl
  | idtreg v h ty =>
    simp only [exec, execIdtreg, critical_writeDescriptor_eq, Host.Outcome.next.injEq] at he
    subst he
    split <;> rfl
  | picremap mb sb =>
    simp only [exec, execPicremap, Host.Outcome.next.injEq] at he
    subst he
    split
    · rfl
    · unfold State.andThen
      split_ifs <;> simp [State.microDone, State.commandDone]
  | piceoi =>
    simp only [exec, execPiceoi, State.eoiMicro, Host.Outcome.next.injEq] at he
    subst he
    unfold State.andThen
    (repeat' split) <;> simp [State.microDone, State.commandDone]
  | cli => simp only [exec, execCli, Host.Outcome.next.injEq] at he; subst he; rfl
  | sti => simp only [exec, execSti, Host.Outcome.next.injEq] at he; subst he; rfl
  | swint v =>
    simp only [exec, execSwint, Host.Outcome.next.injEq] at he
    subst he
    exact (deliver_keeps v _).1

/-- No command but PUTCHAR changes what its flow has read, other than by completing; SWINT leaves the flow at once. -/
theorem exec_plain {i : Instr} {s t : State} (hp : ∀ ch, i ≠ .putchar ch) (hv : ∀ v, i ≠ .swint v)
    (he : exec i s = .next t) :
    plainFlow i.kind s.top t.top ∧ (t.con.row = s.con.row ∨ t.con.row = 0) ∧
      (t.con.col = s.con.col ∨ t.con.col = 0) := by
  suffices h : i.kind.isConsole = false → plainFlow i.kind s.top t.top by
    cases i with
    | cinit =>
      obtain ⟨hflow, hrow, hcol, -⟩ := exec_cinit_plain he
      exact ⟨hflow, hrow, hcol⟩
    | setcolor a =>
      obtain ⟨hflow, hrow, hcol, -⟩ := exec_setcolor_plain he
      exact ⟨hflow, .inl hrow, .inl hcol⟩
    | putchar ch => exact absurd rfl (hp ch)
    | swint v => exact absurd rfl (hv v)
    | idtbuild | idtreg _ _ _ | picremap _ _ | piceoi | cli | sti =>
      rw [exec_con rfl he]
      exact ⟨h rfl, .inl rfl, .inl rfl⟩
  intro hk
  cases i with
  | cinit => exact absurd hk nofun
  | setcolor a => exact absurd hk nofun
  | putchar ch => exact absurd hk nofun
  | swint v => exact absurd rfl (hv v)
  | idtbuild =>
    simp only [exec, execIdtbuild, Host.Outcome.next.injEq] at he
    subst he
    split
    · exact .inl rfl
    · exact plainFlow_top_commandDone _ rfl
  | idtreg v h ty =>
    simp only [exec, execIdtreg, critical_writeDescriptor_eq, Host.Outcome.next.injEq] at he
    subst he
    split
    · exact .inl rfl
    · exact plainFlow_top_commandDone _ rfl
  | picremap mb sb =>
    simp only [exec, execPicremap, Host.Outcome.next.injEq] at he
    subst he
    split
    · exact plainFlow_top_commandDone _ rfl
    · unfold State.andThen
      split_ifs
      · exact .inl (by simp)
      · exact plainFlow_top_microDone _ (by simp)
      · exact plainFlow_top_commandDone _ (by simp)
  | piceoi =>
    simp only [exec, execPiceoi, State.eoiMicro, Host.Outcome.next.injEq] at he
    subst he
    unfold State.andThen
    split <;> split_ifs
    · exact .inl rfl
    · exact .inl (by simp)
    · exact plainFlow_top_microDone _ (by simp)
    · exact .inl (by simp)
    · exact plainFlow_top_commandDone _ (by simp)
  | cli => simp only [exec, execCli, Host.Outcome.next.injEq] at he; subst he; exact plainFlow_top_commandDone _ rfl
  | sti => simp only [exec, execSti, Host.Outcome.next.injEq] at he; subst he; exact plainFlow_top_commandDone _ rfl

/-! ### Flows in order -/

/-- A flow at the start of a command has read nothing and done nothing. -/
theorem Frame.localsOk_atCommand (cfg : Config) (f : Frame) (n : Nat) : (f.atCommand n).localsOk cfg :=
  ⟨(by decide : 0 < ROWS), .inl (by decide : 0 < COLS)⟩

theorem Frame.doneOk_atCommand (cfg : Config) (f : Frame) (n : Nat) : (f.atCommand n).doneOk cfg :=
  ⟨fun _ => rfl, fun _ h => absurd h nofun⟩

/-- Outside a PUTCHAR what a flow has read is on the screen. -/
theorem Frame.localsOk_outside {cfg : Config} {f : Frame} (h : f.localsOk cfg) (hop : f.inOp ≠ some .putchar) :
    f.row < ROWS ∧ f.col < COLS :=
  ⟨h.1, h.2.resolve_right fun h => hop h.2.2.2⟩

/-- Past the range check what a flow has read is on the screen (R95 `u4`). -/
theorem Frame.localsOk_checked {cfg : Config} {f : Frame} (h : f.localsOk cfg) (hmu : 3 < f.mu) :
    f.row < ROWS ∧ f.col < COLS :=
  ⟨h.1, h.2.resolve_right fun h => by omega⟩

/-- Under `fault` what a flow has read is on the screen. -/
theorem Frame.localsOk_fault {cfg : Config} {f : Frame} (h : f.localsOk cfg) (hr : cfg.raceModel = .fault) :
    f.row < ROWS ∧ f.col < COLS :=
  ⟨h.1, h.2.resolve_right fun h => by simp [hr] at h⟩

theorem Frame.doneOk_of_fault {cfg : Config} {f : Frame} (hr : cfg.raceModel = .fault) (h : f.mu ≠ 0) :
    f.doneOk cfg :=
  ⟨fun h0 => absurd h0 h, fun hi => by simp [hr] at hi⟩

theorem Frame.doneOk_of_kind {cfg : Config} {f : Frame} {k : Kind} (hop : f.inOp = some k) (hk : k ≠ .putchar)
    (h : f.mu ≠ 0) : f.doneOk cfg :=
  ⟨fun h0 => absurd h0 h, fun _ hi => absurd (Option.some.inj (hop.symm.trans hi)) hk⟩

/-- A micro-step of a command other than PUTCHAR keeps a flow in order. -/
theorem Frame.ok_of_plainFlow {cfg : Config} {k : Kind} {f g : Frame} (hk : k ≠ .putchar) (hop : f.inOp ≠ some .putchar)
    (hlocals : f.localsOk cfg) (hdone : f.doneOk cfg) (h : plainFlow k f g) : g.localsOk cfg ∧ g.doneOk cfg := by
  rcases h with rfl | rfl | ⟨d, rfl⟩
  · exact ⟨hlocals, hdone⟩
  · exact ⟨Frame.localsOk_atCommand cfg f _, Frame.doneOk_atCommand cfg f _⟩
  · obtain ⟨hrow, hcol⟩ := Frame.localsOk_outside hlocals hop
    exact ⟨⟨hrow, .inl hcol⟩, Frame.doneOk_of_kind rfl hk (Nat.succ_ne_zero _)⟩

theorem Frame.ok_of_freshOver {cfg : Config} {f g : Frame} (hlocals : f.localsOk cfg) (h : freshOver f g) :
    g.localsOk cfg ∧ g.doneOk cfg := by
  rcases h with ⟨prog, pc, rfl⟩ | ⟨hquiet, rfl⟩
  · exact ⟨⟨(by decide : 0 < ROWS), .inl (by decide : 0 < COLS)⟩, fun _ => rfl, fun _ h => absurd h nofun⟩
  · obtain ⟨hrow, hcol⟩ := Frame.localsOk_outside hlocals fun hop => by simpa [Kind.isConsole] using hquiet _ hop
    exact ⟨⟨hrow, .inl hcol⟩, Frame.doneOk_of_kind rfl nofun (Nat.succ_ne_zero _)⟩

/-! ### The running flow moves on -/

/-- The cursor stays in order where the running flow becomes `g`, in order as well: a column that is not on the screen
is as before, and then a `wrapsNext` of the running flow lasts, or is the one `g` is about to wrap (R95, C7). -/
theorem State.cursorOk_of_top {s t : State} {g : Frame} (h : s.cursorOk) (hcfg : t.cfg = s.cfg)
    (hframes : t.frames = g :: s.below) (hg : g.localsOk s.cfg ∧ g.doneOk s.cfg) (hrow : t.con.row < ROWS)
    (hcol : t.con.col < COLS ∨
      (t.con.col = s.con.col ∧ (s.cfg.exposeIntermediateColumn = true → s.top.wrapsNext → g.wrapsNext)) ∨
      (s.cfg.raceModel = .interleave ∧ s.cfg.exposeIntermediateColumn = true ∧ t.con.col = COLS ∧ g.wrapsNext)) :
    t.cursorOk := by
  obtain ⟨-, hcol₀, hlocals, hdone⟩ := h
  unfold State.localsOk at hlocals
  rw [State.frames_eq, List.forall_mem_cons] at hlocals hdone
  rw [State.frames_eq] at hcol₀
  unfold State.cursorOk State.localsOk
  rw [hcfg, hframes]
  refine ⟨hrow, ?_, List.forall_mem_cons.2 ⟨hg.1, hlocals.2⟩, List.forall_mem_cons.2 ⟨hg.2, hdone.2⟩⟩
  rcases hcol with hcol | ⟨hsame, hlast⟩ | ⟨hr, hexpose, hcol, hwraps⟩
  · exact .inl hcol
  · rw [hsame]
    refine hcol₀.imp_right fun ⟨hr, hexpose, hcol, f, hf, hwraps⟩ => ⟨hr, hexpose, hcol, ?_⟩
    rcases List.mem_cons.1 hf with rfl | hf
    · exact ⟨g, List.mem_cons_self, hlast hexpose hwraps⟩
    · exact ⟨f, List.mem_cons_of_mem g hf, hwraps⟩
  · exact .inr ⟨hr, hexpose, hcol, g, List.mem_cons_self, hwraps⟩

/-- Recording a stop leaves the cursor in order. -/
theorem State.cursorOk_raise {s : State} (h : s.cursorOk) (e : Fault) : (s.raise e).cursorOk := h

/-! ### PUTCHAR -/

/-- A PUTCHAR under `fault` keeps the cursor in order (R93). -/
theorem State.cursorOk_putchar_fault {s t : State} {ch : Byte} (h : s.cursorOk) (hr : s.cfg.raceModel = .fault)
    (he : exec (.putchar ch) s = .next t) : t.cursorOk := by
  have hlocals : s.top.localsOk s.cfg := h.2.2.1 _ (s.frames_eq ▸ List.mem_cons_self)
  have hcol : s.con.col < COLS := h.2.1.resolve_right fun h => by simp [hr] at h
  obtain ⟨hrowf, hcolf⟩ := Frame.localsOk_fault hlocals hr
  rcases Nat.lt_trichotomy s.top.mu 1 with hmu | hmu | hmu
  · have hmu : s.top.mu = 0 := by omega
    simp only [exec, execPutchar, hr, State.putcharMicro, hmu, Host.Outcome.next.injEq] at he
    rcases startReady_cases .putchar (fun s => s.readCursor.microDone .putchar) s with
      ⟨k, -, -, hgo⟩ | ⟨-, -, hgo⟩ | ⟨-, -, hgo⟩ <;> rw [hgo] at he <;> subst he
    · exact State.cursorOk_raise h _
    · exact State.cursorOk_raise h _
    · refine State.cursorOk_of_top h rfl (g := { s.top.microDone .putchar with
        row := s.con.row, col := s.con.col, attr := s.con.attr }) ?_ ⟨⟨h.1, .inl hcol⟩, ?_⟩ h.1 (.inl hcol)
      · rw [State.microDone_eq, State.readCursor, State.setTop_top, State.setTop_setTop, State.setTop_frames]
        rfl
      · exact Frame.doneOk_of_fault hr (Nat.succ_ne_zero _)
  · obtain rfl := Host.Outcome.next.inj ((exec_putchar_glyph ch hr hmu).symm.trans he)
    refine State.cursorOk_of_top h rfl (g := s.top.microDone .putchar) ?_ ⟨⟨hrowf, .inl hcolf⟩, ?_⟩ h.1 (.inl hcol)
    · rw [State.microDone_eq, State.setTop_frames]
      rfl
    · exact Frame.doneOk_of_fault hr (Nat.succ_ne_zero _)
  · obtain rfl := Host.Outcome.next.inj ((exec_putchar_advance ch hr hmu).symm.trans he)
    obtain ⟨hrow', hcol', -⟩ := nextCursor_onScreen hrowf hcolf
    refine State.cursorOk_of_top h rfl (g := s.top.commandDone) ?_
      ⟨Frame.localsOk_atCommand _ _ _, Frame.doneOk_atCommand _ _ _⟩ hrow' (.inl hcol')
    rw [State.commandDone_eq, State.setTop_frames]
    rfl

/-- The last micro-step of an interleaved PUTCHAR is no `u5`, since the wrap comes after it (R95). -/
theorem Frame.StoresDone.more_after_storeCol {s : State} (h : s.top.StoresDone s.cfg) (hm : storeLeft s .storeCol)
    (hexpose : s.cfg.exposeIntermediateColumn = true) :
    s.top.mu + 1 < putcharSteps s.cfg.exposeIntermediateColumn := by
  by_contra hlast
  rcases List.mem_cons.1 (h.last hm hlast _ (.inr (.inr ⟨rfl, hexpose⟩))) with hwrap | hwrap
  · exact absurd hwrap nofun
  · exact hm.1 (h.wrap hwrap)

theorem storedConsole_row_lt {expose : Bool} {r c : Nat} {m : Micro} {con : Console} (hr : r < ROWS) (hc : c < COLS)
    (hcon : con.row < ROWS) : (storedConsole expose r c m con).row < ROWS := by
  obtain ⟨hnext, -, -⟩ := nextCursor_onScreen hr hc
  unfold storedConsole
  split <;> (try split_ifs) <;> first | exact hcon | exact hnext | (simp only [ROWS] at *; omega)

/-- A cursor store of an interleaved PUTCHAR keeps the cursor in order (R95 `u5..u7`). -/
theorem State.cursorOk_store {s : State} {m : Micro} (h : s.cursorOk) (hr : s.cfg.raceModel = .interleave)
    (hstores : s.top.StoresDone s.cfg) (hm : storeLeft s m) :
    (({ s with con := storedConsole s.cfg.exposeIntermediateColumn s.top.row s.top.col m s.con } : State).setTop
      (storedFlow s.cfg m s.top)).cursorOk := by
  have hlocals : s.top.localsOk s.cfg := h.2.2.1 _ (s.frames_eq ▸ List.mem_cons_self)
  obtain ⟨hrowf, hcolf⟩ := Frame.localsOk_checked hlocals hstores.past
  have hnext := (nextCursor_onScreen hrowf hcolf).2.1
  have hflow : (storedFlow s.cfg m s.top).localsOk s.cfg ∧ (storedFlow s.cfg m s.top).doneOk s.cfg := by
    unfold storedFlow
    split_ifs with hmore
    · exact ⟨⟨hrowf, .inl hcolf⟩, (hstores.store hm hmore).doneOk⟩
    · exact ⟨Frame.localsOk_atCommand _ _ _, Frame.doneOk_atCommand _ _ _⟩
  refine State.cursorOk_of_top h rfl (State.setTop_frames _ _) hflow (storedConsole_row_lt hrowf hcolf h.1) ?_
  have hcase := hm
  obtain ⟨hout, rfl | rfl | ⟨rfl, hexpose, hstored⟩⟩ := hcase
  · cases hexpose : s.cfg.exposeIntermediateColumn with
    | false => exact .inl hnext
    | true =>
      rcases Nat.lt_or_eq_of_le (Nat.succ_le_of_lt hcolf) with hlt | hend
      · exact .inl hlt
      · refine .inr (.inr ⟨hr, rfl, hend, ?_⟩)
        rw [storedFlow, if_pos (hstores.more_after_storeCol hm hexpose)]
        refine ⟨rfl, List.mem_cons_self, fun hwrap => ?_, hend⟩
        rcases List.mem_cons.1 hwrap with hwrap | hwrap
        · exact absurd hwrap nofun
        · exact hout (hstores.wrap hwrap)
  · refine .inr (.inl ⟨?_, fun hexpose ⟨hop, hstored, hwrap, hend⟩ => ?_⟩)
    · simp only [State.setTop_con]
      unfold storedConsole
      cases s.cfg.exposeIntermediateColumn <;> dsimp only <;> split_ifs <;> rfl
    · have hmore : s.top.mu + 1 < putcharSteps s.cfg.exposeIntermediateColumn := by
        by_contra hlast
        exact hwrap ((List.mem_cons.1 (hstores.last hm hlast _ (.inr (.inr ⟨rfl, hexpose⟩)))).resolve_left nofun)
      rw [storedFlow, if_pos hmore]
      exact ⟨rfl, List.mem_cons_of_mem _ hstored, fun h => hwrap ((List.mem_cons.1 h).resolve_left nofun), hend⟩
  · simp only [State.setTop_con, storedConsole, hexpose]
    split_ifs with hend
    · exact .inl (by decide : 0 < COLS)
    · exact .inr (.inl ⟨rfl, fun _ hwraps => absurd hwraps.2.2.2 hend⟩)

/-- A PUTCHAR under `interleave` keeps the cursor in order (R95). -/
theorem State.cursorOk_putchar_interleave {s t : State} {ch : Byte} (h : s.cursorOk)
    (hr : s.cfg.raceModel = .interleave)
    (hin : (s.top.mu = 0 ∧ s.top.inOp = none) ∨ (s.top.mu ≠ 0 ∧ s.top.inOp = some .putchar))
    (he : exec (.putchar ch) s = .next t) : t.cursorOk := by
  have hlocals : s.top.localsOk s.cfg := h.2.2.1 _ (s.frames_eq ▸ List.mem_cons_self)
  have hdone : s.top.doneOk s.cfg := h.2.2.2 _ (s.frames_eq ▸ List.mem_cons_self)
  have hcase : s.top.ReadsDone ∨ s.top.StoresDone s.cfg := by
    rcases hin with ⟨hmu, -⟩ | ⟨-, hop⟩
    · exact .inl (Frame.ReadsDone.of_start hmu (hdone.1 hmu))
    · exact Frame.doneOk_inside hdone hr hop
  rcases hcase with hreads | hstores
  · have hnot : ¬ s.top.wrapsNext := fun hwraps => absurd (hreads.reads _ hwraps.2.1) (by decide)
    rcases Nat.lt_or_eq_of_le hreads.mu with hmu | hmu
    · obtain ⟨x, hx⟩ := hreads.exists_left hmu
      obtain ⟨m, hm, hpick⟩ := pickFrom_of_mem ((readLeft_iff s x).1 hx) s.pick
      have hleft : readLeft s m := (readLeft_iff s m).2 hm
      obtain rfl := Host.Outcome.next.inj ((exec_putchar_read (k := s.pick) ch hr hmu hpick).symm.trans he)
      rcases cursorRead_cases m s with ⟨hreadable, -⟩ | ⟨-, hraise⟩
      · have hread := cursorRead_of_readable hreadable
        refine (congrArg State.cursorOk hread).mpr (State.cursorOk_of_top h rfl (State.setTop_frames _ _)
          ⟨?_, (hreads.read hmu s.con hleft).doneOk⟩ h.1 (.inr (.inl ⟨rfl, fun _ hwraps => absurd hwraps hnot⟩)))
        have hcon : s.con.col < COLS ∨ s.con.col = COLS := h.2.1.imp_right fun h => h.2.2.1
        have hcolf : s.top.col < COLS ∨ s.top.col = COLS := hlocals.2.imp_right fun h => h.2.1
        have hmu' : (readFlow s.con m s.top).mu ≤ 3 := by simpa [readFlow] using hmu
        refine ⟨?_, ?_⟩
        · simp only [readFlow, Frame.takeRead_eq, Frame.microDone_row]
          split_ifs
          · exact h.1
          · exact hlocals.1
        · have hcol : (readFlow s.con m s.top).col < COLS ∨ (readFlow s.con m s.top).col = COLS := by
            simp only [readFlow, Frame.takeRead_eq, Frame.microDone_col]
            split_ifs
            · exact hcon
            · exact hcolf
          exact hcol.imp_right fun hcol => ⟨hr, hcol, hmu', rfl⟩
      · exact (congrArg State.cursorOk hraise).mpr (State.cursorOk_raise h _)
    · obtain rfl := Host.Outcome.next.inj ((exec_putchar_checked ch hr hmu).symm.trans he)
      by_cases hon : s.top.row < 25 ∧ s.top.col < 80
      · rw [checkedGlyph_of_onScreen ch hon.1 hon.2]
        refine State.cursorOk_of_top h rfl (g := s.top.microDone .putchar) ?_
          ⟨⟨hon.1, .inl hon.2⟩, (hreads.glyph hmu).doneOk⟩ h.1 (.inr (.inl ⟨rfl, fun _ hwraps => absurd hwraps hnot⟩))
        rw [State.microDone_eq, State.setTop_frames]
        rfl
      · rw [checkedGlyph_of_offScreen ch (by omega)]
        exact State.cursorOk_raise h _
  · obtain ⟨x, hx⟩ := hstores.exists_left
    obtain ⟨m, hm, hpick⟩ := pickFrom_of_mem ((storeLeft_iff s x).1 hx) s.pick
    have hleft : storeLeft s m := (storeLeft_iff s m).2 hm
    obtain rfl := Host.Outcome.next.inj ((exec_putchar_store ch hr hstores.past).symm.trans he)
    rw [cursorStoreMicro_eq hleft hpick]
    exact State.cursorOk_store h hr hstores hleft

/-! ### The obligation -/

/-- Fresh flows on top, and the running flow taken away only where it was outside every Console command, keep the cursor
in order. -/
theorem State.cursorOk_of_fresh {s t : State} {new : List Frame} (h : s.cursorOk) (hcfg : t.cfg = s.cfg)
    (hcon : t.con = s.con) (hframes : t.frames = new ++ s.frames ∨ (s.top.quiet ∧ t.frames = new ++ s.below))
    (hnew : ∀ g ∈ new, freshOver s.top g) : t.cursorOk := by
  obtain ⟨hrow, hcol, hlocals, hdone⟩ := h
  have htop : s.top.localsOk s.cfg := hlocals _ (s.frames_eq ▸ List.mem_cons_self)
  have hsub : ∀ f ∈ t.frames, f ∈ new ∨ f ∈ s.frames := by
    intro f hf
    rcases hframes with h | ⟨-, h⟩ <;> rw [h] at hf
    · exact List.mem_append.1 hf
    · exact (List.mem_append.1 hf).imp_right fun hb => s.frames_eq ▸ List.mem_cons_of_mem _ hb
  have hok : ∀ f ∈ t.frames, f.localsOk s.cfg ∧ f.doneOk s.cfg := fun f hf =>
    (hsub f hf).elim (fun hf => Frame.ok_of_freshOver htop (hnew f hf)) fun hf => ⟨hlocals f hf, hdone f hf⟩
  unfold State.cursorOk State.localsOk
  rw [hcon, hcfg]
  refine ⟨hrow, hcol.imp_right fun ⟨hr, hexpose, hcol, f, hf, hwraps⟩ => ⟨hr, hexpose, hcol, f, ?_, hwraps⟩,
    fun f hf => (hok f hf).1, fun f hf => (hok f hf).2⟩
  rcases hframes with h | ⟨hquiet, h⟩ <;> rw [h]
  · exact List.mem_append_right _ hf
  · refine List.mem_append_right _ ((List.mem_cons.1 (s.frames_eq ▸ hf)).resolve_left ?_)
    rintro rfl
    simpa [Kind.isConsole] using hquiet _ hwraps.1

/-- Settles O49: PUTCHAR keeps the cursor in order under either race model, the other commands home it or leave it, and
a step that runs no command leaves it. -/
theorem cursorKept : Obligations.CursorKept := by
  unfold Obligations.CursorKept
  intro s t hs hcur hstep
  obtain ⟨hcfg, -⟩ := step_contexts hstep
  rcases step_frames hs hstep with ⟨w, i, g, hp, hf, hd, hv, he, -, hframes⟩ | ⟨hcon, new, hframes, hnew⟩
  · have hin := Frame.inStep_cases (State.inStep_top hs hp) hf hd
    by_cases hput : ∃ ch, i = .putchar ch
    · obtain ⟨ch, rfl⟩ := hput
      have hcur' : s.popChoice.cursorOk := hcur
      cases hr : s.cfg.raceModel with
      | fault => exact State.cursorOk_putchar_fault hcur' hr he
      | interleave => exact State.cursorOk_putchar_interleave hcur' hr hin he
    · obtain ⟨hflow, hrow, hcol⟩ := exec_plain (not_exists.1 hput) hv he
      have hk : i.kind ≠ .putchar := fun h => by
        cases i with
        | putchar ch => exact hput ⟨ch, rfl⟩
        | _ => exact absurd h nofun
      have hop : s.top.inOp ≠ some .putchar := by
        rcases hin with ⟨-, h⟩ | ⟨-, h⟩ <;> rw [h]
        · exact nofun
        · exact fun h => hk (Option.some.inj h)
      have htop : t.top = g := by
        have := hframes
        rw [State.frames_eq] at this
        exact (List.cons.inj this).1
      rw [htop] at hflow
      refine State.cursorOk_of_top hcur hcfg hframes (Frame.ok_of_plainFlow hk hop
        (hcur.2.2.1 _ (s.frames_eq ▸ List.mem_cons_self)) (hcur.2.2.2 _ (s.frames_eq ▸ List.mem_cons_self)) hflow) ?_ ?_
      · rcases hrow with h | h <;> rw [h]
        · exact hcur.1
        · decide
      · rcases hcol with h | h <;> rw [h]
        · exact .inr (.inl ⟨rfl, fun _ hwraps => absurd hwraps.1 hop⟩)
        · exact .inl (by decide)
  · exact State.cursorOk_of_fresh hcur hcfg hcon (hframes.imp_left And.left) hnew

end Sys2Proof.Machine
end

section
/-!
PROOFS. 43_pic.md: every step keeps both controllers in order (R33, R34, R103, R104, R107), and no step of a machine
whose controllers and table are in order records a stop that no command produces (R102, R103, R119).
-/

namespace Sys2Proof.Machine

/-! ### Registers of the initialization -/

/-- Only the request and in-service registers may have changed. -/
def Pic.keepsInit (p q : Pic) : Prop := q = { p with irr := q.irr, isr := q.isr }

theorem Pic.keepsInit_trans {p q r : Pic} (h : p.keepsInit q) (h' : q.keepsInit r) : p.keepsInit r := by
  unfold Pic.keepsInit at *
  rw [h] at h'
  exact h'

theorem Pic.keepsInit.ok {c : Ctrl} {p q : Pic} (h : p.keepsInit q) (hok : Pic.ok c p) : Pic.ok c q := by
  rw [h]
  exact hok

theorem Pic.keepsInit.phase {p q : Pic} (h : p.keepsInit q) : q.phase = p.phase := by rw [h]

theorem Pic.keepsInit.atInit {c : Ctrl} {n : Nat} {p q : Pic} (h : p.keepsInit q) (hat : Pic.atInit c n p) :
    Pic.atInit c n q := by
  rw [h]
  rcases n with _ | _ | _ | _ | _ <;> exact hat

/-- Both controllers keep the registers of their initialization, and master line 2 is requested only where it was. -/
structure KeepsInits (s t : State) : Prop where
  pic : ∀ c, (s.pic c).keepsInit (t.pic c)
  line : t.picM.irr.getLsbD 2 = true → s.picM.irr.getLsbD 2 = true

theorem KeepsInits.of_eq {s t : State} (hM : t.picM = s.picM) (hS : t.picS = s.picS) : KeepsInits s t where
  pic := fun c => by
    cases c
    · exact (congrArg (Pic.keepsInit s.picM) hM).mpr rfl
    · exact (congrArg (Pic.keepsInit s.picS) hS).mpr rfl
  line := by rw [hM]; exact id

theorem KeepsInits.trans {s u t : State} (h : KeepsInits s u) (h' : KeepsInits u t) : KeepsInits s t :=
  ⟨fun c => Pic.keepsInit_trans (h.pic c) (h'.pic c), fun h2 => h.line (h'.line h2)⟩

theorem KeepsInits.of_popChoice {s t : State} (h : KeepsInits s.popChoice t) : KeepsInits s t where
  pic := fun c => by cases c <;> exact h.pic _
  line := h.line

/-- An acknowledgment (R106). -/
theorem keepsInits_acknowledge (c : Ctrl) (n : Nat) (s : State) : KeepsInits s (s.acknowledge c n) where
  pic := fun c' => by cases c <;> cases c' <;> rfl
  line := by
    cases c with
    | M =>
      simp only [State.acknowledge, Pic.takeLine, clearLine_getLsbD, Bool.and_eq_true]
      exact And.left
    | S => exact id

/-- A raised line, which is never master line 2 (R104). -/
theorem keepsInits_raiseIrq (c : Ctrl) {n : Nat} (hn : n < 8) (s : State) : KeepsInits s (s.raiseIrq c n) where
  pic := fun c' => by
    cases c
    · unfold State.raiseIrq
      dsimp only
      split_ifs <;> cases c' <;> rfl
    · cases c' <;> rfl
  line := by
    cases c with
    | M =>
      unfold State.raiseIrq
      dsimp only
      split_ifs with h2
      · exact id
      · simp only [setLine_getLsbD _ n 2 hn, Bool.or_eq_true, decide_eq_true_eq]
        exact fun h => h.resolve_right fun h => h2 h.symm
    | S => exact id

/-- The EOI byte at an idle controller, which records no stop (R102). -/
theorem portWrite_eoi_keeps (c : Ctrl) {s : State} (h : (s.pic c).phase = .idle) :
    KeepsInits s (s.portWrite (commandPort c) eoiByte) ∧
      (s.portWrite (commandPort c) eoiByte).fault = s.fault ∧
      (s.portWrite (commandPort c) eoiByte).refused = s.refused := by
  rw [portWrite_eoi c s h]
  refine ⟨⟨fun c' => ?_, ?_⟩, by simp, by simp⟩
  · cases c <;> cases c' <;> rfl
  · cases c <;> exact id

/-! ### The EOI pair -/

/-- The controllers stand idle. -/
def State.picsIdle (s : State) : Prop := ∀ c, (s.pic c).phase = .idle

/-- A micro-step of the EOI pair at idle controllers keeps their initialization and records no stop but
PIC_UNCONFIGURED (R111, R128). -/
theorem eoiMicro_keeps {s : State} {finish : State → State} (hidle : s.picsIdle)
    (hfinish : ∀ u : State, (finish u).picM = u.picM ∧ (finish u).picS = u.picS ∧ (finish u).fault = u.fault ∧
      (finish u).refused = u.refused) :
    KeepsInits s (s.eoiMicro finish) ∧
      ((s.eoiMicro finish).fault = s.fault ∨ (s.eoiMicro finish).fault = some (.picUnconfigured .piceoi)) ∧
      (s.eoiMicro finish).refused = s.refused := by
  have write : ∀ c (f : State → State), (∀ u : State, (f u).picM = u.picM ∧ (f u).picS = u.picS ∧
      (f u).fault = u.fault ∧ (f u).refused = u.refused) →
      KeepsInits s ((s.portWrite (commandPort c) eoiByte).andThen f) ∧
        ((s.portWrite (commandPort c) eoiByte).andThen f).fault = s.fault ∧
        ((s.portWrite (commandPort c) eoiByte).andThen f).refused = s.refused := by
    intro c f hf
    obtain ⟨hkeeps, hfault, hrefused⟩ := portWrite_eoi_keeps c (hidle c)
    rcases andThen_cases (s.portWrite (commandPort c) eoiByte) f with ⟨-, h⟩ | ⟨-, h⟩ <;> rw [h]
    · exact ⟨hkeeps, hfault, hrefused⟩
    · obtain ⟨hM, hS, hf', hr'⟩ := hf (s.portWrite (commandPort c) eoiByte)
      exact ⟨hkeeps.trans (KeepsInits.of_eq hM hS), hf'.trans hfault, hr'.trans hrefused⟩
  rcases eoiMicro_cases finish s with ⟨-, -, h⟩ | ⟨-, -, h⟩ | ⟨-, h⟩ <;> rw [h]
  · exact ⟨KeepsInits.of_eq rfl rfl, .inr rfl, rfl⟩
  · obtain ⟨hkeeps, hfault, hrefused⟩ := write (eoiFirst s.cfg) (State.microDone .piceoi) fun u => ⟨rfl, rfl, rfl, rfl⟩
    exact ⟨hkeeps, .inl hfault, hrefused⟩
  · obtain ⟨hkeeps, hfault, hrefused⟩ := write (eoiSecond s.cfg) finish hfinish
    exact ⟨hkeeps, .inl hfault, hrefused⟩

theorem setPhase_keeps (ph : Phase) (s : State) : (s.setPhase ph).picM = s.picM ∧ (s.setPhase ph).picS = s.picS ∧
    (s.setPhase ph).fault = s.fault ∧ (s.setPhase ph).refused = s.refused := by
  unfold State.setPhase
  split <;> exact ⟨rfl, rfl, rfl, rfl⟩

theorem trampolineEoi_keeps {s : State} (hidle : s.picsIdle) :
    KeepsInits s s.trampolineEoi ∧
      (s.trampolineEoi.fault = s.fault ∨ s.trampolineEoi.fault = some (.picUnconfigured .piceoi)) ∧
      s.trampolineEoi.refused = s.refused :=
  eoiMicro_keeps hidle (setPhase_keeps .ret)

theorem exec_piceoi_keeps {s t : State} (hidle : s.picsIdle) (he : exec .piceoi s = .next t) :
    KeepsInits s t ∧ (t.fault = s.fault ∨ t.fault = some (.picUnconfigured .piceoi)) ∧ t.refused = s.refused := by
  obtain rfl := Host.Outcome.next.inj he
  exact eoiMicro_keeps hidle fun u => ⟨rfl, rfl, rfl, rfl⟩

/-! ### PICREMAP -/

/-- Both controllers stand where the first `n` writes of a PICREMAP bring controllers in order, and master line 2 has
no request. -/
structure RemapOrdered (cfg : Config) (mb sb : Byte) (n : Nat) (u : State) : Prop where
  placed : ∀ c, Pic.atInit c (remapDone cfg c mb sb n) (u.pic c)
  ok : ∀ c, Pic.ok c (u.pic c)
  line : u.picM.irr.getLsbD 2 = false

/-- PICREMAP's next write brings them to the next place and records no stop (R107, R108). -/
theorem RemapOrdered.write {cfg : Config} {mb sb : Byte} {n : Nat} {w : Half × Byte} {u : State}
    (h : RemapOrdered cfg mb sb n u) (hw : (remapSequence cfg mb sb)[n]? = some w) :
    RemapOrdered cfg mb sb (n + 1) (u.portWrite w.1 w.2) ∧ (u.portWrite w.1 w.2).fault = u.fault ∧
      (u.portWrite w.1 w.2).refused = u.refused := by
  obtain ⟨c, hplace, hsucc, hother⟩ := remapSequence_step cfg mb sb n w hw
  obtain ⟨p, hwrite, hat, hok, hirr⟩ := portWrite_init cfg c _ _ w hplace u (h.placed c) (h.ok c)
  rw [hwrite]
  refine ⟨⟨fun c' => ?_, fun c' => ?_, ?_⟩, by simp, by simp⟩
  · by_cases hc : c' = c
    · subst hc
      rw [State.setPic_pic, hsucc]
      exact hat
    · rw [State.setPic_pic_other hc, State.logPort_pic, hother c' hc]
      exact h.placed c'
  · by_cases hc : c' = c
    · subst hc
      rw [State.setPic_pic]
      exact hok
    · rw [State.setPic_pic_other hc, State.logPort_pic]
      exact h.ok c'
  · cases c with
    | M =>
      rw [State.setPic_M]
      rcases hirr with hirr | hirr <;> simp only [hirr]
      · rfl
      · exact h.line
    | S => exact h.line

/-- After its last write both controllers are idle (R103). -/
theorem RemapOrdered.idle {cfg : Config} {mb sb : Byte} {n : Nat} {u : State} (h : RemapOrdered cfg mb sb n u)
    (hn : (remapSequence cfg mb sb).length ≤ n) : u.picsIdle := by
  intro c
  obtain ⟨j, hj⟩ := Nat.exists_eq_add_of_le' (remapDone_all cfg mb sb c n hn)
  have hat := h.placed c
  rwa [hj] at hat

/-- A running PICREMAP's flow is at its start with idle controllers, or inside the command, where its writes have
brought them. -/
theorem RemapOrdered.of_picsOk {s : State} {w : CmdWord} {mb sb : Byte} (hs : s.inStep) (hpics : s.picsOk)
    (hp : s.inProgram) (hf : s.top.fetch = some w) (hd : decode w = .ok (.picremap mb sb)) :
    RemapOrdered s.cfg mb sb s.top.mu s := by
  obtain ⟨hokM, hokS, hline, -, hinside, houtside⟩ := hpics
  refine ⟨fun c => ?_, fun c => ?_, hline⟩
  · rcases Frame.inStep_cases (State.inStep_top hs hp) hf hd with ⟨hmu, hop⟩ | ⟨-, hop⟩
    · obtain ⟨hM, hS⟩ := houtside (by rw [hop]; exact nofun)
      rw [hmu, show remapDone s.cfg c mb sb 0 = 0 by simp [remapDone]]
      cases c
      · exact hM
      · exact hS
    · obtain ⟨w', mb', sb', hf', hd', hM, hS⟩ := hinside hop
      obtain rfl : w = w' := Option.some.inj (hf.symm.trans hf')
      obtain ⟨rfl, rfl⟩ : mb = mb' ∧ sb = sb' := by simpa using decode_inj hd hd'
      cases c
      · exact hM
      · exact hS
  · cases c
    · exact hokM
    · exact hokS

/-- A micro-step of PICREMAP from controllers in order: no stop is recorded, and the command is completed at idle
controllers, or is inside its sequence (R107, R108). -/
theorem exec_picremap_ordered {s t : State} {mb sb : Byte} (h : RemapOrdered s.cfg mb sb s.top.mu s)
    (hs : s.stopped = false) (he : exec (.picremap mb sb) s = .next t) :
    (∀ c, Pic.ok c (t.pic c)) ∧ t.picM.irr.getLsbD 2 = false ∧ t.fault = s.fault ∧ t.refused = s.refused ∧
      ((t.top = s.top.commandDone ∧ t.picsIdle) ∨
        (t.top = s.top.microDone .picremap ∧ RemapOrdered s.cfg mb sb (s.top.mu + 1) t)) := by
  cases hw : (remapSequence s.cfg mb sb)[s.top.mu]? with
  | none =>
    simp only [exec, execPicremap, hw, Host.Outcome.next.injEq] at he
    subst he
    refine ⟨h.ok, h.line, rfl, rfl, .inl ⟨State.setTop_top _ _, ?_⟩⟩
    exact h.idle (List.getElem?_eq_none_iff.1 hw)
  | some w =>
    obtain ⟨hnext, hfault, hrefused⟩ := h.write hw
    rw [State.stopped_false_iff] at hs
    have hrun : (s.portWrite w.1 w.2).stopped = false :=
      (State.stopped_false_iff _).2 ⟨hfault.trans hs.1, hrefused.trans hs.2⟩
    obtain rfl := Host.Outcome.next.inj ((exec_picremap_of_write hw hrun).symm.trans he)
    refine ⟨fun c => by rw [State.setTop_pic]; exact hnext.ok c, hnext.line, hfault, hrefused, ?_⟩
    rw [State.setTop_top, ← remapWrites_length s.cfg mb sb]
    split_ifs with hmore
    · exact .inr ⟨rfl, fun c => by rw [State.setTop_pic]; exact hnext.placed c,
        fun c => by rw [State.setTop_pic]; exact hnext.ok c, hnext.line⟩
    · exact .inl ⟨rfl, fun c => by rw [State.setTop_pic]; exact hnext.idle (by omega) c⟩

/-! ### A step -/

/-- Outside PICREMAP controllers in order are idle (R103). -/
theorem State.picsOk.idle {s : State} (h : s.picsOk) (hop : s.top.inOp ≠ some .picremap) : s.picsIdle := by
  obtain ⟨-, -, -, -, -, hidle⟩ := h
  obtain ⟨hM, hS⟩ := hidle hop
  intro c
  cases c
  · exact hM
  · exact hS

/-- In the trampoline's `eoi` phase the running flow is not inside PICREMAP (log 9). -/
theorem State.inOp_of_eoi {s : State} {k : IrqContext} {rest : List IrqContext} (hs : s.inStep)
    (hi : s.irqs = k :: rest) (heoi : k.phase = .eoi) : s.top.inOp ≠ some .picremap := by
  have hk : k.inStep := hs.2 k (hi ▸ List.mem_cons_self)
  simp only [IrqContext.inStep, heoi] at hk
  rw [State.top_cons s k rest hi]
  rcases hk with ⟨-, hop⟩ | ⟨-, hop⟩ <;> rw [hop] <;> exact nofun

/-- A running command other than PICREMAP has its flow outside PICREMAP (R41). -/
theorem State.inOp_of_decode {s : State} {w : CmdWord} {i : Instr} (hs : s.inStep) (hp : s.inProgram)
    (hf : s.top.fetch = some w) (hd : decode w = .ok i) (hk : i.kind ≠ .picremap) :
    s.top.inOp ≠ some .picremap := by
  rcases Frame.inStep_cases (State.inStep_top hs hp) hf hd with ⟨-, hop⟩ | ⟨-, hop⟩ <;> rw [hop]
  · exact nofun
  · exact fun h => hk (Option.some.inj h)

theorem deliver_keepsInits (v : Byte) (s : State) : KeepsInits s (s.deliver v) := by
  obtain ⟨-, -, hM, hS, -⟩ := deliver_keeps v s
  exact KeepsInits.of_eq hM hS

/-- A step is a micro-step of PICREMAP, or keeps the initialization of both controllers. -/
theorem step_keepsInits {s t : State} (hs : s.inStep) (hpics : s.picsOk) (h : step s = .next t) :
    (∃ w mb sb, s.inProgram ∧ s.top.fetch = some w ∧ decode w = .ok (.picremap mb sb) ∧
      exec (.picremap mb sb) s.popChoice = .next t) ∨ KeepsInits s t := by
  obtain ⟨-, -, ⟨-, rfl⟩ | ⟨-, h⟩⟩ := step_cases h
  · exact .inr (KeepsInits.of_eq rfl rfl)
  rcases move_cases h with ⟨hr, h⟩ | ⟨-, rfl⟩ | ⟨k, n, -, rfl⟩
  · rcases runTop_cases h with ⟨-, -, rfl⟩ | ⟨w, e, -, -, -, rfl⟩ | ⟨w, i, hp, hf, hd, he⟩ |
      ⟨k, rest, hi, -, -, rfl⟩ | ⟨k, rest, hi, heoi, rfl⟩ | ⟨k, rest, hi, -, rfl⟩
    · exact .inr (KeepsInits.of_eq rfl rfl)
    · exact .inr (KeepsInits.of_eq rfl rfl)
    · by_cases hremap : i.kind = .picremap
      · cases i with
        | picremap mb sb => exact .inl ⟨w, mb, sb, hp, hf, hd, he⟩
        | _ => exact absurd hremap nofun
      by_cases heoi : i.kind = .piceoi
      · cases i with
        | piceoi =>
          have hidle : s.popChoice.picsIdle := hpics.idle (State.inOp_of_decode hs hp hf hd nofun)
          exact .inr (exec_piceoi_keeps hidle he).1.of_popChoice
        | _ => exact absurd heoi nofun
      · obtain ⟨hM, hS⟩ := (exec_others he).2 hremap heoi
        exact .inr (KeepsInits.of_eq hM hS)
    · obtain ⟨hM, hS, -⟩ := setPhase_keeps .eoi s.popChoice
      exact .inr (KeepsInits.of_eq hM hS)
    · exact .inr (trampolineEoi_keeps (s := s.popChoice) (hpics.idle (State.inOp_of_eoi hs hi heoi))).1.of_popChoice
    · rw [interruptReturn_cons s.popChoice k rest hi]
      exact .inr (KeepsInits.of_eq rfl rfl)
  · rcases hardwareDelivery_cases s.popChoice with h | h | h | ⟨c, n, -, -, -, h⟩ <;> rw [h]
    · exact .inr (KeepsInits.of_eq rfl rfl)
    · exact .inr (KeepsInits.of_eq rfl rfl)
    · exact .inr (KeepsInits.of_eq rfl rfl)
    · exact .inr ((keepsInits_acknowledge c n s.popChoice).trans (deliver_keepsInits _ _)).of_popChoice
  · exact .inr (keepsInits_raiseIrq k n.isLt s.popChoice).of_popChoice

/-- Where no flow is inside PICREMAP, idle controllers are what `State.remapOk` asks for. -/
theorem State.remapOk_of_outside {s : State} (h : ∀ f ∈ s.frames, f.inOp ≠ some .picremap) (hidle : s.picsIdle) :
    s.remapOk := by
  rw [State.frames_eq, List.forall_mem_cons] at h
  exact ⟨h.2, fun hop => absurd hop h.1, fun _ => ⟨hidle .M, hidle .S⟩⟩

theorem inOp_of_freshOver {f g : Frame} (h : freshOver f g) : g.inOp ≠ some .picremap := by
  rcases h with ⟨prog, pc, rfl⟩ | ⟨-, rfl⟩ <;> exact nofun

/-- The flows and the cursor of controllers whose initialization a step keeps stay as `State.remapOk` says. -/
theorem State.remapOk_of_keepsInits {s t : State} (hs : s.inStep) (hpics : s.picsOk) (hstep : step s = .next t)
    (hkeeps : KeepsInits s t) (hnot : ¬ ∃ w mb sb, s.inProgram ∧ s.top.fetch = some w ∧
      decode w = .ok (.picremap mb sb) ∧ exec (.picremap mb sb) s.popChoice = .next t) : t.remapOk := by
  obtain ⟨-, -, -, hbelow, hinside, -⟩ := id hpics
  have hidle : s.top.inOp ≠ some .picremap → t.picsIdle := fun hop c =>
    (hkeeps.pic c).phase.trans (hpics.idle hop c)
  rcases step_frames hs hstep with ⟨w, i, g, hp, hf, hd, -, he, hflow, hframes⟩ |
    ⟨-, new, ⟨hframes, hnew⟩ | ⟨hquiet, hframes⟩, hfresh⟩
  · have hk : i.kind ≠ .picremap := fun hk => by
      cases i with
      | picremap mb sb => exact hnot ⟨w, mb, sb, hp, hf, hd, he⟩
      | _ => exact absurd hk nofun
    have hop := State.inOp_of_decode hs hp hf hd hk
    refine State.remapOk_of_outside ?_ (hidle hop)
    rw [hframes]
    refine List.forall_mem_cons.2 ⟨?_, hbelow⟩
    rcases hflow with rfl | ⟨-, -, -, hop'⟩ | rfl
    · exact hop
    · rw [hop']
      exact fun h => hk (Option.some.inj h)
    · exact nofun
  · rcases hnew with rfl | hout
    · obtain ⟨htop, htbelow⟩ : t.top = s.top ∧ t.below = s.below := by
        rw [List.nil_append, State.frames_eq, State.frames_eq] at hframes
        exact List.cons.inj hframes
      obtain ⟨hcfg, -⟩ := step_contexts hstep
      refine ⟨htbelow ▸ hbelow, fun hop => ?_, fun hop => ⟨hidle (htop ▸ hop) .M, hidle (htop ▸ hop) .S⟩⟩
      rw [htop] at hop
      obtain ⟨w, mb, sb, hf, hd, hM, hS⟩ := hinside hop
      rw [htop, hcfg]
      exact ⟨w, mb, sb, hf, hd, (hkeeps.pic .M).atInit hM, (hkeeps.pic .S).atInit hS⟩
    · have hold : ∀ f ∈ s.frames, f.inOp ≠ some .picremap := fun f hf hop => by
        rw [(remapInProgress_iff s).2 ⟨f, hf, hop⟩] at hout
        exact absurd hout nofun
      refine State.remapOk_of_outside ?_ (hidle (hold _ (s.frames_eq ▸ List.mem_cons_self)))
      rw [hframes]
      exact fun f hf => (List.mem_append.1 hf).elim (fun hf => inOp_of_freshOver (hfresh f hf)) (hold f)
  · refine State.remapOk_of_outside ?_ (hidle fun hop => (hquiet _ hop).2 rfl)
    rw [hframes]
    exact fun f hf => (List.mem_append.1 hf).elim (fun hf => inOp_of_freshOver (hfresh f hf)) (hbelow f)

/-- A micro-step of PICREMAP keeps the controllers in order (R107). -/
theorem State.picsOk_picremap {s t : State} {w : CmdWord} {mb sb : Byte} (hs : s.inStep) (hpics : s.picsOk)
    (hrun : s.stopped = false) (hp : s.inProgram) (hf : s.top.fetch = some w)
    (hd : decode w = .ok (.picremap mb sb)) (he : exec (.picremap mb sb) s.popChoice = .next t) : t.picsOk := by
  have hordered : RemapOrdered s.popChoice.cfg mb sb s.popChoice.top.mu s.popChoice :=
    RemapOrdered.of_picsOk hs hpics hp hf hd
  obtain ⟨hok, hline, -, -, htop⟩ := exec_picremap_ordered hordered hrun he
  obtain ⟨-, -, -, hbelow, -, -⟩ := hpics
  obtain ⟨htbelow, htcfg⟩ : t.below = s.below ∧ t.cfg = s.cfg := by
    rcases exec_contexts he with ⟨g, -, hw⟩ | ⟨v, h, -⟩
    · exact ⟨withTopFlow_below (s := s.popChoice) hw, hw.2.1⟩
    · exact absurd h nofun
  refine ⟨hok .M, hok .S, hline, htbelow ▸ hbelow, ?_⟩
  rcases htop with ⟨htop, hidle⟩ | ⟨htop, hnext⟩ <;> rw [htop]
  · exact ⟨fun h => absurd h nofun, fun _ => ⟨hidle .M, hidle .S⟩⟩
  · refine ⟨fun _ => ⟨w, mb, sb, hf, hd, ?_⟩, fun h => absurd rfl h⟩
    rw [htcfg]
    exact ⟨hnext.placed .M, hnext.placed .S⟩

/-- Settles O51: PICREMAP's writes bring the controllers from place to place, and every other step keeps the registers
of their initialization. -/
theorem controllersKept : Obligations.ControllersKept := by
  unfold Obligations.ControllersKept
  intro s t hs hpics hstep
  by_cases hremap : ∃ w mb sb, s.inProgram ∧ s.top.fetch = some w ∧ decode w = .ok (.picremap mb sb) ∧
      exec (.picremap mb sb) s.popChoice = .next t
  · obtain ⟨w, mb, sb, hp, hf, hd, he⟩ := hremap
    exact State.picsOk_picremap hs hpics (stopped_of_step_eq_next hstep) hp hf hd he
  · have hkeeps := (step_keepsInits hs hpics hstep).resolve_left hremap
    obtain ⟨hokM, hokS, hline, -⟩ := id hpics
    exact ⟨(hkeeps.pic .M).ok hokM, (hkeeps.pic .S).ok hokS,
      Bool.eq_false_iff.2 fun h => Bool.eq_false_iff.1 hline (hkeeps.line h),
      State.remapOk_of_keepsInits hs hpics hstep hkeeps hremap⟩

end Sys2Proof.Machine
end

section
/-!
PROOFS. 42_idt.md: IDTBUILD and IDTREG (R97, R98), and the delivery of a registered vector (R99) through the descriptor
that R126 reads.
-/

namespace Sys2Proof.Machine

/-! ### The table as one block -/

/-- A block, and a byte right after it, are the block that is one byte longer. -/
theorem Memory.store_store_next (m : Memory) (a : Nat) (bs : List Byte) (b : Byte) :
    (m.store a bs).store (a + bs.length) [b] = m.store a (bs ++ [b]) := by
  have cells : ∀ (a : Nat) (bs : List Byte), cellsFrom a (bs ++ [b]) = cellsFrom a bs ++ [(a + bs.length, b)] := by
    intro a bs
    induction bs generalizing a with
    | nil => rfl
    | cons x bs ih =>
      rw [List.cons_append, cellsFrom, ih, cellsFrom, List.cons_append, List.length_cons, Nat.add_right_comm,
        ← Nat.add_assoc]
  have inside : ∀ x ∈ cellsFrom a bs, x.1 < a + bs.length := fun x hx => (mem_cellsFrom hx).2
  have hlow : (m.store a bs).filter (fun x => decide (x.1 < a + bs.length)) =
      m.filter (fun x => decide (x.1 < a)) ++ cellsFrom a bs := by
    have hbelow : (m.filter fun x => decide (x.1 < a)).filter (fun x => decide (x.1 < a + bs.length)) =
        m.filter fun x => decide (x.1 < a) := List.filter_eq_self.2 fun x hx => by
      have := of_decide_eq_true (List.mem_filter.1 hx).2
      exact decide_eq_true (by omega)
    have habove :
        (m.filter fun x => decide (a + bs.length ≤ x.1)).filter (fun x => decide (x.1 < a + bs.length)) = [] :=
      List.filter_eq_nil_iff.2 fun x hx => by
        have := of_decide_eq_true (List.mem_filter.1 hx).2
        simpa using this
    rw [Memory.store, List.filter_append, List.filter_append, hbelow, habove, List.append_nil,
      List.filter_eq_self.2 fun x hx => decide_eq_true (inside x hx)]
  have hhigh : (m.store a bs).filter (fun x => decide (a + bs.length + 1 ≤ x.1)) =
      m.filter (fun x => decide (a + bs.length + 1 ≤ x.1)) := by
    have hbelow : (m.filter fun x => decide (x.1 < a)).filter (fun x => decide (a + bs.length + 1 ≤ x.1)) = [] :=
      List.filter_eq_nil_iff.2 fun x hx => by
        have := of_decide_eq_true (List.mem_filter.1 hx).2
        simp only [decide_eq_true_eq]
        omega
    have hcells : (cellsFrom a bs).filter (fun x => decide (a + bs.length + 1 ≤ x.1)) = [] :=
      List.filter_eq_nil_iff.2 fun x hx => by
        have := inside x hx
        simp only [decide_eq_true_eq]
        omega
    have habove :
        (m.filter fun x => decide (a + bs.length ≤ x.1)).filter (fun x => decide (a + bs.length + 1 ≤ x.1)) =
        m.filter fun x => decide (a + bs.length + 1 ≤ x.1) := by
      rw [List.filter_filter]
      refine List.filter_congr fun x _ => ?_
      rw [← Bool.decide_and, decide_eq_decide]
      omega
    rw [Memory.store, List.filter_append, List.filter_append, hbelow, hcells, habove]
    rfl
  rw [Memory.store, List.length_singleton, hlow, hhigh, Memory.store, cells, List.length_append, List.length_singleton]
  simp only [cellsFrom, List.append_assoc, Nat.add_assoc]

/-- Settles O25: each one-byte write lengthens the block that has been zeroed by one byte. -/
theorem zeroTableIsByteLoop : Obligations.ZeroTableIsByteLoop := by
  unfold Obligations.ZeroTableIsByteLoop
  intro s
  have block : ∀ n, (List.range (n + 1)).foldl (fun s i => s.memWrite (s.cfg.idtBase.toNat + i) 1 0) s =
      { s with mem := s.mem.store s.cfg.idtBase.toNat (List.replicate (n + 1) 0) } := by
    intro n
    induction n with
    | zero => rfl
    | succ n ih =>
      rw [List.range_succ, List.foldl_append, ih, List.foldl_cons, List.foldl_nil, State.memWrite]
      have hnext := Memory.store_store_next s.mem s.cfg.idtBase.toNat (List.replicate (n + 1) 0) 0
      rw [List.length_replicate, ← List.replicate_succ'] at hnext
      simp only [show leBytes 1 0 = [0] from rfl, hnext]
  exact (block 2047).symm

/-! ### IDTBUILD -/

theorem exec_idtbuild {s : State} (hif : s.IF = false) : exec .idtbuild s =
    .next (({ s.zeroTable.loadTableRegister (idtRegister s.cfg) with idtBuilt := true } : State).commandDone) := by
  simp only [exec, execIdtbuild, hif]
  rfl

theorem exec_idtbuild_interruptible {s : State} (hif : s.IF = true) :
    exec .idtbuild s = .next (s.raise .buildInterruptible) := by
  simp only [exec, execIdtbuild, hif]
  rfl

theorem exec_idtreg {s : State} (v : Byte) (h : Addr) (t : Byte) (hb : s.idtBuilt = true) : exec (.idtreg v h t) s =
    .next (s.critical (State.writeDescriptor (descAddr s.cfg v) h t)).commandDone := by
  simp only [exec, execIdtreg, hb]
  rfl

theorem exec_idtreg_not_built {s : State} (v : Byte) (h : Addr) (t : Byte) (hb : s.idtBuilt = false) :
    exec (.idtreg v h t) s = .next (s.raise (.idtNotBuilt v)) := by
  simp only [exec, execIdtreg, hb]
  rfl

/-- Settles O23: the table is zeroed as one block, then the register is loaded. -/
theorem idtbuildCompletes : Obligations.IdtbuildCompletes := by
  unfold Obligations.IdtbuildCompletes
  intro s hif
  exact ⟨_, exec_idtbuild hif, fun _ => byteAt_zeroTable_inside s, descAt_zeroTable s,
    fun _ => byteAt_zeroTable_outside s, rfl, rfl, rfl, contextsWithTop_of_setTop _ rfl rfl, rfl, ⟨rfl, rfl⟩, rfl, rfl,
    ⟨rfl, rfl⟩, ⟨rfl, rfl⟩⟩

/-- Settles O24: both checks come first. -/
theorem idtPreconditions : Obligations.IdtPreconditions := by
  unfold Obligations.IdtPreconditions
  exact ⟨fun s => exec_idtbuild_interruptible, fun s v h t => exec_idtreg_not_built v h t⟩

/-! ### IDTREG -/

/-- A slice of a slice is a slice. -/
theorem extractLsb'_extractLsb' {w start len start' len' : Nat} (x : BitVec w) (h : start + len ≤ len') :
    (x.extractLsb' start' len').extractLsb' start len = x.extractLsb' (start' + start) len := by
  ext i hi
  rw [BitVec.getElem_extractLsb', BitVec.getElem_extractLsb', BitVec.getLsbD_extractLsb',
    decide_eq_true (show start + i < len' by omega), Bool.true_and, Nat.add_assoc]

/-- The bytes of a 16-bit value (R45). -/
theorem leBytes_two (x : Half) : leBytes 2 x.toNat = [x.extractLsb' 0 8, x.extractLsb' 8 8] := leBytes_toNat 2 x

/-- The five field writes leave the bytes of `D(h, t)` at the descriptor's address (R63, R98). -/
theorem bytes_writeDescriptor (s : State) (d : Nat) (h : Addr) (t : Byte) :
    (s.writeDescriptor d h t).mem.bytes d 8 = some (leBytes 8 (descriptor h t).toNat) := by
  rw [leBytes_descriptor]
  refine bytes_of_byteAt (bs := [h.extractLsb' 0 8, h.extractLsb' 8 8, 0x08, 0x00, 0x00, t, h.extractLsb' 16 8,
    h.extractLsb' 24 8]) fun i hi => ?_
  have hsel : leBytes 2 codeSelector.toNat = [0x08, 0x00] := rfl
  have htype : leBytes 1 t.toNat = [t] := by simp [leBytes]
  have hzero : leBytes 1 0 = [0] := rfl
  have hlow : leBytes 2 (offsetLow h).toNat = [h.extractLsb' 0 8, h.extractLsb' 8 8] := by
    rw [leBytes_two, offsetLow, extractLsb'_extractLsb' h (by decide), extractLsb'_extractLsb' h (by decide)]
  have hhigh : leBytes 2 (offsetHigh h).toNat = [h.extractLsb' 16 8, h.extractLsb' 24 8] := by
    rw [leBytes_two, offsetHigh, extractLsb'_extractLsb' h (by decide), extractLsb'_extractLsb' h (by decide)]
  simp only [State.writeDescriptor, State.memWrite_mem, hsel, htype, hzero, hlow, hhigh, byteAt_store,
    List.length_cons, List.length_nil] at hi ⊢
  interval_cases i <;> simp

/-- A 64-bit value is that of its 8 bytes (R45). -/
theorem leValue_leBytes_eight (x : BitVec 64) : leValue (leBytes 8 x.toNat) = x.toNat := by
  have hx := x.isLt
  rw [leValue_leBytes]
  omega

/-- With the memory that IDTREG leaves, its descriptor reads as `D(h, t)`, and every other one as before (R98). -/
theorem descAt_of_writeDescriptor {s t : State} {v : Byte} {h : Addr} {ty : Byte} (hc : t.cfg = s.cfg)
    (hm : t.mem = (s.writeDescriptor (descAddr s.cfg v) h ty).mem) :
    t.descAt v = some (descriptor h ty) ∧ ∀ u, u ≠ v → t.descAt u = s.descAt u := by
  refine ⟨?_, fun u hu => ?_⟩
  · rw [State.descAt, State.memRead, hc, hm, DESC_BYTES, bytes_writeDescriptor, Option.map_some, Option.map_some,
      leValue_leBytes_eight, BitVec.ofNat_toNat, BitVec.setWidth_eq]
  · have hne : u.toNat ≠ v.toNat := fun h => hu (BitVec.eq_of_toNat_eq h)
    refine descAt_congr hc fun x h1 h2 => ?_
    rw [hm]
    refine byteAt_writeDescriptor_outside s _ h ty x ?_
    simp only [descAddr, DESC_BYTES] at *
    omega

/-- IDTREG leaves everything but its descriptor's bytes, the privileged-operation trace and the top flow (R98). -/
theorem exec_idtreg_eq {s : State} (v : Byte) (h : Addr) (ty : Byte) (hb : s.idtBuilt = true) :
    ∃ m, m = (s.writeDescriptor (descAddr s.cfg v) h ty).mem ∧ exec (.idtreg v h ty) s =
      .next (({ s with mem := m, ptrace := s.ptrace ++ [.irqOff, .irqRestore s.IF] } : State).commandDone) :=
  ⟨_, rfl, by rw [exec_idtreg v h ty hb, critical_writeDescriptor_eq]⟩

/-- Settles O26: the critical section changes memory and the privileged-operation trace only, and in memory the
descriptor's eight bytes. -/
theorem idtregCompletes : Obligations.IdtregCompletes := by
  unfold Obligations.IdtregCompletes
  intro s v h ty hb
  obtain ⟨m, hm, he⟩ := exec_idtreg_eq v h ty hb
  refine ⟨_, he, ?_⟩
  obtain ⟨hsame, hother⟩ := descAt_of_writeDescriptor (s := s)
    (t := ({ s with mem := m, ptrace := s.ptrace ++ [.irqOff, .irqRestore s.IF] } : State).commandDone) rfl hm
  exact ⟨hsame, hother,
    fun a ha => (congrArg (·.byteAt a) hm).trans (byteAt_writeDescriptor_outside s _ h ty a ha), rfl,
    rfl, contextsWithTop_of_setTop _ rfl rfl, rfl, ⟨rfl, rfl⟩, ⟨rfl, rfl⟩, rfl, ⟨rfl, rfl⟩, ⟨rfl, rfl⟩⟩

/-! ### Delivery through a descriptor -/

/-- The gate type is bits 43:40 of the descriptor (R62, R65). -/
theorem gateType_descType (d : BitVec 64) : gateType (descType d) = d.extractLsb' 40 4 :=
  extractLsb'_extractLsb' d (by decide)

theorem gatePresent_descType (d : BitVec 64) : gatePresent (descType d) = d.getLsbD 47 := by
  simp [gatePresent, descType]

theorem gateSystem_descType (d : BitVec 64) : gateSystem (descType d) = d.getLsbD 44 := by
  simp [gateSystem, descType]

theorem isInterruptGate_descType (d : BitVec 64) :
    isInterruptGate (descType d) = decide (d.extractLsb' 40 4 = 0xE) := by
  rw [isInterruptGate, gateType_descType]
  exact Bool.beq_eq_decide_eq _ _

/-- The gates that delivery admits are the good ones (R65, R126). -/
theorem goodGate_iff (d : BitVec 64) :
    goodGate d ↔ gatePresent (descType d) = true ∧ gateSupported (descType d) (descSelector d) = true := by
  simp only [goodGate, gateSupported, isInterruptGate, isTrapGate, gatePresent_descType, gateSystem_descType,
    gateType_descType, descSelector, codeSelector, Bool.and_eq_true, Bool.or_eq_true, Bool.not_eq_true', beq_iff_eq,
    and_assoc]

/-- Delivery goes through the descriptor that the table register leads to (R126). -/
theorem deliver_of_readsDescriptor {s : State} {r : TableReg} {v : Byte} {d : BitVec 64}
    (h : readsDescriptor s r v d) :
    s.deliver v = s.enterGate v (descType d) (descSelector d) (descOffset d) := by
  obtain ⟨hidtr, hinside, hread⟩ := h
  have hin : vectorInside r v = true := decide_eq_true hinside
  simp only [State.deliver, hidtr, hin, DESC_BYTES, hread]
  rw [BitVec.ofNat_toNat, BitVec.setWidth_eq]
  rfl

/-- Delivery through a good gate to a handler program, with room to nest, pushes its context (R126, R127). -/
theorem deliver_of_goodGate {s : State} {r : TableReg} {v : Byte} {d : BitVec 64} {prog : List CmdWord}
    (h : readsDescriptor s r v d) (hgood : goodGate d) (hprog : handlerAt s.cfg (descOffset d) = some prog)
    (hroom : s.irqs.length < s.cfg.maxNest) :
    s.deliver v = (s.pushContext v prog).setIF (if d.extractLsb' 40 4 = 0xE then false else s.IF) := by
  obtain ⟨hpresent, hsupported⟩ := (goodGate_iff d).1 hgood
  rw [deliver_of_readsDescriptor h, State.enterGate, hpresent, hsupported, hprog]
  simp only [Bool.not_true, Bool.false_eq_true, if_false, hroom.not_ge]
  rw [isInterruptGate_descType, ifAfterGate]
  by_cases hgate : d.extractLsb' 40 4 = 0xE <;> simp [hgate]

theorem bytes_length {m : Memory} {a n : Nat} {bs : List Byte} (h : m.bytes a n = some bs) : bs.length = n := by
  induction n generalizing a bs with
  | zero => cases h; rfl
  | succ n ih =>
    simp only [Memory.bytes] at h
    split at h
    · next b bs' _ hrest =>
      cases h
      exact congrArg (· + 1) (ih hrest)
    · exact absurd h nofun

/-- A vector inside the table that is built has the descriptor there (R31, R67). -/
theorem readsDescriptor_of_descAt {s : State} {v : Byte} {d : BitVec 64} (hidtr : s.idtr = some (idtRegister s.cfg))
    (hd : s.descAt v = some d) : readsDescriptor s (idtRegister s.cfg) v d := by
  have hv := v.isLt
  refine ⟨hidtr, ?_, ?_⟩
  · simp only [idtRegister, idtLimit]
    rw [show (0x07FF : Half).toNat = 2047 from rfl]
    omega
  · simp only [State.descAt, State.memRead, Option.map_map, Option.map_eq_some_iff] at hd
    obtain ⟨bs, hbytes, rfl⟩ := hd
    have hlt := leValue_lt bs
    rw [bytes_length hbytes] at hlt
    have hmem : s.memRead (descAddr s.cfg v) 8 = some (leValue bs) := by rw [State.memRead, hbytes, Option.map_some]
    refine hmem.trans (congrArg some ?_)
    rw [Function.comp_apply, BitVec.toNat_ofNat, Nat.mod_eq_of_lt (hlt.trans_eq (by norm_num))]

/-- A type byte of a present 32-bit gate makes `D(h, t)` a good gate (R65). -/
theorem goodGate_descriptor (h : Addr) {t : Byte} (hp : t.getLsbD 7 = true) (hs : t.getLsbD 4 = false)
    (hg : t.extractLsb' 0 4 = 0xE ∨ t.extractLsb' 0 4 = 0xF) : goodGate (descriptor h t) := by
  rw [goodGate_iff, descType_descriptor, descSelector_descriptor]
  refine ⟨hp, ?_⟩
  simp only [gateSupported, gateSystem, hs, isInterruptGate, isTrapGate, gateType, codeSelector]
  rcases hg with hg | hg <;> rw [hg] <;> rfl

/-- Settles O27: the descriptor that IDTREG writes is the good gate that the delivery reads. -/
theorem registeredVectorDelivers : Obligations.RegisteredVectorDelivers := by
  unfold Obligations.RegisteredVectorDelivers
  intro s v h ty prog hb htable hp hs hg hprog hroom
  obtain ⟨hidtr, -⟩ := htable
  rw [hb, if_pos rfl] at hidtr
  obtain ⟨m, hm, he⟩ := exec_idtreg_eq v h ty hb
  refine ⟨_, he, ?_⟩
  set u : State := ({ s with mem := m, ptrace := s.ptrace ++ [.irqOff, .irqRestore s.IF] } : State).commandDone with hu
  have hread : readsDescriptor u (idtRegister u.cfg) v (descriptor h ty) :=
    readsDescriptor_of_descAt hidtr (descAt_of_writeDescriptor (s := s) (t := u) rfl hm).1
  have hdepth : u.irqs.length = s.irqs.length := by rw [hu, State.commandDone_eq, State.setTop_irqs_length]
  have htype : (descriptor h ty).extractLsb' 40 4 = ty.extractLsb' 0 4 := by
    rw [← gateType_descType, descType_descriptor, gateType]
  rw [deliver_of_goodGate hread (goodGate_descriptor h hp hs hg) (by rw [descOffset_descriptor]; exact hprog)
    (by rw [hdepth]; exact hroom), htype]
  exact ⟨rfl, rfl, rfl⟩

end Sys2Proof.Machine
end

section
/-!
PROOFS. 20_memory.md and 10_state.md R31, R35, R44, R48: which bytes a step changes, and that memory and the descriptor
table stay in order.
-/

namespace Sys2Proof.Machine

/-- What a step does to memory: nothing; or, under an admitted configuration, the running context's command writes a
cell (CINIT, PUTCHAR), the zeroed table (IDTBUILD) or a descriptor (IDTREG) (R36, R48). -/
theorem step_memory {s t : State} (hl : s.localsOk) (h : step s = .next t) :
    t.mem = s.mem ∨ (configOk s.cfg = true ∧ s.nextChoice.isRun = true ∧ ∃ w i, s.top.fetch = some w ∧
      decode w = .ok i ∧ exec i s.popChoice = .next t ∧
      (((i.kind = .cinit ∨ i.kind = .putchar) ∧
          ∃ j v, j < CELLS ∧ t.mem = s.mem.store (cellAddrOf s.cfg j) (leBytes 2 v)) ∨
        (i.kind = .idtbuild ∧ t.mem = s.zeroTable.mem) ∨
        (∃ v hh ty, i = .idtreg v hh ty ∧ t.mem = (s.writeDescriptor (descAddr s.cfg v) hh ty).mem))) := by
  rcases step_data h with ⟨hmem, -⟩ | ⟨hcok, hrun, w, i, -, hf, hd, he⟩
  · exact .inl hmem
  have htop : s.popChoice.top.localsOk s.popChoice.cfg := hl _ (s.frames_eq ▸ List.mem_cons_self)
  rcases exec_memory htop he with hmem | hmem | hmem | ⟨v, hh, ty, hi, hmem⟩
  · exact .inl hmem
  · exact .inr ⟨hcok, hrun, w, i, hf, hd, he, .inl hmem⟩
  · exact .inr ⟨hcok, hrun, w, i, hf, hd, he, .inr (.inl hmem)⟩
  · refine .inr ⟨hcok, hrun, w, i, hf, hd, he, .inr (.inr ⟨v, hh, ty, hi, hmem.trans ?_⟩)⟩
    simp only [State.writeDescriptor, State.memWrite_mem, State.popChoice_mem, State.popChoice_cfg]

/-! ### The canonical form -/

/-- A descriptor of an admitted configuration lies in the table region (R35). -/
theorem descAddr_le (cfg : Config) (v : Byte) :
    cfg.idtBase.toNat ≤ descAddr cfg v ∧ descAddr cfg v + 8 ≤ cfg.idtBase.toNat + IDT_BYTES := by
  have hv := v.isLt
  simp only [descAddr, DESC_BYTES, IDT_BYTES]
  omega

theorem writeDescriptor_wf {s : State} (h : s.mem.wf) {d : Nat} (hd : d + 8 ≤ 2 ^ 32) (hh : Addr) (ty : Byte) :
    (s.writeDescriptor d hh ty).mem.wf := by
  rw [State.writeDescriptor]
  refine State.memWrite_wf (State.memWrite_wf (State.memWrite_wf (State.memWrite_wf (State.memWrite_wf h
    _ _ _ ?_) _ _ _ ?_) _ _ _ ?_) _ _ _ ?_) _ _ _ ?_ <;> omega

/-- Settles O53: each store of a step lies inside a region of an admitted configuration. -/
theorem memoryFormKept : Obligations.MemoryFormKept := by
  unfold Obligations.MemoryFormKept
  intro s t hl hwf hstep
  rcases step_memory hl hstep with hmem | ⟨hcok, -, w, i, -, -, -, h⟩
  · rwa [hmem]
  obtain ⟨hfb, hidt, -⟩ := configOk_regions hcok
  rcases h with ⟨-, j, v, hj, hmem⟩ | ⟨-, hmem⟩ | ⟨v, hh, ty, -, hmem⟩ <;> rw [hmem]
  · refine Memory.store_wf hwf _ _ ?_
    simp only [cellAddrOf, CELL_BYTES, CELLS, FB_BYTES, leBytes_length] at *
    omega
  · exact State.zeroTable_wf hwf hidt
  · exact writeDescriptor_wf hwf ((descAddr_le s.cfg v).2.trans hidt) hh ty

/-! ### Writers -/

/-- A byte that a cell's store changes lies in the framebuffer (R36). -/
theorem byteAt_store_cell {cfg : Config} {m : Memory} {j v a : Nat} (hj : j < CELLS)
    (h : (m.store (cellAddrOf cfg j) (leBytes 2 v)).byteAt a ≠ m.byteAt a) :
    cfg.fbBase.toNat ≤ a ∧ a < cfg.fbBase.toNat + 4000 := by
  by_contra hout
  refine h (byteAt_store_outside m ?_)
  simp only [cellAddrOf, CELL_BYTES, CELLS, leBytes_length] at *
  omega

/-- Settles O57: a byte that changes lies in what the step's store writes. -/
theorem memoryWriters : Obligations.MemoryWriters := by
  unfold Obligations.MemoryWriters
  intro s t a hl hstep hchange
  rcases step_memory hl hstep with hmem | ⟨-, hrun, w, i, hf, hd, -, h⟩
  · exact absurd (by rw [hmem]) hchange
  refine ⟨hrun, w, i, hf, hd, ?_⟩
  rcases h with ⟨hk, j, v, hj, hmem⟩ | ⟨hk, hmem⟩ | ⟨v, hh, ty, rfl, hmem⟩ <;> rw [hmem] at hchange
  · exact .inl ⟨hk, byteAt_store_cell hj hchange⟩
  · refine .inr ⟨.inl hk, ?_⟩
    by_contra hout
    exact hchange (byteAt_zeroTable_outside s (by simp only [IDT_BYTES]; omega))
  · refine .inr ⟨.inr rfl, ?_⟩
    by_contra hout
    obtain ⟨hlo, hhi⟩ := descAddr_le s.cfg v
    refine hchange (byteAt_writeDescriptor_outside s _ hh ty a ?_)
    simp only [IDT_BYTES] at hhi
    omega

/-! ### The descriptor table -/

/-- Whatever the running command does, it leaves a table in order (R31, R35, R82). -/
theorem State.tableOk_of_memory {s t : State} (h : s.tableOk) (hcfg : t.cfg = s.cfg) (hidtr : t.idtr = s.idtr)
    (hbuilt : t.idtBuilt = s.idtBuilt)
    (hdesc : s.idtBuilt = true → ∀ v, t.descAt v = s.descAt v ∨ ∃ h ty, t.descAt v = some (descriptor h ty)) :
    t.tableOk := by
  obtain ⟨hreg, hentries⟩ := h
  refine ⟨by rw [hidtr, hbuilt, hcfg]; exact hreg, fun hb v => ?_⟩
  rw [hbuilt] at hb
  rcases hdesc hb v with hsame | hnew
  · rw [hsame]
    exact hentries hb v
  · exact .inr hnew

/-- A cell of the framebuffer shares no byte with the table (R10). -/
theorem descAt_store_cell {s t : State} {j v : Nat} (hcok : configOk s.cfg = true) (hj : j < CELLS)
    (hcfg : t.cfg = s.cfg) (hmem : t.mem = s.mem.store (cellAddrOf s.cfg j) (leBytes 2 v)) (u : Byte) :
    t.descAt u = s.descAt u := by
  obtain ⟨-, -, hapart⟩ := configOk_regions hcok
  obtain ⟨hlo, hhi⟩ := descAddr_le s.cfg u
  refine descAt_congr hcfg fun x h1 h2 => ?_
  rw [hmem]
  refine byteAt_store_outside _ ?_
  simp only [cellAddrOf, CELL_BYTES, CELLS, FB_BYTES, IDT_BYTES, leBytes_length] at *
  omega

theorem descAt_of_mem {s t : State} (hcfg : t.cfg = s.cfg) (hmem : t.mem = s.mem) (v : Byte) :
    t.descAt v = s.descAt v :=
  descAt_congr hcfg fun _ _ _ => by rw [hmem]

/-- IDTBUILD leaves a table of zero descriptors with its register loaded (R97). -/
theorem State.tableOk_idtbuild {s t : State} (h : s.tableOk) (he : exec .idtbuild s = .next t) : t.tableOk := by
  cases hif : s.IF with
  | true =>
    obtain rfl := Host.Outcome.next.inj ((exec_idtbuild_interruptible hif).symm.trans he)
    exact h
  | false =>
    obtain rfl := Host.Outcome.next.inj ((exec_idtbuild hif).symm.trans he)
    exact ⟨rfl, fun _ v => .inl (descAt_zeroTable s v)⟩

/-- Settles O52: only IDTBUILD changes the table register and its mark; of the other steps only IDTREG changes a
descriptor. -/
theorem tableKept : Obligations.TableKept := by
  unfold Obligations.TableKept
  intro s t hl htable hstep
  obtain ⟨hcfg, -⟩ := step_contexts hstep
  by_cases hbuild : ∃ i : Instr, i.kind = .idtbuild ∧ exec i s.popChoice = .next t
  · obtain ⟨i, hk, he⟩ := hbuild
    cases i with
    | idtbuild => exact State.tableOk_idtbuild (s := s.popChoice) htable he
    | _ => exact absurd hk nofun
  have hreg : t.idtr = s.idtr ∧ t.idtBuilt = s.idtBuilt := by
    rcases step_data hstep with ⟨-, -, hreg⟩ | ⟨-, -, w, i, -, -, -, he⟩
    · exact hreg
    · exact (exec_others he).1 fun hk => hbuild ⟨i, hk, he⟩
  refine State.tableOk_of_memory htable hcfg hreg.1 hreg.2 fun _ u => ?_
  rcases step_memory hl hstep with
    hmem | ⟨hcok, -, w, i, -, -, he, ⟨-, j, x, hj, hmem⟩ | ⟨hk, -⟩ | ⟨v, hh, ty, -, hmem⟩⟩
  · exact .inl (descAt_of_mem hcfg hmem u)
  · exact .inl (descAt_store_cell hcok hj hcfg hmem u)
  · exact absurd ⟨i, hk, he⟩ hbuild
  · obtain ⟨hsame, hother⟩ := descAt_of_writeDescriptor hcfg hmem
    by_cases hu : u = v
    · exact .inr ⟨hh, ty, hu ▸ hsame⟩
    · exact .inl (hother u hu)

end Sys2Proof.Machine
end

section
/-!
PROOFS. 10_state.md R19, R23, R28, R29, R32, R38, R39: what a step leaves of the contexts, the programs, `IF`, the
traces and the marks.
-/

namespace Sys2Proof.Machine

/-! ### The contexts -/

/-- The top context runs: nothing else of the contexts changes, and its `pc` moves at most to the start of the next
command (R27, R28). -/
structure TopRuns (s t : State) : Prop where
  length : t.irqs.length = s.irqs.length
  below : t.below = s.below
  tail : t.irqs.tail = s.irqs.tail
  saved : t.irqs.map (fun k => (k.vector, k.savedIF)) = s.irqs.map (fun k => (k.vector, k.savedIF))
  prog : t.top.prog = s.top.prog
  pc : t.top.pc = s.top.pc ∨ (t.top.pc = s.top.pc + 1 ∧ t.top.mu = 0 ∧ t.top.inOp = none)

theorem TopRuns.of_contextsWithTop {g : Frame} {s t : State} (h : contextsWithTop g s t) (hprog : g.prog = s.top.prog)
    (hpc : g.pc = s.top.pc ∨ (g.pc = s.top.pc + 1 ∧ g.mu = 0 ∧ g.inOp = none)) : TopRuns s t where
  length := by rw [h.2, State.setTop_irqs_length]
  below := by rw [State.below_congr h.1 h.2, State.setTop_below]
  tail := contextsWithTop_tail h
  saved := by
    rw [h.2]
    cases hi : s.irqs <;> simp [State.setTop, hi]
  prog := by rw [contextsWithTop_top h, hprog]
  pc := by rwa [contextsWithTop_top h]

/-- A context whose flow or phase alone changes is the one that runs. -/
theorem TopRuns.of_irqs {s t : State} {k j : IrqContext} {rest : List IrqContext} (hi : s.irqs = k :: rest)
    (hm : t.main = s.main) (ht : t.irqs = j :: rest) (hv : j.vector = k.vector) (hsaved : j.savedIF = k.savedIF)
    (hprog : j.frame.prog = k.frame.prog) (hpc : j.frame.pc = k.frame.pc) : TopRuns s t where
  length := by simp [hi, ht]
  below := by simp [State.below, hi, ht, hm]
  tail := by simp [hi, ht]
  saved := by simp [hi, ht, hv, hsaved]
  prog := by simp [State.top, hi, ht, hprog]
  pc := .inl (by simp [State.top, hi, ht, hpc])

theorem TopRuns.of_eq {s t : State} (hm : t.main = s.main) (hi : t.irqs = s.irqs) : TopRuns s t where
  length := by rw [hi]
  below := State.below_congr hm hi
  tail := by rw [hi]
  saved := by rw [hi]
  prog := by rw [State.top_congr hm hi]
  pc := .inl (by rw [State.top_congr hm hi])

/-- A micro-step of a command is a run of the top context (R27). -/
theorem TopRuns.of_flowAfter {k : Kind} {g : Frame} {s t : State} (h : contextsWithTop g s t)
    (hg : flowAfter k s.top g) : TopRuns s t := by
  rcases hg with rfl | ⟨hprog, hpc, -, -⟩ | rfl
  · exact .of_contextsWithTop h rfl (.inl rfl)
  · exact .of_contextsWithTop h hprog (.inl hpc)
  · exact .of_contextsWithTop h rfl (.inr ⟨rfl, rfl, rfl⟩)

/-- The moves of the trampoline before the return leave the contexts but for the top one's phase and place (R128). -/
theorem TopRuns.of_trampolineEoi {s : State} {k : IrqContext} {rest : List IrqContext} (hi : s.irqs = k :: rest) :
    TopRuns s s.trampolineEoi := by
  obtain ⟨hmain, -, -, -, -, -, -, hirqs | hirqs | hirqs⟩ := trampolineEoi_contexts hi
  · exact .of_eq hmain hirqs
  · exact .of_irqs hi hmain hirqs rfl rfl rfl rfl
  · exact .of_irqs hi hmain hirqs rfl rfl rfl rfl

theorem TopRuns.of_popChoice {s t : State} (h : TopRuns s.popChoice t) : TopRuns s t :=
  ⟨h.length, h.below, h.tail, h.saved, h.prog, h.pc⟩

theorem deliver_main (v : Byte) (s : State) : (s.deliver v).main = s.main := by
  obtain ⟨-, -, -, -, -, -, -, -, -, -, -, hmain⟩ := deliver_keeps v s
  exact hmain

/-- A delivery puts a context that starts a handler program on the contexts `s` has with the top flow `f` (R126,
R127). -/
structure Pushes (f : Frame) (s t : State) : Prop where
  main : t.main = (s.setTop f).main
  irqs : ∃ v h p, handlerAt s.cfg h = some p ∧
    t.irqs = { vector := v, phase := .body, savedIF := s.IF, frame := Frame.start p } :: (s.setTop f).irqs

theorem setTop_self (s : State) : (s.setTop s.top).main = s.main ∧ (s.setTop s.top).irqs = s.irqs := by
  cases hi : s.irqs <;> simp [State.setTop, State.top, hi]

/-- What a step does to the contexts: the top one runs; or a delivery pushes one, above a SWINT that moved past itself
or above the contexts as they were; or a return takes the top one off (R28, R126, R129). -/
theorem step_runs {s t : State} (h : step s = .next t) :
    TopRuns s t ∨ Pushes s.top s t ∨ Pushes s.top.commandDone s t ∨
      (∃ k, s.irqs = k :: t.irqs ∧ t.main = s.main ∧ k.phase = .ret ∧ t.IF = k.savedIF) := by
  obtain ⟨-, ⟨hm, hi, -⟩ | ⟨w, i, g, -, -, -, -, -, hg, htop⟩ | ⟨w, v, -, -, -, -, rfl⟩ | ⟨c, n, -, -, -, rfl⟩ |
    ⟨k, rest, hi, -, -, rfl⟩ | ⟨k, rest, hi, -, rfl⟩ | ⟨k, rest, hi, hret, rfl⟩⟩ := step_contexts h
  · exact .inl (.of_eq hm hi)
  · exact .inl (.of_flowAfter htop hg)
  · have hmain := deliver_main v ((s.popChoice.logEvent (.int v)).commandDone)
    rcases deliver_contexts v ((s.popChoice.logEvent (.int v)).commandDone) with ⟨hi, -⟩ | ⟨hh, p, hp, -, hi, -⟩
    · exact .inl (.of_contextsWithTop (g := s.top.commandDone) ⟨hmain, hi⟩ rfl (.inr ⟨rfl, rfl, rfl⟩))
    · exact .inr (.inr (.inl ⟨hmain, v, hh, p, hp, hi⟩))
  · obtain ⟨hmainTop, hirqsTop⟩ := setTop_self s
    have hmain := deliver_main (s.lineVector c n) (s.popChoice.acknowledge c n)
    have hcontexts := deliver_contexts (s.lineVector c n) (s.popChoice.acknowledge c n)
    generalize (s.popChoice.acknowledge c n).deliver (s.lineVector c n) = t at *
    rw [acknowledge_eq] at hmain hcontexts
    rcases hcontexts with ⟨hi, -⟩ | ⟨hh, p, hp, -, hi, -⟩
    · exact .inl (.of_eq hmain hi)
    · exact .inr (.inl ⟨hmain.trans hmainTop.symm, _, hh, p, hp, by rw [hi, hirqsTop]; rfl⟩)
  · rw [setPhase_cons _ s.popChoice k rest hi]
    exact .inl (.of_irqs hi rfl rfl rfl rfl rfl rfl)
  · exact .inl (TopRuns.of_popChoice (.of_trampolineEoi (s := s.popChoice) hi))
  · rw [interruptReturn_cons s.popChoice k rest hi]
    exact .inr (.inr (.inr ⟨k, hi, rfl, hret, rfl⟩))

/-- Settles O56: the four ways of `step_runs`. -/
theorem onlyTopContextRuns : Obligations.OnlyTopContextRuns := by
  unfold Obligations.OnlyTopContextRuns
  intro s t hstep
  obtain ⟨hmainTop, hirqsTop⟩ := setTop_self s
  rcases step_runs hstep with h | ⟨hmain, v, hh, p, -, hirqs⟩ | ⟨hmain, v, hh, p, -, hirqs⟩ | hreturn
  · exact .inl ⟨h.length, h.below, h.tail, h.saved, h.prog, h.pc⟩
  · exact .inr (.inl ⟨_, hirqs.trans (by rw [hirqsTop]), hmain.trans hmainTop, rfl, rfl⟩)
  · exact .inr (.inr (.inl ⟨_, hirqs, hmain, rfl, rfl⟩))
  · exact .inr (.inr (.inr hreturn))

/-! ### The programs -/

theorem TopRuns.progs {s t : State} (h : TopRuns s t) :
    t.main.prog = s.main.prog ∧ t.irqs.map (·.frame.prog) = s.irqs.map (·.frame.prog) := by
  have hbelow := h.below
  have htail := h.tail
  have hlen := h.length
  have hprog := h.prog
  cases hs : s.irqs with
  | nil =>
    have ht : t.irqs = [] := by simpa [hs] using hlen
    simp only [State.top, hs, ht] at hprog
    exact ⟨hprog, by rw [ht]⟩
  | cons k rest =>
    obtain ⟨j, ht⟩ : ∃ j, t.irqs = j :: rest := by
      cases ht : t.irqs with
      | nil => simp [hs, ht] at hlen
      | cons j rest' => exact ⟨j, by simpa [hs, ht] using htail⟩
    simp only [State.top, State.below, hs, ht, List.append_cancel_left_eq, List.cons.injEq, and_true] at hprog hbelow
    exact ⟨by rw [hbelow], by simp [ht, hprog]⟩

theorem setTop_progs {f : Frame} {s : State} (h : f.prog = s.top.prog) :
    (s.setTop f).main.prog = s.main.prog ∧ (s.setTop f).irqs.map (·.frame.prog) = s.irqs.map (·.frame.prog) := by
  cases hi : s.irqs <;> simp_all [State.setTop, State.top]

/-- The programs of the contexts after a delivery (R126). -/
theorem Pushes.progs {f : Frame} {s t : State} (h : Pushes f s t) (hf : f.prog = s.top.prog) :
    t.main.prog = s.main.prog ∧ ∃ h p, handlerAt s.cfg h = some p ∧
      t.irqs.map (·.frame.prog) = p :: s.irqs.map (·.frame.prog) := by
  obtain ⟨hmain, hirqs⟩ := setTop_progs hf
  obtain ⟨v, hh, p, hp, ht⟩ := h.irqs
  exact ⟨by rw [h.main, hmain], hh, p, hp, by rw [ht, List.map_cons, hirqs]; rfl⟩

/-- Settles O55: a running context keeps its program, a delivery adds a handler's, a return takes one off. -/
theorem programsNeverChange : Obligations.ProgramsNeverChange := by
  unfold Obligations.ProgramsNeverChange
  intro s t hstep
  obtain ⟨hcfg, -⟩ := step_contexts hstep
  refine ⟨hcfg, ?_⟩
  rcases step_runs hstep with h | h | h | ⟨k, hirqs, hmain, -⟩
  · exact ⟨h.progs.1, .inl h.progs.2⟩
  · exact ⟨(h.progs rfl).1, .inr (.inl (h.progs rfl).2)⟩
  · exact ⟨(h.progs rfl).1, .inr (.inl (h.progs rfl).2)⟩
  · exact ⟨by rw [hmain], .inr (.inr (by rw [hirqs]; rfl))⟩

end Sys2Proof.Machine
end

section
/-!
PROOFS. 10_state.md R23, R29, R32, R38, R39: who writes `IF`, what a step adds to the traces, and that the marks stay.
-/

namespace Sys2Proof.Machine

/-! ### Console commands -/

/-- What a Console command of kind `k` leaves: it records no stop but its own faults, and clears no mark (R23, R90, R92,
R93, R95). -/
structure ConsoleOnly (k : Kind) (s t : State) : Prop where
  flag : t.IF = s.IF
  trace : t.trace = s.trace
  ptrace : t.ptrace = s.ptrace
  refused : t.refused = s.refused
  fault : t.fault = s.fault ∨ t.fault = some (.consoleNotReady k) ∨ (∃ k', t.fault = some (.consoleRace k' k)) ∨
    ∃ r c, t.fault = some (.cursorOutOfRange r c)
  ready : s.con.ready = true → t.con.ready = true

theorem ConsoleOnly.raiseRace (k k' : Kind) (s : State) : ConsoleOnly k s (s.raise (.consoleRace k' k)) :=
  ⟨rfl, rfl, rfl, rfl, .inr (.inr (.inl ⟨k', rfl⟩)), id⟩

theorem ConsoleOnly.raiseNotReady (k : Kind) (s : State) : ConsoleOnly k s (s.raise (.consoleNotReady k)) :=
  ⟨rfl, rfl, rfl, rfl, .inr (.inl rfl), id⟩

theorem initCell_consoleOnly (i : Nat) (s : State) : ConsoleOnly .cinit s (s.initCell i) := by
  unfold State.initCell
  split_ifs <;> exact ⟨rfl, rfl, rfl, rfl, .inl rfl, id⟩

theorem exec_cinit_consoleOnly {s t : State} (he : exec .cinit s = .next t) : ConsoleOnly .cinit s t := by
  simp only [exec, execCinit, Host.Outcome.next.injEq] at he
  subst he
  cases s.cfg.raceModel with
  | fault =>
    simp only [State.cinitMicro]
    split
    · rcases startConsole_cases .cinit (fun s => ({ s with con := initialConsole s.cfg } : State).microDone .cinit) s
        with ⟨k, -, -, h⟩ | ⟨-, h⟩ <;> rw [h]
      · exact .raiseRace _ _ _
      · exact ⟨rfl, rfl, rfl, rfl, .inl rfl, fun _ => rfl⟩
    · exact initCell_consoleOnly _ _
  | interleave =>
    simp only [State.cinitInterleaved]
    split
    · split
      · next m _ => cases m <;> exact ⟨rfl, rfl, rfl, rfl, .inl rfl, fun h => by first | exact h | rfl⟩
      · exact ⟨rfl, rfl, rfl, rfl, .inl rfl, id⟩
    · exact initCell_consoleOnly _ _

theorem exec_setcolor_consoleOnly {a : Byte} {s t : State} (he : exec (.setcolor a) s = .next t) :
    ConsoleOnly .setcolor s t := by
  simp only [exec, execSetcolor, Host.Outcome.next.injEq] at he
  subst he
  rcases startReady_cases .setcolor (fun s => ({ s with con := s.con.setAttr a } : State).commandDone) s with
    ⟨k, -, -, h⟩ | ⟨-, -, h⟩ | ⟨-, -, h⟩ <;> rw [h]
  · exact .raiseRace _ _ _
  · exact .raiseNotReady _ _
  · exact ⟨rfl, rfl, rfl, rfl, .inl rfl, id⟩

theorem cursorRead_consoleOnly (m : Micro) (s : State) : ConsoleOnly .putchar s (s.cursorRead m) := by
  rcases cursorRead_cases m s with ⟨-, h⟩ | ⟨-, h⟩ <;> rw [h]
  · exact ⟨rfl, rfl, rfl, rfl, .inl rfl, id⟩
  · exact .raiseNotReady _ _

theorem cursorStore_consoleOnly (m : Micro) (s : State) : ConsoleOnly .putchar s (s.cursorStore m) := by
  cases m <;> unfold State.cursorStore <;> dsimp only <;> (repeat' split) <;>
    exact ⟨rfl, rfl, rfl, rfl, .inl rfl, id⟩

theorem ConsoleOnly.setTop {k : Kind} {s t : State} (h : ConsoleOnly k s t) (f : Frame) :
    ConsoleOnly k s (t.setTop f) :=
  ⟨h.flag, h.trace, h.ptrace, h.refused, h.fault, h.ready⟩

theorem exec_putchar_consoleOnly {ch : Byte} {s t : State} (he : exec (.putchar ch) s = .next t) :
    ConsoleOnly .putchar s t := by
  simp only [exec, execPutchar, Host.Outcome.next.injEq] at he
  subst he
  cases s.cfg.raceModel with
  | fault =>
    simp only [State.putcharMicro]
    split
    · rcases startReady_cases .putchar (fun s => s.readCursor.microDone .putchar) s with
        ⟨k, -, -, h⟩ | ⟨-, -, h⟩ | ⟨-, -, h⟩ <;> rw [h]
      · exact .raiseRace _ _ _
      · exact .raiseNotReady _ _
      · exact ⟨rfl, rfl, rfl, rfl, .inl rfl, id⟩
    · exact ⟨rfl, rfl, rfl, rfl, .inl rfl, id⟩
    · exact ⟨rfl, rfl, rfl, rfl, .inl rfl, id⟩
  | interleave =>
    simp only [State.putcharInterleaved]
    split
    · split
      · exact cursorRead_consoleOnly _ _
      · exact ⟨rfl, rfl, rfl, rfl, .inl rfl, id⟩
    · split
      · unfold State.checkedGlyph
        split
        · exact ⟨rfl, rfl, rfl, rfl, .inr (.inr (.inr ⟨_, _, rfl⟩)), id⟩
        · exact ⟨rfl, rfl, rfl, rfl, .inl rfl, id⟩
      · unfold State.cursorStoreMicro
        split
        · split <;> exact (cursorStore_consoleOnly _ _).setTop _
        · exact ⟨rfl, rfl, rfl, rfl, .inl rfl, id⟩

theorem exec_consoleOnly {i : Instr} {s t : State} (hk : i.kind.isConsole = true) (he : exec i s = .next t) :
    ConsoleOnly i.kind s t := by
  cases i with
  | cinit => exact exec_cinit_consoleOnly he
  | setcolor a => exact exec_setcolor_consoleOnly he
  | putchar ch => exact exec_putchar_consoleOnly he
  | _ => exact absurd hk nofun

/-! ### IDTBUILD and IDTREG -/

/-- IDTBUILD and IDTREG record their fault and change nothing else, or complete: beside their own place only memory, the
table register and its mark, which stays set, and the privileged-operation trace change (R97, R98). -/
theorem exec_idt_cases {i : Instr} {s t : State} (hk : i.kind = .idtbuild ∨ i.kind = .idtreg)
    (he : exec i s = .next t) :
    t = s.raise .buildInterruptible ∨ (∃ v, t = s.raise (.idtNotBuilt v)) ∨
      ∃ m x b added, (s.idtBuilt = true → b = true) ∧
        t = ({ s with mem := m, idtr := x, idtBuilt := b, ptrace := s.ptrace ++ added } : State).commandDone := by
  cases i with
  | idtbuild =>
    by_cases hif : s.IF = true
    · exact .inl (Host.Outcome.next.inj (he.symm.trans (exec_idtbuild_interruptible hif)))
    · exact .inr (.inr ⟨s.zeroTable.mem, some (idtRegister s.cfg), true, [.lidt idtLimit s.cfg.idtBase], fun _ => rfl,
        Host.Outcome.next.inj (he.symm.trans (exec_idtbuild (Bool.eq_false_iff.mpr hif)))⟩)
  | idtreg v hh ty =>
    by_cases hb : s.idtBuilt = true
    · obtain ⟨m, -, hnext⟩ := exec_idtreg_eq v hh ty hb
      exact .inr (.inr ⟨m, s.idtr, s.idtBuilt, _, id, Host.Outcome.next.inj (he.symm.trans hnext)⟩)
    · exact .inr (.inl
        ⟨v, Host.Outcome.next.inj (he.symm.trans (exec_idtreg_not_built v hh ty (Bool.eq_false_iff.mpr hb)))⟩)
  | _ => simp [Instr.kind] at hk

/-! ### The traces, the marks and `IF` -/

/-- Both traces keep their entries, and both marks stay (R23, R32, R38, R39). -/
structure Grows (s t : State) : Prop where
  trace : s.trace <+: t.trace
  ptrace : s.ptrace <+: t.ptrace
  ready : s.con.ready = true → t.con.ready = true
  built : s.idtBuilt = true → t.idtBuilt = true

theorem Grows.of_eq {s t : State} (ht : t.trace = s.trace) (hp : t.ptrace = s.ptrace) (hc : t.con = s.con)
    (hb : t.idtBuilt = s.idtBuilt) : Grows s t :=
  ⟨ht ▸ List.prefix_rfl, hp ▸ List.prefix_rfl, hc ▸ id, hb ▸ id⟩

theorem Grows.refl (s : State) : Grows s s := .of_eq rfl rfl rfl rfl

theorem Grows.trans {s u t : State} (h : Grows s u) (h' : Grows u t) : Grows s t :=
  ⟨h.trace.trans h'.trace, h.ptrace.trans h'.ptrace, h'.ready ∘ h.ready, h'.built ∘ h.built⟩

theorem grows_deliver (v : Byte) (s : State) : Grows s (s.deliver v) := by
  obtain ⟨hcon, -, -, -, -, hbuilt, htrace, hptrace, -⟩ := deliver_keeps v s
  exact .of_eq htrace hptrace hcon hbuilt

theorem grows_portWrite (p : Half) (b : Byte) (s : State) : Grows s (s.portWrite p b) := by
  rw [portWrite_eq]
  exact ⟨⟨_, rfl⟩, List.prefix_rfl, id, id⟩

theorem Grows.andThen {s u : State} {f : State → State} (h : Grows s u) (hf : ∀ u, Grows u (f u)) :
    Grows s (u.andThen f) := by
  rcases andThen_cases u f with ⟨-, h'⟩ | ⟨-, h'⟩ <;> rw [h']
  · exact h
  · exact h.trans (hf u)

theorem grows_setTop (f : Frame) (s : State) : Grows s (s.setTop f) := .of_eq rfl rfl rfl rfl

theorem grows_setPhase (ph : Phase) (s : State) : Grows s (s.setPhase ph) := by
  unfold State.setPhase
  split <;> exact .of_eq rfl rfl rfl rfl

theorem grows_eoiMicro {finish : State → State} (hfinish : ∀ u, Grows u (finish u)) (s : State) :
    Grows s (s.eoiMicro finish) := by
  rcases eoiMicro_cases finish s with ⟨-, -, h⟩ | ⟨-, -, h⟩ | ⟨-, h⟩ <;> rw [h]
  · exact .of_eq rfl rfl rfl rfl
  · exact (grows_portWrite _ _ s).andThen fun u => grows_setTop _ u
  · exact (grows_portWrite _ _ s).andThen hfinish

theorem grows_exec {i : Instr} {s t : State} (he : exec i s = .next t) : Grows s t := by
  by_cases hk : i.kind.isConsole = true
  · have h := exec_consoleOnly hk he
    have hbuilt : t.idtBuilt = s.idtBuilt := ((exec_others he).1 fun h => by simp [h, Kind.isConsole] at hk).2
    exact ⟨h.trace ▸ List.prefix_rfl, h.ptrace ▸ List.prefix_rfl, h.ready, hbuilt ▸ id⟩
  cases i with
  | cinit => exact absurd rfl hk
  | setcolor a => exact absurd rfl hk
  | putchar ch => exact absurd rfl hk
  | idtbuild | idtreg _ _ _ =>
    rcases exec_idt_cases (by simp [Instr.kind]) he with rfl | ⟨v, rfl⟩ | ⟨m, x, b, added, hb, rfl⟩
    · exact .of_eq rfl rfl rfl rfl
    · exact .of_eq rfl rfl rfl rfl
    · exact ⟨List.prefix_rfl, ⟨added, rfl⟩, id, hb⟩
  | picremap mb sb =>
    simp only [exec, execPicremap, Host.Outcome.next.injEq] at he
    subst he
    split
    · exact grows_setTop _ s
    · exact (grows_portWrite _ _ s).andThen fun u => by split <;> exact grows_setTop _ u
  | piceoi =>
    simp only [exec, execPiceoi, Host.Outcome.next.injEq] at he
    subst he
    exact grows_eoiMicro (fun u => grows_setTop _ u) s
  | cli =>
    simp only [exec, execCli, Host.Outcome.next.injEq] at he
    subst he
    exact ⟨List.prefix_rfl, ⟨_, rfl⟩, id, id⟩
  | sti =>
    simp only [exec, execSti, Host.Outcome.next.injEq] at he
    subst he
    exact ⟨List.prefix_rfl, ⟨_, rfl⟩, id, id⟩
  | swint v =>
    simp only [exec, execSwint, Host.Outcome.next.injEq] at he
    subst he
    have hlogged : Grows s (s.logEvent (.int v)).commandDone := ⟨List.prefix_rfl, ⟨_, rfl⟩, id, id⟩
    exact hlogged.trans (grows_deliver v _)

theorem grows_hardwareDelivery (s : State) : Grows s s.hardwareDelivery := by
  rcases hardwareDelivery_cases s with h | h | h | ⟨c, n, -, -, -, h⟩ <;> rw [h]
  · exact .refl s
  · exact .of_eq rfl rfl rfl rfl
  · exact .of_eq rfl rfl rfl rfl
  · refine Grows.trans ?_ (grows_deliver _ _)
    rw [acknowledge_eq]
    exact .of_eq rfl rfl rfl rfl

theorem grows_runTop {s t : State} (h : s.runTop = .next t) : Grows s t := by
  rcases runTop_cases h with ⟨-, -, rfl⟩ | ⟨w, e, -, -, -, rfl⟩ | ⟨w, i, -, -, -, he⟩ | ⟨k, rest, -, -, -, rfl⟩ |
    ⟨k, rest, -, -, rfl⟩ | ⟨k, rest, hi, -, rfl⟩
  · exact .refl _
  · exact .of_eq rfl rfl rfl rfl
  · exact grows_exec he
  · exact grows_setPhase _ s
  · exact grows_eoiMicro (grows_setPhase .ret) s
  · rw [interruptReturn_cons s k rest hi]
    exact ⟨List.prefix_rfl, ⟨_, rfl⟩, id, id⟩

/-- Settles O59: each agent's move appends to the traces and sets marks only. -/
theorem tracesGrowMarksStay : Obligations.TracesGrowMarksStay := by
  unfold Obligations.TracesGrowMarksStay
  intro s t hstep
  have hgrows : Grows s t := by
    obtain ⟨-, -, ⟨-, rfl⟩ | ⟨-, hmove⟩⟩ := step_cases hstep
    · exact .of_eq rfl rfl rfl rfl
    refine Grows.trans (u := s.popChoice) (.of_eq rfl rfl rfl rfl) ?_
    rcases move_cases hmove with ⟨-, h⟩ | ⟨-, rfl⟩ | ⟨k, n, -, rfl⟩
    · exact grows_runTop h
    · exact grows_hardwareDelivery _
    · rw [raiseIrq_eq]
      exact .of_eq rfl rfl rfl rfl
  exact ⟨hgrows.trace, hgrows.ptrace, hgrows.ready, hgrows.built⟩

/-! ### Writers of `IF` -/

theorem portWrite_andThen_IF (p : Half) (b : Byte) {f : State → State} (hf : ∀ u, (f u).IF = u.IF) (s : State) :
    ((s.portWrite p b).andThen f).IF = s.IF := by
  rcases andThen_cases (s.portWrite p b) f with ⟨-, h⟩ | ⟨-, h⟩ <;> rw [h]
  · exact State.portWrite_IF p b s
  · rw [hf, State.portWrite_IF]

/-- Of the commands only CLI and STI write `IF` themselves (R29). -/
theorem exec_IF {i : Instr} {s t : State} (hv : ∀ v, i ≠ .swint v) (he : exec i s = .next t) :
    t.IF = s.IF ∨ (i = .cli ∧ t.IF = false) ∨ (i = .sti ∧ t.IF = true) := by
  by_cases hk : i.kind.isConsole = true
  · exact .inl (exec_consoleOnly hk he).flag
  cases i with
  | cinit => exact absurd rfl hk
  | setcolor a => exact absurd rfl hk
  | putchar ch => exact absurd rfl hk
  | swint v => exact absurd rfl (hv v)
  | idtbuild | idtreg _ _ _ =>
    rcases exec_idt_cases (by simp [Instr.kind]) he with rfl | ⟨v, rfl⟩ | ⟨m, x, b, added, -, rfl⟩ <;> exact .inl rfl
  | picremap mb sb =>
    left
    simp only [exec, execPicremap, Host.Outcome.next.injEq] at he
    subst he
    split
    · rfl
    · exact portWrite_andThen_IF _ _ (fun u => by split <;> rfl) s
  | piceoi =>
    left
    simp only [exec, execPiceoi, Host.Outcome.next.injEq] at he
    subst he
    rcases eoiMicro_cases State.commandDone s with ⟨-, -, h⟩ | ⟨-, -, h⟩ | ⟨-, h⟩ <;> rw [h]
    · rfl
    · exact portWrite_andThen_IF _ _ (fun u => State.setTop_IF _ u) s
    · exact portWrite_andThen_IF _ _ (fun u => State.setTop_IF _ u) s
  | cli =>
    obtain rfl := Host.Outcome.next.inj he
    exact .inr (.inl ⟨rfl, rfl⟩)
  | sti =>
    obtain rfl := Host.Outcome.next.inj he
    exact .inr (.inr ⟨rfl, rfl⟩)

/-- A delivery that changes `IF` pushes a context and clears it (R127). -/
theorem deliver_IF {v : Byte} {s : State} (h : (s.deliver v).IF ≠ s.IF) :
    (s.deliver v).IF = false ∧ (s.deliver v).irqs.length = s.irqs.length + 1 := by
  rcases deliver_contexts v s with ⟨-, hflag⟩ | ⟨-, p, -, -, hirqs, hflag | hflag⟩
  · exact absurd hflag h
  · exact ⟨hflag, by rw [hirqs, List.length_cons]⟩
  · exact absurd hflag h

/-- Settles O58: the running context's command, a delivery and a return are the only moves that reach `IF`. -/
theorem interruptFlagWriters : Obligations.InterruptFlagWriters := by
  unfold Obligations.InterruptFlagWriters
  intro s t hstep hchange
  have swint : ∀ v, t = ((s.popChoice.logEvent (.int v)).commandDone).deliver v →
      t.IF = false ∧ t.irqs.length = s.irqs.length + 1 := by
    rintro v rfl
    obtain ⟨hif, hlen⟩ := deliver_IF hchange
    exact ⟨hif, by rw [hlen]; exact congrArg (· + 1) (State.setTop_irqs_length _ _)⟩
  obtain ⟨-, ⟨-, -, hif⟩ | ⟨w, i, g, -, -, hf, hd, he, -, -⟩ | ⟨w, v, -, -, -, -, ht⟩ | ⟨c, n, -, -, -, rfl⟩ |
    ⟨k, rest, hi, -, -, rfl⟩ | ⟨k, rest, hi, -, rfl⟩ | ⟨k, rest, hi, hret, rfl⟩⟩ := step_contexts hstep
  · exact absurd hif hchange
  · by_cases hv : ∃ v, i = .swint v
    · obtain ⟨v, rfl⟩ := hv
      exact .inr (.inl (swint v (Host.Outcome.next.inj he).symm))
    rcases exec_IF (fun v h => hv ⟨v, h⟩) he with hif | ⟨rfl, hif⟩ | ⟨rfl, hif⟩
    · exact absurd hif hchange
    · exact .inl ⟨w, hf, .inl ⟨hd, hif⟩⟩
    · exact .inl ⟨w, hf, .inr ⟨hd, hif⟩⟩
  · exact .inr (.inl (swint v ht))
  · have hif : (s.popChoice.acknowledge c n).IF = s.IF := by rw [acknowledge_eq]; rfl
    have hirqs : (s.popChoice.acknowledge c n).irqs = s.irqs := by rw [acknowledge_eq]; rfl
    rw [← hif] at hchange
    rw [← hirqs]
    exact .inr (.inl (deliver_IF hchange))
  · exact absurd (by rw [setPhase_cons _ s.popChoice k rest hi]; rfl) hchange
  · obtain ⟨-, hif, -⟩ := trampolineEoi_contexts (s := s.popChoice) hi
    exact absurd hif hchange
  · rw [interruptReturn_cons s.popChoice k rest hi]
    exact .inr (.inr ⟨k, by rw [hi]; rfl, hret, rfl⟩)

end Sys2Proof.Machine
end

section
/-!
PROOFS. 10_state.md R43, 60_exceptions.md R119: the launch state and every state a run reaches meet the invariant, and
the stops that no command produces are never recorded.
-/

namespace Sys2Proof.Machine

/-! ### The launch state -/

/-- A flow about to start a program is inside no command and has read nothing. -/
theorem Frame.start_inOrder (cfg : Config) (prog : List CmdWord) :
    (Frame.start prog).inStep ∧ (Frame.start prog).localsOk cfg ∧ (Frame.start prog).doneOk cfg :=
  ⟨.inl ⟨rfl, rfl⟩, Frame.localsOk_atCommand cfg (Frame.start prog) 0, Frame.doneOk_atCommand cfg (Frame.start prog) 0⟩

/-- A controller at reset is in order (R43). -/
theorem Pic.reset_ok (c : Ctrl) : Pic.ok c Pic.reset := ⟨rfl, nofun⟩

/-- Settles O46. -/
theorem launchMeetsInv : Obligations.LaunchMeetsInv := by
  unfold Obligations.LaunchMeetsInv
  intro cfg prog
  obtain ⟨hstep, hlocals, hdone⟩ := Frame.start_inOrder cfg prog
  have hframes : (State.launch cfg prog).frames = [Frame.start prog] := rfl
  have hcursor : (State.launch cfg prog).cursorOk :=
    ⟨(by decide : 0 < ROWS), .inl (by decide : 0 < COLS), by
      rw [State.localsOk, hframes]
      exact List.forall_mem_singleton.mpr hlocals, by
      rw [hframes]
      exact List.forall_mem_singleton.mpr hdone⟩
  have hpics : (State.launch cfg prog).picsOk :=
    ⟨Pic.reset_ok .M, Pic.reset_ok .S, (by decide : (0 : Byte).getLsbD 2 = false), nofun, nofun, fun _ => ⟨rfl, rfl⟩⟩
  exact ⟨⟨hstep, nofun⟩, hcursor, fun _ => Nat.zero_le 1, Nat.zero_le _, hpics, ⟨rfl, nofun⟩, List.Pairwise.nil, nofun⟩

/-! ### Stops -/

/-- A fault some command or agent produces (R119). -/
def Fault.produced : Fault → Bool
  | .picProtocol _ _ => false
  | .unwrittenDescriptor _ => false
  | _ => true

/-- A refusal some command or agent produces, or a bad configuration (R119). -/
def Refusal.produced : Refusal → Bool
  | .picModeUnmodelled => false
  | .portUnmodelled _ => false
  | _ => true

/-- The stops recorded are ones that some command or agent produces. -/
structure StopsProduced (s : State) : Prop where
  fault : ∀ f, s.fault = some f → f.produced = true
  refused : ∀ r, s.refused = some r → r.produced = true

theorem StopsProduced.of_running {s : State} (h : s.stopped = false) : StopsProduced s := by
  obtain ⟨hf, hr⟩ := (State.stopped_false_iff s).mp h
  exact ⟨by simp [hf], by simp [hr]⟩

theorem StopsProduced.of_eq {s t : State} (h : StopsProduced s) (hf : t.fault = s.fault) (hr : t.refused = s.refused) :
    StopsProduced t := ⟨hf ▸ h.fault, hr ▸ h.refused⟩

theorem StopsProduced.of_fault {s t : State} {f : Fault} (h : StopsProduced s) (hf : t.fault = some f)
    (hproduced : f.produced = true) (hr : t.refused = s.refused) : StopsProduced t :=
  ⟨fun _ h' => Option.some.inj (hf.symm.trans h') ▸ hproduced, hr ▸ h.refused⟩

theorem StopsProduced.refuse {s : State} {r : Refusal} (h : StopsProduced s) (hproduced : r.produced = true) :
    StopsProduced (s.refuse r) :=
  ⟨h.fault, fun _ h' => Option.some.inj h' ▸ hproduced⟩

/-- With the table in order a delivery reads a descriptor that has been written (R31, R35, R43). -/
theorem State.tableOk.memRead {s : State} {r : TableReg} (h : s.tableOk) (hr : s.idtr = some r) (v : Byte) :
    s.memRead (r.base.toNat + DESC_BYTES * v.toNat) DESC_BYTES ≠ none := by
  obtain ⟨hreg, hentries⟩ := h
  rw [hr] at hreg
  split at hreg
  · next hb =>
    obtain rfl := Option.some.inj hreg
    intro hnone
    have hdesc : s.descAt v = none := by
      rw [State.descAt, descAddr, show s.cfg.idtBase = (idtRegister s.cfg).base from rfl, hnone]
      rfl
    rcases hentries hb v with h | ⟨hh, ty, h⟩ <;> simp [hdesc] at h
  · exact absurd hreg nofun

theorem StopsProduced.deliver {s : State} (h : StopsProduced s) (htable : s.tableOk) (v : Byte) :
    StopsProduced (s.deliver v) := by
  rcases deliver_cases v s with ⟨f, hf, hprotocol, hunwritten, hvector⟩ | ⟨hh, p, b, -, -, -, hp⟩
  · rw [hf]
    refine h.of_fault rfl ?_ rfl
    cases f with
    | picProtocol c b => exact absurd rfl (hprotocol c b)
    | unwrittenDescriptor u =>
      obtain ⟨r, hr, -, hread⟩ := hunwritten (by rw [hvector u rfl])
      exact absurd hread (htable.memRead hr v)
    | _ => rfl
  · rw [hp]
    exact h.of_eq rfl rfl

theorem StopsProduced.consoleOnly {k : Kind} {s t : State} (h : StopsProduced s) (hc : ConsoleOnly k s t) :
    StopsProduced t := by
  rcases hc.fault with hf | hf | ⟨k', hf⟩ | ⟨r, c, hf⟩
  · exact h.of_eq hf hc.refused
  · exact h.of_fault hf rfl hc.refused
  · exact h.of_fault hf rfl hc.refused
  · exact h.of_fault hf rfl hc.refused

theorem StopsProduced.eoi {s t : State} (h : StopsProduced s)
    (ht : (t.fault = s.fault ∨ t.fault = some (.picUnconfigured .piceoi)) ∧ t.refused = s.refused) :
    StopsProduced t := by
  obtain ⟨hf | hf, hr⟩ := ht
  · exact h.of_eq hf hr
  · exact h.of_fault hf rfl hr

/-- A micro-step of the running context's command, in a state that meets the invariant. -/
theorem StopsProduced.exec {s t : State} {w : CmdWord} {i : Instr} (hrun : s.stopped = false) (hs : s.inStep)
    (hpics : s.picsOk) (htable : s.tableOk) (hp : s.inProgram) (hf : s.top.fetch = some w) (hd : decode w = .ok i)
    (he : exec i s = .next t) : StopsProduced t := by
  have h : StopsProduced s := .of_running hrun
  by_cases hk : i.kind.isConsole = true
  · exact h.consoleOnly (exec_consoleOnly hk he)
  cases i with
  | cinit => exact absurd rfl hk
  | setcolor a => exact absurd rfl hk
  | putchar ch => exact absurd rfl hk
  | idtbuild | idtreg _ _ _ =>
    rcases exec_idt_cases (by simp [Instr.kind]) he with rfl | ⟨v, rfl⟩ | ⟨m, x, b, added, -, rfl⟩
    · exact h.of_fault rfl rfl rfl
    · exact h.of_fault rfl rfl rfl
    · exact h.of_eq rfl rfl
  | picremap mb sb =>
    obtain ⟨-, -, hfault, hrefused, -⟩ := exec_picremap_ordered (.of_picsOk hs hpics hp hf hd) hrun he
    exact h.of_eq hfault hrefused
  | piceoi => exact h.eoi (exec_piceoi_keeps (hpics.idle (State.inOp_of_decode hs hp hf hd nofun)) he).2
  | cli =>
    obtain rfl := Host.Outcome.next.inj he
    exact h.of_eq rfl rfl
  | sti =>
    obtain rfl := Host.Outcome.next.inj he
    exact h.of_eq rfl rfl
  | swint v =>
    obtain rfl := Host.Outcome.next.inj he
    have hpast : StopsProduced (s.logEvent (.int v)).commandDone := h.of_eq rfl rfl
    exact hpast.deliver htable v

theorem StopsProduced.runTop {s t : State} (hrun : s.stopped = false) (hs : s.inStep) (hpics : s.picsOk)
    (htable : s.tableOk) (h : s.runTop = .next t) : StopsProduced t := by
  have hprev : StopsProduced s := .of_running hrun
  rcases runTop_cases h with ⟨-, -, rfl⟩ | ⟨w, e, -, -, -, rfl⟩ | ⟨w, i, hp, hf, hd, he⟩ | ⟨k, rest, -, -, -, rfl⟩ |
    ⟨k, rest, hi, heoi, rfl⟩ | ⟨k, rest, hi, -, rfl⟩
  · exact hprev
  · exact hprev.refuse rfl
  · exact .exec hrun hs hpics htable hp hf hd he
  · obtain ⟨-, -, hfault, hrefused⟩ := setPhase_keeps .eoi s
    exact hprev.of_eq hfault hrefused
  · exact hprev.eoi (trampolineEoi_keeps (hpics.idle (State.inOp_of_eoi hs hi heoi))).2
  · rw [interruptReturn_cons s k rest hi]
    exact hprev.of_eq rfl rfl

theorem StopsProduced.hardwareDelivery {s : State} (h : StopsProduced s) (htable : s.tableOk) :
    StopsProduced s.hardwareDelivery := by
  rcases hardwareDelivery_cases s with hd | hd | hd | ⟨c, n, -, -, -, hd⟩ <;> rw [hd]
  · exact h
  · exact h.of_fault rfl rfl rfl
  · exact h.of_fault rfl rfl rfl
  · have hack : StopsProduced (s.acknowledge c n) := by cases c <;> exact h.of_eq rfl rfl
    exact hack.deliver (by cases c <;> exact htable) _

/-- A step from a state that meets the invariant records only such stops. -/
theorem stopsProduced_of_step {s t : State} (hs : s.inStep) (hpics : s.picsOk) (htable : s.tableOk)
    (hstep : step s = .next t) : StopsProduced t := by
  have hrun := stopped_of_step_eq_next hstep
  have hprev : StopsProduced s := .of_running hrun
  obtain ⟨-, -, ⟨-, rfl⟩ | ⟨-, hmove⟩⟩ := step_cases hstep
  · exact hprev.refuse rfl
  have hpop : StopsProduced s.popChoice := hprev.of_eq rfl rfl
  rcases move_cases hmove with ⟨-, h⟩ | ⟨-, rfl⟩ | ⟨k, n, -, rfl⟩
  · exact .runTop (s := s.popChoice) hrun hs hpics htable h
  · exact hpop.hardwareDelivery htable
  · rw [raiseIrq_eq]
    exact hpop.of_eq rfl rfl

/-! ### Runs -/

theorem inv_of_step {s t : State} (h : s.Inv) (hstep : step s = .next t) : t.Inv := by
  obtain ⟨hs, hcursor, hrace, hnest, hpics, htable, hwf⟩ := h
  have hlocals : s.localsOk := hcursor.2.2.1
  exact ⟨inStepKept s t hs hstep, cursorKept s t hs hcursor hstep, noRaceKept s t hs hrace hstep,
    nestingKept s t hnest hstep, controllersKept s t hs hpics hstep, tableKept s t hlocals htable hstep,
    memoryFormKept s t hlocals hwf hstep⟩

theorem inv_of_run (n : Nat) {s t : State} (h : s.Inv) (hstops : StopsProduced s)
    (hrun : Sys2Proof.core.run n s = .next t) : t.Inv ∧ StopsProduced t := by
  induction n generalizing s with
  | zero =>
    obtain rfl := Host.Outcome.next.inj hrun
    exact ⟨h, hstops⟩
  | succ n ih =>
    cases hstep : step s with
    | next u =>
      rw [run_succ_of_next n hstep] at hrun
      obtain ⟨hs, -, -, -, hpics, htable, -⟩ := id h
      exact ih (inv_of_step h hstep) (stopsProduced_of_step hs hpics htable hstep) hrun
    | fault f =>
      have hcore : Sys2Proof.core.step s = .fault f := hstep
      simp [Host.Core.run, hcore] at hrun
    | refused r =>
      have hcore : Sys2Proof.core.step s = .refused r := hstep
      simp [Host.Core.run, hcore] at hrun

/-- Settles O54, by induction on the steps of the run. -/
theorem reachableStatesInOrder : Obligations.ReachableStatesInOrder := by
  unfold Obligations.ReachableStatesInOrder
  intro cfg prog sched n t hrun
  have hlaunch : ({ State.launch cfg prog with sched := sched } : State).Inv := launchMeetsInv cfg prog
  obtain ⟨hinv, hfault, hrefused⟩ := inv_of_run n hlaunch (.of_running rfl) hrun
  exact ⟨hinv, fun c b h => absurd (hfault _ h) nofun, fun v h => absurd (hfault _ h) nofun,
    fun h => absurd (hrefused _ h) nofun, fun p h => absurd (hrefused _ h) nofun⟩

end Sys2Proof.Machine
end

section
/-!
PROOFS. 42_idt.md R100: no command but SWINT depends on what linear memory or the table register hold, and none copies a
byte.
-/

namespace Sys2Proof.Machine

/-- The state with other contents of linear memory and of the table register. -/
def State.withTable (m : Memory) (x : Option TableReg) (s : State) : State := { s with mem := m, idtr := x }

/-- From the memories `n` and `n'` to `m` and `m'`: each byte is alike in both, or in both as it was. -/
def Alike (n n' m m' : Memory) : Prop :=
  ∀ a, m'.byteAt a = m.byteAt a ∨ (m'.byteAt a = n'.byteAt a ∧ m.byteAt a = n.byteAt a)

theorem Alike.refl (n n' : Memory) : Alike n n' n n' := fun _ => .inr ⟨rfl, rfl⟩

/-- A store of the same bytes at the same address in both. -/
theorem Alike.store {n n' m m' : Memory} (h : Alike n n' m m') (a : Nat) (bs : List Byte) :
    Alike n n' (m.store a bs) (m'.store a bs) := by
  intro b
  by_cases hin : a ≤ b ∧ b < a + bs.length
  · exact .inl (by rw [byteAt_store_inside _ hin.1 hin.2, byteAt_store_inside _ hin.1 hin.2])
  · have hout : b < a ∨ a + bs.length ≤ b := by omega
    rw [byteAt_store_outside _ hout, byteAt_store_outside _ hout]
    exact h b

/-- Where `s` goes to `t`, the state with memory `m` and register `x` goes to `u`: to the same but for both, with the
register as it was in both runs, and each byte of memory either alike in both or as it was in both. -/
def Twin (m : Memory) (x : Option TableReg) (s t u : State) : Prop :=
  t.idtr = s.idtr ∧ ∃ m', u = t.withTable m' x ∧ Alike s.mem m t.mem m'

/-- The same for a micro-step of a command. -/
def TwinExec (i : Instr) (m : Memory) (x : Option TableReg) (s : State) : Prop :=
  ∃ t u, exec i s = .next t ∧ exec i (s.withTable m x) = .next u ∧ Twin m x s t u

section

variable {m : Memory} {x : Option TableReg} {s t u : State}

/-- A move that writes no byte. -/
theorem Twin.of_keeps (hm : t.mem = s.mem) (hi : t.idtr = s.idtr) (hu : u = t.withTable m x) : Twin m x s t u :=
  ⟨hi, m, hu, hm ▸ Alike.refl _ _⟩

theorem Twin.of_store {a : Nat} {bs : List Byte} (hm : t.mem = s.mem.store a bs) (hi : t.idtr = s.idtr)
    (hu : u = t.withTable (m.store a bs) x) : Twin m x s t u :=
  ⟨hi, _, hu, hm ▸ (Alike.refl _ _).store a bs⟩

/-! ### Console commands -/

theorem Twin.startConsole {k : Kind} {f : State → State} (h : Twin m x s (f s) (f (s.withTable m x))) :
    Twin m x s (s.startConsole k f) ((s.withTable m x).startConsole k f) := by
  have hrace : (s.withTable m x).raceFault k = s.raceFault k := rfl
  simp only [State.startConsole, hrace]
  cases s.raceFault k with
  | none => exact h
  | some e => exact .of_keeps rfl rfl rfl

theorem Twin.startReady {k : Kind} {f : State → State} (h : Twin m x s (f s) (f (s.withTable m x))) :
    Twin m x s (s.startReady k f) ((s.withTable m x).startReady k f) := by
  refine Twin.startConsole ?_
  have hready : (s.withTable m x).con = s.con := rfl
  simp only [hready]
  split
  · exact h
  · exact .of_keeps rfl rfl rfl

theorem twin_initCell (i : Nat) : Twin m x s (s.initCell i) ((s.withTable m x).initCell i) := by
  unfold State.initCell
  split_ifs
  · exact .of_store rfl rfl rfl
  · exact .of_store rfl rfl rfl
  · exact .of_keeps rfl rfl rfl

theorem twin_cinit : TwinExec .cinit m x s := by
  refine ⟨_, _, rfl, rfl, ?_⟩
  have hcfg : (s.withTable m x).cfg = s.cfg := rfl
  have htop : (s.withTable m x).top = s.top := rfl
  have hpick : (s.withTable m x).pick = s.pick := rfl
  rw [hcfg]
  cases s.cfg.raceModel with
  | fault =>
    simp only [State.cinitMicro, htop]
    split
    · exact .startConsole (.of_keeps rfl rfl rfl)
    · exact twin_initCell _
  | interleave =>
    simp only [State.cinitInterleaved, htop, hpick]
    split
    · split
      · next mi _ => cases mi <;> exact .of_keeps rfl rfl rfl
      · exact .of_keeps rfl rfl rfl
    · exact twin_initCell _

theorem twin_cursorRead (mi : Micro) : Twin m x s (s.cursorRead mi) ((s.withTable m x).cursorRead mi) := by
  have hcon : (s.withTable m x).con = s.con := rfl
  simp only [State.cursorRead, hcon]
  split <;> exact .of_keeps rfl rfl rfl

theorem cursorStore_withTable (mi : Micro) :
    (s.withTable m x).cursorStore mi = (s.cursorStore mi).withTable m x := by
  have htop : (s.withTable m x).top = s.top := rfl
  have hcfg : (s.withTable m x).cfg = s.cfg := rfl
  cases mi <;> simp only [State.cursorStore, htop, hcfg] <;> (repeat' split) <;> rfl

theorem cursorStore_mem (mi : Micro) : (s.cursorStore mi).mem = s.mem := by
  cases mi <;> unfold State.cursorStore <;> dsimp only <;> (repeat' split) <;> rfl

theorem twin_putchar (ch : Byte) : TwinExec (.putchar ch) m x s := by
  refine ⟨_, _, rfl, rfl, ?_⟩
  have hcfg : (s.withTable m x).cfg = s.cfg := rfl
  have htop : (s.withTable m x).top = s.top := rfl
  have hpick : (s.withTable m x).pick = s.pick := rfl
  rw [hcfg]
  cases s.cfg.raceModel with
  | fault =>
    simp only [State.putcharMicro, htop]
    split
    · exact .startReady (.of_keeps rfl rfl rfl)
    · exact .of_store rfl rfl rfl
    · exact .of_keeps rfl rfl rfl
  | interleave =>
    simp only [State.putcharInterleaved, htop, hpick]
    split
    · split
      · exact twin_cursorRead _
      · exact .of_keeps rfl rfl rfl
    · split
      · simp only [State.checkedGlyph, htop]
        split
        · exact .of_keeps rfl rfl rfl
        · exact .of_store rfl rfl rfl
      · simp only [State.cursorStoreMicro, htop, hpick, hcfg]
        split
        · next mi _ =>
          obtain ⟨hi, -⟩ := cursorStore_others mi s
          rw [cursorStore_withTable]
          split <;> exact .of_keeps (cursorStore_mem mi) hi rfl
        · exact .of_keeps rfl rfl rfl

/-! ### The other commands -/

theorem portWrite_withTable (p : Half) (b : Byte) :
    (s.withTable m x).portWrite p b = (s.portWrite p b).withTable m x := by
  have drive : ∀ c react, ((s.withTable m x).logPort p b).drivePic c react =
      ((s.logPort p b).drivePic c react).withTable m x := by
    intro c react
    have hpic : ((s.withTable m x).logPort p b).pic c = (s.logPort p b).pic c := by cases c <;> rfl
    simp only [State.drivePic, hpic]
    rcases (react ((s.logPort p b).pic c)).2 with _ | _ | _ <;> cases c <;> rfl
  simp only [State.portWrite, State.devicePort]
  split_ifs
  · exact drive _ _
  · exact drive _ _
  · exact drive _ _
  · exact drive _ _
  · rfl

/-- A port write and what goes on after it. -/
theorem twin_portWrite (p : Half) (b : Byte) (f : State → State)
    (hf : ∀ u : State, (f u).mem = u.mem ∧ (f u).idtr = u.idtr ∧ f (u.withTable m x) = (f u).withTable m x) :
    Twin m x s ((s.portWrite p b).andThen f) (((s.withTable m x).portWrite p b).andThen f) := by
  obtain ⟨hm, hi, htwin⟩ := hf (s.portWrite p b)
  have hstopped : ((s.portWrite p b).withTable m x).stopped = (s.portWrite p b).stopped := rfl
  rw [portWrite_withTable, State.andThen, State.andThen, hstopped]
  split_ifs
  · exact .of_keeps (State.portWrite_mem p b s) (State.portWrite_idtr p b s) rfl
  · exact .of_keeps (by rw [hm, State.portWrite_mem]) (by rw [hi, State.portWrite_idtr]) htwin

theorem twin_picremap (mb sb : Byte) : TwinExec (.picremap mb sb) m x s := by
  refine ⟨_, _, rfl, rfl, ?_⟩
  have hcfg : (s.withTable m x).cfg = s.cfg := rfl
  have htop : (s.withTable m x).top = s.top := rfl
  rw [hcfg, htop]
  split
  · exact .of_keeps rfl rfl rfl
  · split_ifs
    · exact twin_portWrite _ _ _ fun _ => ⟨rfl, rfl, rfl⟩
    · exact twin_portWrite _ _ _ fun _ => ⟨rfl, rfl, rfl⟩

theorem twin_piceoi : TwinExec .piceoi m x s := by
  refine ⟨_, _, rfl, rfl, ?_⟩
  have hcfg : (s.withTable m x).cfg = s.cfg := rfl
  have htop : (s.withTable m x).top = s.top := rfl
  have hpics : (s.withTable m x).picsConfigured = s.picsConfigured := rfl
  simp only [State.eoiMicro, hcfg, htop, hpics]
  split
  · split_ifs
    · exact .of_keeps rfl rfl rfl
    · exact twin_portWrite _ _ _ fun _ => ⟨rfl, rfl, rfl⟩
  · exact twin_portWrite _ _ _ fun _ => ⟨rfl, rfl, rfl⟩

theorem alike_writeDescriptor (d : Nat) (h : Addr) (ty : Byte) :
    Alike s.mem m (s.writeDescriptor d h ty).mem ((s.withTable m x).writeDescriptor d h ty).mem := by
  have hmem : (s.withTable m x).mem = m := rfl
  simp only [State.writeDescriptor, State.memWrite_mem, hmem]
  exact (((((Alike.refl _ _).store _ _).store _ _).store _ _).store _ _).store _ _

theorem twin_idtreg (v : Byte) (h : Addr) (ty : Byte) : TwinExec (.idtreg v h ty) m x s := by
  cases hb : s.idtBuilt with
  | false =>
    exact ⟨_, _, exec_idtreg_not_built v h ty hb, exec_idtreg_not_built (s := s.withTable m x) v h ty hb,
      .of_keeps rfl rfl rfl⟩
  | true =>
    obtain ⟨n, hn, he⟩ := exec_idtreg_eq v h ty hb
    obtain ⟨n', hn', he'⟩ := exec_idtreg_eq (s := s.withTable m x) v h ty hb
    have hcfg : (s.withTable m x).cfg = s.cfg := rfl
    have halike : Alike s.mem m n n' := by
      rw [hn, hn', hcfg]
      exact alike_writeDescriptor _ h ty
    exact ⟨_, _, he, he', rfl, n', rfl, halike⟩

/-- IDTBUILD that runs leaves the same register and the same table in both (R97). -/
theorem twin_idtbuild (hif : s.IF = false) : ∃ t m', exec .idtbuild s = .next t ∧
    exec .idtbuild (s.withTable m x) = .next (t.withTable m' t.idtr) ∧ Alike s.mem m t.mem m' :=
  ⟨_, _, exec_idtbuild hif, exec_idtbuild (s := s.withTable m x) hif, (Alike.refl _ _).store _ _⟩

theorem twin_exec {i : Instr} (hv : i.kind ≠ .swint) (hb : ¬ (i = .idtbuild ∧ s.IF = false)) : TwinExec i m x s := by
  cases i with
  | cinit => exact twin_cinit
  | setcolor a => exact ⟨_, _, rfl, rfl, .startReady (.of_keeps rfl rfl rfl)⟩
  | putchar ch => exact twin_putchar ch
  | idtbuild =>
    have hif : s.IF = true := by simpa using hb
    exact ⟨_, _, exec_idtbuild_interruptible hif, exec_idtbuild_interruptible (s := s.withTable m x) hif,
      .of_keeps rfl rfl rfl⟩
  | idtreg v h ty => exact twin_idtreg v h ty
  | picremap mb sb => exact twin_picremap mb sb
  | piceoi => exact twin_piceoi
  | cli => exact ⟨_, _, rfl, rfl, .of_keeps rfl rfl rfl⟩
  | sti => exact ⟨_, _, rfl, rfl, .of_keeps rfl rfl rfl⟩
  | swint v => exact absurd rfl hv

end

/-- Settles O60: command by command, the two runs branch alike and store the same bytes at the same addresses. -/
theorem commandsDoNotReadTable : Obligations.CommandsDoNotReadTable := by
  unfold Obligations.CommandsDoNotReadTable
  intro i s m x hv
  by_cases hb : i = .idtbuild ∧ s.IF = false
  · obtain ⟨rfl, hif⟩ := hb
    obtain ⟨t, m', he, he', halike⟩ := twin_idtbuild (m := m) (x := x) hif
    exact ⟨t, m', t.idtr, he, he', halike, by rw [if_pos ⟨rfl, hif⟩]⟩
  · obtain ⟨t, u, he, he', hidtr, m', rfl, halike⟩ := twin_exec (m := m) (x := x) hv hb
    exact ⟨t, m', x, he, he', halike, by rw [if_neg hb]; exact ⟨rfl, hidtr⟩⟩

end Sys2Proof.Machine
end

section
/-!
PROOFS. 43_pic.md: the writes of PICREMAP and PICEOI one by one and together (R102, R103, R107, R108, R111).
-/

namespace Sys2Proof.Machine

/-- From `s` to `t` the running context has moved on to the flow `f`; beside its flow only the controllers and the port
trace may have changed. -/
structure PicMove (f : Frame) (s t : State) : Prop where
  contexts : contextsWithTop f s t
  mem : t.mem = s.mem
  con : keepsConsole s t
  table : keepsTable s t
  flag : keepsIF s t
  ptrace : keepsPtrace s t
  stops : keepsStops s t
  inputs : keepsInputs s t

theorem PicMove.refl (s : State) : PicMove s.top s s :=
  ⟨(withTopFlow_self rfl rfl rfl rfl).1, rfl, rfl, ⟨rfl, rfl⟩, rfl, rfl, ⟨rfl, rfl⟩, ⟨rfl, rfl⟩⟩

theorem PicMove.trans {f g : Frame} {s u t : State} (h : PicMove f s u) (h' : PicMove g u t) : PicMove g s t where
  contexts := contextsWithTop_trans h.contexts h'.contexts
  mem := h'.mem.trans h.mem
  con := Eq.trans h'.con h.con
  table := ⟨h'.table.1.trans h.table.1, h'.table.2.trans h.table.2⟩
  flag := Eq.trans h'.flag h.flag
  ptrace := Eq.trans h'.ptrace h.ptrace
  stops := ⟨h'.stops.1.trans h.stops.1, h'.stops.2.trans h.stops.2⟩
  inputs := ⟨h'.inputs.1.trans h.inputs.1, h'.inputs.2.trans h.inputs.2⟩

/-- The order a micro-step picks does not matter to what it leaves. -/
theorem PicMove.of_pick {f : Frame} {s t : State} {k : Nat} (h : PicMove f { s with pick := k } t) : PicMove f s t :=
  ⟨h.contexts, h.mem, h.con, h.table, h.flag, h.ptrace, h.stops, h.inputs⟩

theorem PicMove.top {f : Frame} {s t : State} (h : PicMove f s t) : t.top = f := contextsWithTop_top h.contexts

theorem PicMove.cfg {f : Frame} {s t : State} (h : PicMove f s t) : t.cfg = s.cfg := h.inputs.1

theorem PicMove.keepsMemory {f : Frame} {s t : State} (h : PicMove f s t) : keepsMemory s t :=
  fun _ => by rw [h.mem]

theorem PicMove.stopped {f : Frame} {s t : State} (h : PicMove f s t) : t.stopped = s.stopped := by
  rw [State.stopped, h.stops.1, h.stops.2, State.stopped]

/-- A port write's trace entry and a controller's registers, then the top flow replaced. -/
def State.picWrite (c : Ctrl) (w : Half × Byte) (p : Pic) (f : Frame) (s : State) : State :=
  ((s.logPort w.1 w.2).setPic c p).setTop f

theorem PicMove.of_picWrite (c : Ctrl) (w : Half × Byte) (p : Pic) (f : Frame) (s : State) :
    PicMove f s (s.picWrite c w p f) := by
  cases c <;> exact ⟨contextsWithTop_of_setTop f rfl rfl, rfl, rfl, ⟨rfl, rfl⟩, rfl, rfl, ⟨rfl, rfl⟩, ⟨rfl, rfl⟩⟩

theorem State.picWrite_trace (c : Ctrl) (w : Half × Byte) (p : Pic) (f : Frame) (s : State) :
    (s.picWrite c w p f).trace = s.trace ++ [w] := by
  cases c <;> rfl

theorem State.picWrite_pic (c : Ctrl) (w : Half × Byte) (p : Pic) (f : Frame) (s : State) :
    (s.picWrite c w p f).pic c = p := by
  cases c <;> rfl

theorem State.picWrite_pic_other {c c' : Ctrl} (h : c' ≠ c) (w : Half × Byte) (p : Pic) (f : Frame) (s : State) :
    (s.picWrite c w p f).pic c' = s.pic c' := by
  rw [State.picWrite, State.setTop_pic, State.setPic_pic_other h, State.logPort_pic]

/-! ### PICREMAP -/

/-- PICREMAP's micro-step at place `n` of controller `c`'s sequence (R107, R108). -/
theorem exec_picremap_write {s : State} {mb sb base : Byte} {c : Ctrl} {n : Nat} (hs : s.stopped = false)
    (hw : (remapSequence s.cfg mb sb)[s.top.mu]? = some (remapWrite c base n)) (hn : n < 5)
    (hat : n ≠ 0 → Pic.atInit c n (s.pic c)) :
    exec (.picremap mb sb) s = .next (s.picWrite c (remapWrite c base n) (remapReaction c base n (s.pic c))
        (if s.top.mu + 1 < remapWrites s.cfg then s.top.microDone .picremap else s.top.commandDone)) ∧
      Pic.atInit c (n + 1) (remapReaction c base n (s.pic c)) := by
  obtain ⟨hwrite, hnext⟩ := portWrite_place c base n hn s hat
  have hrun : (s.portWrite (remapWrite c base n).1 (remapWrite c base n).2).stopped = false := by
    rw [hwrite]
    cases c <;> exact hs
  rw [exec_picremap_of_write hw hrun, hwrite]
  exact ⟨rfl, hnext⟩

/-- Settles O28. -/
theorem picremapMicroSteps : Obligations.PicremapMicroSteps := by
  unfold Obligations.PicremapMicroSteps
  intro s mb sb c n hs hmu hplace hat
  obtain ⟨hw, hn⟩ := remapSequence_place s.cfg mb sb s.top.mu n c hmu hplace
  obtain ⟨he, hnext⟩ := exec_picremap_write hs hw hn hat
  have hmove := PicMove.of_picWrite c (remapWrite c (if c = .M then mb else sb) n)
    (remapReaction c (if c = .M then mb else sb) n (s.pic c))
    (if s.top.mu + 1 < remapWrites s.cfg then s.top.microDone .picremap else s.top.commandDone) s
  refine ⟨_, he, State.picWrite_trace .., State.picWrite_pic .., fun c' hc => State.picWrite_pic_other hc .., ?_, ?_,
    hmove.keepsMemory, hmove.con, hmove.table, hmove.flag, hmove.ptrace, hmove.stops, hmove.inputs⟩
  · rw [State.picWrite_pic]
    exact hnext
  · have hflow : (if s.top.mu + 1 = remapWrites s.cfg then s.top.commandDone else s.top.microDone .picremap) =
        if s.top.mu + 1 < remapWrites s.cfg then s.top.microDone .picremap else s.top.commandDone := by
      split_ifs <;> first | rfl | omega
    rw [hflow]
    exact hmove.contexts

/-- A controller's registers after the first `n` writes of its sequence (R102, R103, R107). -/
def picAfter (c : Ctrl) (base : Byte) : Nat → Pic → Pic
  | 0, p => p
  | n + 1, p => remapReaction c base n (picAfter c base n p)

theorem atInit_picAfter (c : Ctrl) (base : Byte) {n : Nat} (hn : n < 5) (h0 : n ≠ 0) (p : Pic) :
    Pic.atInit c n (picAfter c base n p) := by
  interval_cases n
  · exact absurd rfl h0
  · exact ⟨rfl, rfl⟩
  · exact ⟨rfl, rfl⟩
  · exact ⟨rfl, rfl, by cases c <;> rfl⟩
  · rfl

/-- After the whole sequence no register depends on what the controller held before (R103). -/
theorem picAfter_all (cfg : Config) (c : Ctrl) (base : Byte) (p : Pic) :
    picAfter c base (if cfg.explicitUnmask then 5 else 4) p =
      ⟨true, .idle, 0x11, base &&& 0xF8, icw3Byte c, 0x01, 0, 0, 0⟩ := by
  cases c <;> split <;> rfl

/-- How many of PICREMAP's writes are a controller's (R107). -/
theorem remapDone_remapWrites (cfg : Config) (c : Ctrl) (mb sb : Byte) :
    remapDone cfg c mb sb (remapWrites cfg) = if cfg.explicitUnmask then 5 else 4 := by
  have hcount : remapDone cfg c mb sb (remapWrites cfg) = ((remapSequence cfg mb sb).filter (onPortsOf c)).length := by
    rw [remapDone, ← remapWrites_length cfg mb sb, List.take_length, List.countP_eq_length_filter]
    rfl
  rw [hcount, filter_remapSequence, initSequence_eq_map, List.length_map, List.length_range]

/-- The vector base PICREMAP gives a controller (R107). -/
def remapBase (mb sb : Byte) : Ctrl → Byte
  | .M => mb
  | .S => sb

/-- Each of PICREMAP's writes is the next one of one controller's sequence (R107). -/
theorem remapSequence_next (cfg : Config) (mb sb : Byte) {n : Nat} (hn : n < remapWrites cfg) :
    ∃ c, (remapSequence cfg mb sb)[n]? = some (remapWrite c (remapBase mb sb c) (remapDone cfg c mb sb n)) ∧
      remapDone cfg c mb sb n < 5 ∧ remapDone cfg c mb sb (n + 1) = remapDone cfg c mb sb n + 1 ∧
      ∀ c', c' ≠ c → remapDone cfg c' mb sb (n + 1) = remapDone cfg c' mb sb n := by
  have hw := List.getElem?_eq_getElem (show n < (remapSequence cfg mb sb).length by rwa [remapWrites_length])
  obtain ⟨c, hplace, hsucc, hother⟩ := remapSequence_step cfg mb sb n _ hw
  obtain ⟨hwrite, hj⟩ := initSequence_getElem? hplace
  rw [hwrite] at hw
  exact ⟨c, hw.trans (by cases c <;> rfl), hj, hsucc, hother⟩

/-- `u` is `s` after `n` writes of a PICREMAP that no other agent's move interrupts. -/
structure RemapRun (mb sb : Byte) (s : State) (n : Nat) (u : State) : Prop where
  move : PicMove (remapFlow s.cfg s.top n) s u
  trace : u.trace = s.trace ++ (remapSequence s.cfg mb sb).take n
  pic : ∀ c, u.pic c = picAfter c (remapBase mb sb c) (remapDone s.cfg c mb sb n) (s.pic c)

/-- The next write (R108). -/
theorem RemapRun.write {mb sb : Byte} {s u : State} {n : Nat} (h : RemapRun mb sb s n u) (hs : s.stopped = false)
    (hmu : s.top.mu = 0) (hn : n < remapWrites s.cfg) (k : Nat) :
    ∃ t, exec (.picremap mb sb) { u with pick := k } = .next t ∧ RemapRun mb sb s (n + 1) t := by
  obtain ⟨c, hw, hj, hsucc, hother⟩ := remapSequence_next s.cfg mb sb hn
  have htop : u.top = remapFlow s.cfg s.top n := h.move.top
  have hmuu : u.top.mu = n := htop ▸ remapFlow_mu hmu hn
  have hpic : ({ u with pick := k } : State).pic c = u.pic c := by cases c <;> rfl
  have hat : remapDone s.cfg c mb sb n ≠ 0 → Pic.atInit c (remapDone s.cfg c mb sb n) (u.pic c) := fun h0 => by
    rw [h.pic c]
    exact atInit_picAfter c _ hj h0 _
  have hflow : (if u.top.mu + 1 < remapWrites u.cfg then u.top.microDone .picremap else u.top.commandDone) =
      remapFlow s.cfg s.top (n + 1) := by rw [remapFlow_succ hmu hn, hmuu, h.move.cfg, htop]
  have hnext : u.trace ++ [remapWrite c (remapBase mb sb c) (remapDone s.cfg c mb sb n)] =
      s.trace ++ (remapSequence s.cfg mb sb).take (n + 1) := by
    rw [h.trace, List.take_add_one, hw, List.append_assoc]
    rfl
  have hwu : (remapSequence u.cfg mb sb)[u.top.mu]? =
      some (remapWrite c (remapBase mb sb c) (remapDone s.cfg c mb sb n)) := by
    rw [hmuu, h.move.cfg, hw]
  obtain ⟨he, -⟩ := exec_picremap_write (s := { u with pick := k }) (h.move.stopped.trans hs) hwu hj (hpic ▸ hat)
  refine ⟨_, he.trans (congrArg _ (congrArg (fun f => State.picWrite _ _ _ f _) hflow)), ?_, ?_, fun c' => ?_⟩
  · exact h.move.trans (PicMove.of_picWrite ..).of_pick
  · exact (State.picWrite_trace ..).trans hnext
  · by_cases hc : c' = c
    · subst hc
      rw [State.picWrite_pic, hsucc, hpic, h.pic]
      rfl
    · rw [State.picWrite_pic_other hc, hother c' hc]
      exact (by cases c' <;> rfl : ({ u with pick := k } : State).pic c' = u.pic c').trans (h.pic c')

/-- The writes that are left, up to the last (R108). -/
theorem RemapRun.all {mb sb : Byte} {s : State} (hs : s.stopped = false) (hmu : s.top.mu = 0) (picks : List Nat) :
    ∀ {n : Nat} {u : State}, RemapRun mb sb s n u → n + picks.length = remapWrites s.cfg →
      ∃ t, execMicros (.picremap mb sb) picks u = .next t ∧ RemapRun mb sb s (remapWrites s.cfg) t := by
  induction picks with
  | nil => exact fun {n u} h hlen => ⟨u, rfl, (show n = remapWrites s.cfg from hlen) ▸ h⟩
  | cons k picks ih =>
    intro n u h hlen
    rw [List.length_cons] at hlen
    obtain ⟨t, he, hnext⟩ := h.write hs hmu (by omega) k
    rw [execMicros_cons picks (h.move.stopped.trans hs) he]
    exact ih hnext (by omega)

/-- PICREMAP's writes, spelled out (R107). -/
theorem remapSequence_eq (cfg : Config) (mb sb : Byte) : remapSequence cfg mb sb = match cfg.remapOrder with
    | .controllerMajor =>
      [(0x20, 0x11), (0x21, mb), (0x21, 0x04), (0x21, 0x01)] ++ (if cfg.explicitUnmask then [(0x21, 0x00)] else []) ++
        [(0xA0, 0x11), (0xA1, sb), (0xA1, 0x02), (0xA1, 0x01)] ++ (if cfg.explicitUnmask then [(0xA1, 0x00)] else [])
    | .stepMajor =>
      [(0x20, 0x11), (0xA0, 0x11), (0x21, mb), (0xA1, sb), (0x21, 0x04), (0xA1, 0x02), (0x21, 0x01), (0xA1, 0x01)] ++
        (if cfg.explicitUnmask then [(0x21, 0x00), (0xA1, 0x00)] else []) := by
  unfold remapSequence initSequence
  cases cfg.remapOrder <;> cases cfg.explicitUnmask <;> rfl

/-- Settles O29: the run of all of PICREMAP's writes, whose controllers then hold what their own sequences leave. -/
theorem picremapWhole : Obligations.PicremapWhole := by
  unfold Obligations.PicremapWhole
  intro s mb sb picks hs hlen hmu
  rw [microCount, remapWrites_length] at hlen
  have hbegin : RemapRun mb sb s 0 s := by
    refine ⟨PicMove.refl s, by simp, fun c => ?_⟩
    have hnone : remapDone s.cfg c mb sb 0 = 0 := by simp [remapDone]
    rw [hnone]
    rfl
  obtain ⟨t, he, hall⟩ := RemapRun.all hs hmu picks hbegin (by omega)
  have hpics : ∀ c, t.pic c = ⟨true, .idle, 0x11, remapBase mb sb c &&& 0xF8, icw3Byte c, 0x01, 0, 0, 0⟩ := fun c => by
    rw [hall.pic, remapDone_remapWrites, picAfter_all]
  have hM : t.picM = ⟨true, .idle, 0x11, mb &&& 0xF8, 0x04, 0x01, 0, 0, 0⟩ := hpics .M
  have hS : t.picS = ⟨true, .idle, 0x11, sb &&& 0xF8, 0x02, 0x01, 0, 0, 0⟩ := hpics .S
  have hmove := hall.move
  rw [remapFlow_all] at hmove
  refine ⟨t, he, hM, hS, State.timerVector_of_vbase (by rw [hM]; rfl), timerVector_eq mb, timerVector_of_aligned, ?_,
    hlen, hmove.contexts, hmove.keepsMemory, hmove.con, hmove.table, hmove.flag, hmove.ptrace, hmove.stops,
    hmove.inputs⟩
  have hwrites : (remapSequence s.cfg mb sb).take (remapWrites s.cfg) = remapSequence s.cfg mb sb := by
    rw [← remapWrites_length s.cfg mb sb, List.take_length]
  exact hall.trace.trans (congrArg (s.trace ++ ·) (hwrites.trans (remapSequence_eq s.cfg mb sb)))

/-! ### The EOI pair -/

/-- The controller gets its EOI: its lowest in-service bit is cleared (R102, R111). -/
def Pic.ended (p : Pic) : Pic := { p with isr := p.isr &&& (p.isr - 1) }

/-- The EOI write to controller `c`, then the top flow replaced. -/
theorem portWrite_eoi_setTop {s : State} (c : Ctrl) (f : Frame) (h : (s.pic c).phase = .idle) :
    (s.portWrite (commandPort c) eoiByte).setTop f = s.picWrite c (commandPort c, eoiByte) (s.pic c).ended f := by
  rw [portWrite_eoi c s h]
  rfl

theorem portWrite_eoi_stopped {s : State} {c : Ctrl} (h : (s.pic c).phase = .idle) :
    (s.portWrite (commandPort c) eoiByte).stopped = s.stopped := by
  rw [portWrite_eoi c s h]
  cases c <;> rfl

/-- The first micro-step of the EOI pair, whatever comes after the second (R111, R128). -/
theorem eoiMicro_first {s : State} (finish : State → State) (hs : s.stopped = false) (hmu : s.top.mu = 0)
    (hconf : s.picsConfigured = true) (h : (s.pic (eoiFirst s.cfg)).phase = .idle) :
    s.eoiMicro finish = s.picWrite (eoiFirst s.cfg) (commandPort (eoiFirst s.cfg), eoiByte)
      (s.pic (eoiFirst s.cfg)).ended (s.top.microDone .piceoi) := by
  rcases eoiMicro_cases finish s with ⟨-, hno, -⟩ | ⟨-, -, he⟩ | ⟨hne, -⟩
  · simp [hconf] at hno
  · rw [he, State.andThen_of_running _ ((portWrite_eoi_stopped h).trans hs), State.microDone_eq, State.portWrite_top,
      portWrite_eoi_setTop _ _ h]
  · exact absurd hmu hne

/-- The second micro-step of the EOI pair, and what comes after it (R111, R128). -/
theorem eoiMicro_second {s : State} (finish : State → State) (hs : s.stopped = false) (hmu : s.top.mu ≠ 0)
    (h : (s.pic (eoiSecond s.cfg)).phase = .idle) :
    s.eoiMicro finish = finish (s.portWrite (commandPort (eoiSecond s.cfg)) eoiByte) := by
  rcases eoiMicro_cases finish s with ⟨h0, -, -⟩ | ⟨h0, -, -⟩ | ⟨-, he⟩
  · exact absurd h0 hmu
  · exact absurd h0 hmu
  · rw [he, State.andThen_of_running _ ((portWrite_eoi_stopped h).trans hs)]

/-- From `s` to `t` controller `c` has got its EOI and the running context has moved on to the flow `f`. -/
structure EoiWrite (c : Ctrl) (f : Frame) (s t : State) : Prop where
  move : PicMove f s t
  trace : t.trace = s.trace ++ [(commandPort c, eoiByte)]
  pic : t.pic c = (s.pic c).ended
  other : ∀ c', c' ≠ c → t.pic c' = s.pic c'

theorem EoiWrite.of_picWrite (c : Ctrl) (f : Frame) (s : State) :
    EoiWrite c f s (s.picWrite c (commandPort c, eoiByte) (s.pic c).ended f) :=
  ⟨.of_picWrite .., State.picWrite_trace .., State.picWrite_pic .., fun _ hc => State.picWrite_pic_other hc ..⟩

theorem EoiWrite.of_pick {c : Ctrl} {f : Frame} {s t : State} {k : Nat} (h : EoiWrite c f { s with pick := k } t) :
    EoiWrite c f s t :=
  ⟨h.move.of_pick, h.trace, h.pic.trans (by cases c <;> rfl),
    fun c' hc => (h.other c' hc).trans (by cases c' <;> rfl)⟩

/-- The other controller is still idle for its own EOI. -/
theorem EoiWrite.idle {c c' : Ctrl} {f : Frame} {s t : State} (h : EoiWrite c f s t) (hc : c' ≠ c)
    (hidle : (s.pic c').phase = .idle) : (t.pic c').phase = .idle := by
  rw [h.other c' hc, hidle]

theorem exec_piceoi_first {s : State} (hs : s.stopped = false) (hmu : s.top.mu = 0) (hconf : s.picsConfigured = true)
    (h : (s.pic (eoiFirst s.cfg)).phase = .idle) :
    ∃ t, exec .piceoi s = .next t ∧ EoiWrite (eoiFirst s.cfg) (s.top.microDone .piceoi) s t :=
  ⟨_, congrArg Host.Outcome.next (eoiMicro_first _ hs hmu hconf h), .of_picWrite ..⟩

theorem exec_piceoi_second {s : State} (hs : s.stopped = false) (hmu : s.top.mu ≠ 0)
    (h : (s.pic (eoiSecond s.cfg)).phase = .idle) :
    ∃ t, exec .piceoi s = .next t ∧ EoiWrite (eoiSecond s.cfg) s.top.commandDone s t := by
  refine ⟨_, congrArg Host.Outcome.next ((eoiMicro_second _ hs hmu h).trans ?_), .of_picWrite ..⟩
  rw [State.commandDone_eq, State.portWrite_top, portWrite_eoi_setTop _ _ h]

theorem eoiFirst_eq (cfg : Config) : eoiFirst cfg = firstEoi cfg := by
  unfold eoiFirst firstEoi
  cases cfg.eoiOrder <;> rfl

theorem eoiSecond_eq (cfg : Config) : eoiSecond cfg = if firstEoi cfg = .S then .M else .S := by
  unfold eoiSecond firstEoi
  cases cfg.eoiOrder <;> rfl

theorem picsIdle_of {s : State} (hM : s.picM.phase = .idle) (hS : s.picS.phase = .idle) (c : Ctrl) :
    (s.pic c).phase = .idle := by
  cases c
  · exact hM
  · exact hS

theorem picsConfigured_of {s : State} (hM : s.picM.configured = true) (hS : s.picS.configured = true) :
    s.picsConfigured = true := by
  rw [State.picsConfigured, hM, hS]
  rfl

/-- Settles O33. -/
theorem piceoiUnconfigured : Obligations.PiceoiUnconfigured := by
  unfold Obligations.PiceoiUnconfigured
  intro s hmu hconf
  have hno : s.picsConfigured = false := by
    rw [State.picsConfigured]
    rcases hconf with h | h <;> simp [h]
  rcases eoiMicro_cases State.commandDone s with ⟨-, -, he⟩ | ⟨-, hyes, -⟩ | ⟨hne, -⟩
  · exact congrArg Host.Outcome.next he
  · simp [hno] at hyes
  · exact absurd hmu hne

/-- What one EOI write leaves, named by whether the slave gets it (R111). -/
theorem EoiWrite.spelled {c : Ctrl} {f : Frame} {s t : State} (h : EoiWrite c f s t) :
    t.trace = s.trace ++ [(if c = .S then 0xA0 else 0x20, 0x20)] ∧
      (c = .S → t.picM = s.picM ∧ t.picS = s.picS.ended) ∧ (c = .M → t.picS = s.picS ∧ t.picM = s.picM.ended) := by
  obtain ⟨-, htrace, hpic, hother⟩ := h
  cases c with
  | M => exact ⟨htrace, nofun, fun _ => ⟨hother .S nofun, hpic⟩⟩
  | S => exact ⟨htrace, fun _ => ⟨hother .M nofun, hpic⟩, nofun⟩

/-- Settles O31. -/
theorem piceoiMicroSteps : Obligations.PiceoiMicroSteps := by
  unfold Obligations.PiceoiMicroSteps
  intro s hs hidleM hidleS
  have hidle := picsIdle_of hidleM hidleS
  refine ⟨fun hmu hconfM hconfS => ?_, fun hmu => ?_⟩
  · obtain ⟨t, he, h⟩ := exec_piceoi_first hs hmu (picsConfigured_of hconfM hconfS) (hidle _)
    rw [eoiFirst_eq] at h
    obtain ⟨htrace, hS, hM⟩ := h.spelled
    obtain ⟨hcontexts, -, hcon, htable, hflag, hptrace, hstops, hinputs⟩ := h.move
    exact ⟨t, he, htrace, hS, hM, hcontexts, h.move.keepsMemory, hcon, htable, hflag, hptrace, hstops, hinputs⟩
  · obtain ⟨t, he, h⟩ := exec_piceoi_second hs (by omega) (hidle _)
    rw [eoiSecond_eq] at h
    obtain ⟨htrace, hS, hM⟩ := h.spelled
    obtain ⟨hcontexts, -, hcon, htable, hflag, hptrace, hstops, hinputs⟩ := h.move
    refine ⟨t, he, ?_, fun hc => hM (if_pos hc), fun hc => hS (if_neg (by rw [hc]; exact nofun)), hcontexts,
      h.move.keepsMemory, hcon, htable, hflag, hptrace, hstops, hinputs⟩
    rw [htrace]
    cases firstEoi s.cfg <;> rfl

theorem eoiSecond_ne (cfg : Config) : eoiSecond cfg ≠ eoiFirst cfg := by
  unfold eoiFirst eoiSecond
  cases cfg.eoiOrder <;> exact nofun

theorem eq_eoiFirst_or_eoiSecond (cfg : Config) (c : Ctrl) : c = eoiFirst cfg ∨ c = eoiSecond cfg := by
  unfold eoiFirst eoiSecond
  cases cfg.eoiOrder <;> cases c <;> simp

/-- Settles O32: the two micro-steps, the second at the controller the first left as it was. -/
theorem piceoiWhole : Obligations.PiceoiWhole := by
  unfold Obligations.PiceoiWhole
  intro s picks hs hlen hmu hidleM hidleS hconfM hconfS
  obtain ⟨k, k', rfl⟩ := List.length_eq_two.mp hlen
  have hidle := picsIdle_of hidleM hidleS
  obtain ⟨u, heu, hu⟩ := exec_piceoi_first (s := { s with pick := k }) hs hmu (picsConfigured_of hconfM hconfS)
    (picsIdle_of (s := { s with pick := k }) hidleM hidleS _)
  replace hu : EoiWrite (eoiFirst s.cfg) (s.top.microDone .piceoi) s u := hu.of_pick
  have hcfg : u.cfg = s.cfg := hu.move.cfg
  have hrun : u.stopped = false := hu.move.stopped.trans hs
  have htop : u.top = s.top.microDone .piceoi := hu.move.top
  have hpicked : ∀ c, ({ u with pick := k' } : State).pic c = u.pic c := fun c => by cases c <;> rfl
  obtain ⟨t, het, ht⟩ := exec_piceoi_second (s := { u with pick := k' }) hrun
    (by rw [show ({ u with pick := k' } : State).top = u.top from rfl, htop]; exact Nat.succ_ne_zero _)
    (by rw [hpicked, show ({ u with pick := k' } : State).cfg = s.cfg from hcfg]
        exact hu.idle (eoiSecond_ne s.cfg) (hidle _))
  replace ht : EoiWrite (eoiSecond u.cfg) u.top.commandDone u t := ht.of_pick
  rw [hcfg, htop] at ht
  have hpics : ∀ c, t.pic c = (s.pic c).ended := fun c => by
    rcases eq_eoiFirst_or_eoiSecond s.cfg c with rfl | rfl
    · rw [ht.other _ (eoiSecond_ne s.cfg).symm, hu.pic]
    · rw [ht.pic, hu.other _ (eoiSecond_ne s.cfg)]
  have hmove := hu.move.trans ht.move
  refine ⟨t, (execMicros_cons [k'] hs heu).trans (execMicros_cons [] hrun het), hpics .M, hpics .S, ?_, hmove.contexts,
    hmove.keepsMemory, hmove.con, hmove.table, hmove.flag, hmove.ptrace, hmove.stops, hmove.inputs⟩
  rw [ht.trace, hu.trace, List.append_assoc, eoiFirst, eoiSecond]
  cases s.cfg.eoiOrder <;> rfl

end Sys2Proof.Machine
end

section
/-!
PROOFS. 43_pic.md R102 to R104 and 60_exceptions.md R128: the controllers' port protocol, the environment's lines, and
the trampoline's EOI pair.
-/

namespace Sys2Proof.Machine

/-! ### Port writes outside the protocol -/

/-- A port write is a trace entry, the controller's reaction and the stop it records (R15). -/
theorem portWrite_command_of {s : State} {c : Ctrl} {b : Byte} {p : Pic} {st : Option Stop}
    (h : Pic.command c b (s.pic c) = (p, st)) :
    s.portWrite (commandPort c) b = ((s.logPort (commandPort c) b).setPic c p).stopWith st := by
  rw [portWrite_command, State.drivePic, State.logPort_pic, h]

theorem portWrite_data_stop {s : State} {c : Ctrl} {b : Byte} {p : Pic} {st : Option Stop}
    (h : Pic.data c b (s.pic c) = (p, st)) :
    s.portWrite (dataPort c) b = ((s.logPort (dataPort c) b).setPic c p).stopWith st := by
  rw [portWrite_data, State.drivePic, State.logPort_pic, h]

theorem State.setPic_self (c : Ctrl) (s : State) : s.setPic c (s.pic c) = s := by
  cases c <;> rfl

/-- A byte that has bit 4 clear and is not the EOI has no meaning at a command port (R77, R102). -/
theorem command_of_unknown {c : Ctrl} {b : Byte} (p : Pic) (h4 : b.getLsbD 4 = false) (hb : b ≠ 0x20) :
    Pic.command c b p = (p, some (.fault (.picProtocol c b))) := by
  have hne : b ≠ eoiByte := hb
  have hclass : classifyCommand b = .ocw3 ∨ classifyCommand b = .ocw2 := by
    simp only [classifyCommand, h4, Bool.false_eq_true, if_false]
    cases b.getLsbD 3 <;> simp
  rcases hclass with h | h <;> simp only [Pic.command, h]
  split_ifs <;> rfl

/-- An EOI in the middle of a sequence has no meaning either (R102). -/
theorem command_eoi_of_busy {c : Ctrl} {p : Pic} (h : p.phase ≠ .idle) :
    Pic.command c 0x20 p = (p, some (.fault (.picProtocol c 0x20))) := by
  have hclass : classifyCommand 0x20 = .ocw2 := by decide
  simp only [Pic.command, hclass, if_pos h]

/-- A sequence that ends with other bytes than the admitted ones is refused (R103). -/
theorem finishInit_of_unadmitted {c : Ctrl} {p : Pic}
    (h : ¬ (p.icw1 = icw1Byte ∧ p.icw3 = icw3Byte c ∧ p.icw4 = icw4Byte)) :
    Pic.finishInit c p = (p, some (.refusal .picModeUnmodelled)) := if_neg h

theorem data_mode_of_unadmitted {c : Ctrl} {b : Byte} {p : Pic} (hphase : p.phase = .wICW4)
    (h : p.icw1 ≠ 0x11 ∨ p.icw3 ≠ icw3Byte c ∨ b ≠ 0x01) :
    Pic.data c b p = ({ p with icw4 := b, phase := .idle }, some (.refusal .picModeUnmodelled)) := by
  simp only [Pic.data, hphase, Pic.enterPhase]
  exact finishInit_of_unadmitted fun ⟨h1, h3, h4⟩ => by
    rcases h with h | h | h
    · exact h h1
    · exact h h3
    · exact h h4

/-- An ICW1 without the mode bit is not the admitted one (R103). -/
theorem icw1_ne_of_noMode {b : Byte} (h : b.getLsbD 0 = false) : b ≠ icw1Byte := by
  rintro rfl
  exact absurd h (by decide)

theorem data_cascade_of_noMode {c : Ctrl} {b : Byte} {p : Pic} (hphase : p.phase = .wICW3)
    (h : p.icw1.getLsbD 0 = false) :
    Pic.data c b p = ({ p with icw3 := b, phase := .idle }, some (.refusal .picModeUnmodelled)) := by
  simp only [Pic.data, hphase, phaseBeforeMode, icw1NeedsIcw4, h, Bool.false_eq_true, if_false, Pic.enterPhase]
  exact finishInit_of_unadmitted fun hall => icw1_ne_of_noMode h hall.1

theorem data_base_of_single {c : Ctrl} {b : Byte} {p : Pic} (hphase : p.phase = .wICW2)
    (h1 : p.icw1.getLsbD 1 = true) (h : p.icw1.getLsbD 0 = false) :
    Pic.data c b p = ({ p with vbase := b &&& 0xF8, phase := .idle }, some (.refusal .picModeUnmodelled)) := by
  simp only [Pic.data, hphase, icw1Single, h1, if_true, phaseBeforeMode, icw1NeedsIcw4, h, Bool.false_eq_true, if_false,
    Pic.enterPhase]
  exact finishInit_of_unadmitted fun hall => icw1_ne_of_noMode h hall.1

/-- Settles O34: each clause is the controller's reaction to that byte. -/
theorem portProtocolStops : Obligations.PortProtocolStops := by
  unfold Obligations.PortProtocolStops
  intro s c b
  refine ⟨fun h4 hb => ?_, fun hbusy => ?_, fun hphase h => ?_, fun hphase h => ?_, fun hphase h1 h => ?_,
    fun hidle => ?_⟩
  · rw [portWrite_command_of (command_of_unknown _ h4 hb), ← State.logPort_pic (commandPort c) b, State.setPic_self]
    rfl
  · rw [portWrite_command_of (command_eoi_of_busy hbusy), ← State.logPort_pic (commandPort c) 0x20, State.setPic_self]
    rfl
  · rw [portWrite_data_stop (data_mode_of_unadmitted hphase h)]
    cases c <;> rfl
  · rw [portWrite_data_stop (data_cascade_of_noMode hphase h)]
    cases c <;> rfl
  · rw [portWrite_data_stop (data_base_of_single hphase h1 h)]
    cases c <;> rfl
  · rw [portWrite_data_stop (data_mask b hidle)]
    cases c <;> rfl

/-! ### The environment -/

theorem setLine_of_set {b : Byte} {n : Nat} (hn : n < 8) (h : b.getLsbD n = true) : setLine b n = b := by
  refine BitVec.eq_of_getLsbD_eq fun k _ => ?_
  rw [setLine_getLsbD b n k hn]
  by_cases hk : k = n
  · simp [hk, h]
  · simp [hk]

/-- Master line 2 is never raised (R104). -/
theorem raiseIrq_cascade (s : State) : s.raiseIrq .M 2 = s := rfl

/-- Any other line's request bit is set (R104). -/
theorem raiseIrq_line {c : Ctrl} {n : Nat} (h : ¬ (c = .M ∧ n = 2)) (s : State) :
    s.raiseIrq c n = s.setPic c { s.pic c with irr := setLine (s.pic c).irr n } := by
  cases c with
  | M => exact if_neg fun hn => h ⟨rfl, hn⟩
  | S => rfl

/-- Settles O37. -/
theorem environmentRaisesLine : Obligations.EnvironmentRaisesLine := by
  unfold Obligations.EnvironmentRaisesLine
  intro s c n hs hchoice
  have hstep : step s = .next (s.popChoice.raiseIrq c n) := by
    rw [step_of_canMove hs, hchoice]
    rfl
  have hpop : ∀ c', s.popChoice.pic c' = s.pic c' := fun c' => by cases c' <;> rfl
  by_cases hcascade : c = .M ∧ n.val = 2
  · obtain ⟨rfl, hn⟩ := hcascade
    rw [hn, raiseIrq_cascade] at hstep
    exact ⟨_, hstep, fun k => by simp [hn, hpop], fun _ => rfl, rfl, fun c' _ => hpop c', ⟨rfl, rfl⟩, fun _ => rfl, rfl,
      ⟨rfl, rfl⟩, rfl, rfl, rfl, ⟨rfl, rfl⟩⟩
  · rw [raiseIrq_line hcascade, hpop] at hstep
    refine ⟨_, hstep, fun k => ?_, fun h => ?_, ?_, fun c' hc => ?_, ?_⟩
    · rw [State.setPic_pic]
      simp only [setLine_getLsbD _ _ k n.isLt, hcascade, not_false_eq_true, and_true]
    · rw [setLine_of_set n.isLt (h.resolve_right hcascade), ← hpop, State.setPic_self]
    · rw [State.setPic_pic]
    · rw [State.setPic_pic_other hc, hpop]
    · cases c <;> exact ⟨⟨rfl, rfl⟩, fun _ => rfl, rfl, ⟨rfl, rfl⟩, rfl, rfl, rfl, ⟨rfl, rfl⟩⟩

/-! ### CLI and STI -/

/-- Settles O38. -/
theorem cliCompletes : Obligations.CliCompletes := by
  unfold Obligations.CliCompletes
  exact fun s => ⟨_, rfl, rfl, rfl, contextsWithTop_of_setTop _ rfl rfl, fun _ => rfl, rfl, ⟨rfl, rfl⟩, ⟨rfl, rfl⟩, rfl,
    ⟨rfl, rfl⟩, ⟨rfl, rfl⟩⟩

/-- Settles O39. -/
theorem stiCompletes : Obligations.StiCompletes := by
  unfold Obligations.StiCompletes
  exact fun s => ⟨_, rfl, rfl, rfl, contextsWithTop_of_setTop _ rfl rfl, fun _ => rfl, rfl, ⟨rfl, rfl⟩, ⟨rfl, rfl⟩, rfl,
    ⟨rfl, rfl⟩, ⟨rfl, rfl⟩⟩

/-! ### The trampoline -/

/-- A finished handler's move takes it to its `eoi` phase (R128). -/
theorem runTop_of_finished {s : State} {k : IrqContext} {rest : List IrqContext} (hi : s.irqs = k :: rest)
    (hbody : k.phase = .body) (hf : k.frame.fetch = none) : s.runTop = .next (s.setPhase .eoi) := by
  simp only [State.runTop, hi, hbody, hf]

theorem runTop_of_eoi {s : State} {k : IrqContext} {rest : List IrqContext} (hi : s.irqs = k :: rest)
    (heoi : k.phase = .eoi) : s.runTop = .next s.trampolineEoi := by
  simp only [State.runTop, hi, heoi]

/-- The first micro-step of the EOI pair is the same, whatever comes after the second (R128). -/
theorem eoiMicro_congr {s : State} (hmu : s.top.mu = 0) (f g : State → State) : s.eoiMicro f = s.eoiMicro g := by
  unfold State.eoiMicro
  rw [hmu]

/-- Settles O44: the trampoline's micro-steps are those of PICEOI but for what comes after the second. -/
theorem trampolineEoi : Obligations.TrampolineEoi := by
  unfold Obligations.TrampolineEoi
  intro s k rest hs hrun hi
  have hpopped : s.popChoice.irqs = k :: rest := hi
  have htop : s.popChoice.top = k.frame := State.top_cons _ k rest hpopped
  rw [step_of_canMove hs, move_of_isRun _ hrun]
  refine ⟨fun hbody hend => ?_, fun heoi hmu => ?_, fun heoi hmu hidleM hidleS => ?_⟩
  · have hf : k.frame.fetch = none := by rw [Frame.fetch, hend, List.getElem?_length]
    rw [runTop_of_finished hpopped hbody hf, setPhase_cons _ _ k rest hpopped]
  · rw [runTop_of_eoi hpopped heoi]
    exact congrArg Host.Outcome.next (eoiMicro_congr (htop ▸ hmu) _ _)
  · have hne : s.popChoice.top.mu ≠ 0 := by rw [htop, hmu]; decide
    have hrunning : s.popChoice.stopped = false := State.canMove_stopped hs
    have hidle := picsIdle_of (s := s.popChoice) hidleM hidleS (eoiSecond s.popChoice.cfg)
    have hret : s.popChoice.runTop =
        .next ((s.popChoice.portWrite (commandPort (eoiSecond s.popChoice.cfg)) eoiByte).setPhase .ret) :=
      (runTop_of_eoi hpopped heoi).trans
        (congrArg Host.Outcome.next (eoiMicro_second (State.setPhase .ret) hrunning hne hidle))
    have hwritten : (s.popChoice.portWrite (commandPort (eoiSecond s.popChoice.cfg)) eoiByte).irqs = k :: rest := by
      rw [State.portWrite_irqs, hpopped]
    refine ⟨_, _, congrArg Host.Outcome.next (eoiMicro_second State.commandDone hrunning hne hidle), hret, ?_⟩
    rw [setPhase_cons _ _ k rest hwritten]
    simp only [State.commandDone_eq, State.setTop, hwritten]

end Sys2Proof.Machine
end

section
/-!
PROOFS. 60_exceptions.md R125 to R127, 44_privileged.md R118: deliveries by SWINT and by the controllers, and when a
hardware delivery does nothing or faults before it acknowledges.
-/

namespace Sys2Proof.Machine

/-! ### Deliveries that fault -/

/-- A delivery records the earliest fault that applies, and changes nothing else (R126, R131). -/
theorem deliver_of_deliveryFault {s : State} {v : Byte} {f : Fault} (h : deliveryFault s v f) :
    s.deliver v = s.raise f := by
  rcases h with ⟨hidtr, rfl⟩ | ⟨r, hidtr, hlimit, rfl⟩ | ⟨r, d, hread, h⟩
  · simp only [State.deliver, hidtr]
  · have hout : vectorInside r v = false := by
      simp only [vectorInside, DESC_BYTES]
      exact decide_eq_false hlimit.not_ge
    simp only [State.deliver, hidtr, hout]
    rfl
  · rw [deliver_of_readsDescriptor hread, State.enterGate, gatePresent_descType]
    rcases h with ⟨hpresent, rfl⟩ | ⟨hpresent, hbad, rfl⟩ | ⟨hgood, hnone, rfl⟩ | ⟨hgood, hsome, hfull, rfl⟩
    · rw [hpresent]
      rfl
    · have hunsupported : gateSupported (descType d) (descSelector d) = false := by
        rw [goodGate_iff, gatePresent_descType] at hbad
        simpa [hpresent] using hbad
      rw [hpresent, hunsupported]
      rfl
    · have hnone : handlerAt s.cfg (descOffset d) = none := hnone
      rw [hgood.1, ((goodGate_iff d).1 hgood).2, hnone]
      rfl
    · obtain ⟨prog, hprog⟩ := Option.ne_none_iff_exists'.mp hsome
      have hprog : handlerAt s.cfg (descOffset d) = some prog := hprog
      rw [hgood.1, ((goodGate_iff d).1 hgood).2, hprog]
      simp only [Bool.not_true, Bool.false_eq_true, if_false, hfull, if_true]

/-- What a delivery reads of the state: the table register, memory, the configuration and the depth. -/
structure SameGates (s u : State) : Prop where
  idtr : u.idtr = s.idtr
  mem : u.mem = s.mem
  cfg : u.cfg = s.cfg
  depth : u.irqs.length = s.irqs.length

theorem SameGates.readsDescriptor {s u : State} (h : SameGates s u) {r : TableReg} {v : Byte} {d : BitVec 64}
    (hread : readsDescriptor s r v d) : readsDescriptor u r v d := by
  simpa only [Machine.readsDescriptor, State.memRead, h.idtr, h.mem] using hread

theorem SameGates.deliveryFault {s u : State} (h : SameGates s u) {v : Byte} {f : Fault} (hf : deliveryFault s v f) :
    deliveryFault u v f := by
  simpa only [Machine.deliveryFault, Machine.readsDescriptor, State.memRead, h.idtr, h.mem, h.cfg, h.depth] using hf

/-- Past the SWINT (R118). -/
theorem sameGates_swint (v : Byte) (s : State) : SameGates s (s.logEvent (.int v)).commandDone :=
  ⟨rfl, rfl, rfl, State.setTop_irqs_length _ _⟩

theorem sameGates_acknowledge (c : Ctrl) (n : Nat) (s : State) : SameGates s (s.popChoice.acknowledge c n) := by
  cases c <;> exact ⟨rfl, rfl, rfl, rfl⟩

/-! ### The hardware delivery step -/

theorem remapInProgress_of_none {s : State} (h : ∀ f ∈ s.frames, f.inOp ≠ some .picremap) : s.remapInProgress = false :=
  Bool.eq_false_iff.mpr fun hin => by
    obtain ⟨f, hf, hop⟩ := (remapInProgress_iff s).1 hin
    exact h f hf hop

theorem step_of_deliver {s : State} (hs : s.canMove) (hchoice : s.nextChoice = .deliver) :
    step s = .next s.popChoice.hardwareDelivery := by
  rw [step_of_canMove hs, hchoice]
  rfl

/-- No line waits at a controller this run has not initialized (R125). -/
theorem unconfigured_of_configured {s : State} (hM : s.picM.configured = true) (hS : s.picS.configured = true) :
    s.unconfiguredRequest = false ∧ s.unconfiguredRoute = false := by
  refine ⟨by simp [State.unconfiguredRequest, hM, hS], ?_⟩
  unfold State.unconfiguredRoute
  split <;> simp [hM, hS]

/-- Where it is enabled, a hardware delivery with a request at configured controllers acknowledges it and delivers its
vector (R126). -/
theorem hardwareDelivery_of_request {s : State} {c : Ctrl} {n : Nat} (hs : s.stopped = false) (hif : s.IF = true)
    (hM : s.picM.configured = true) (hS : s.picS.configured = true) (hremap : ∀ f ∈ s.frames, f.inOp ≠ some .picremap)
    (hreq : s.request = some (c, n)) : s.hardwareDelivery = (s.acknowledge c n).deliver (s.lineVector c n) := by
  obtain ⟨hwaiting, hroute⟩ := unconfigured_of_configured hM hS
  have henabled : s.deliveryEnabled = true := by simp [State.deliveryEnabled, hs, hif, hreq]
  simp only [State.hardwareDelivery, henabled, remapInProgress_of_none hremap, hwaiting, hroute, hreq]
  rfl

theorem step_of_request {s : State} {c : Ctrl} {n : Nat} (hs : s.canMove) (hchoice : s.nextChoice = .deliver)
    (hif : s.IF = true) (hM : s.picM.configured = true) (hS : s.picS.configured = true)
    (hremap : ∀ f ∈ s.frames, f.inOp ≠ some .picremap) (hreq : s.request = some (c, n)) :
    step s = .next ((s.popChoice.acknowledge c n).deliver (s.lineVector c n)) := by
  have hvector : s.popChoice.lineVector c n = s.lineVector c n := by cases c <;> rfl
  rw [step_of_deliver hs hchoice, ← hvector]
  exact congrArg Host.Outcome.next
    (hardwareDelivery_of_request (s := s.popChoice) (State.canMove_stopped hs) hif hM hS hremap hreq)

/-! ### The obligations -/

/-- Settles O40. -/
theorem swintCompletes : Obligations.SwintCompletes := by
  unfold Obligations.SwintCompletes
  intro s v r d prog hread hgood hprog hroom
  have hgates := sameGates_swint v s
  have hdeliver := deliver_of_goodGate (prog := prog) (hgates.readsDescriptor hread) hgood
    (by rw [hgates.cfg]; exact hprog) (by rw [hgates.depth, hgates.cfg]; exact hroom)
  refine ⟨_, congrArg Host.Outcome.next hdeliver, rfl, rfl, rfl, rfl, fun _ => rfl, rfl, ⟨rfl, rfl⟩, ⟨rfl, rfl⟩, rfl,
    ⟨rfl, rfl⟩, ⟨rfl, rfl⟩⟩

/-- Settles O41: both kinds of delivery record the fault from a state with the same gates. -/
theorem deliveryFaultsInOrder : Obligations.DeliveryFaultsInOrder := by
  unfold Obligations.DeliveryFaultsInOrder
  refine ⟨fun s v f hf => ?_, fun s c n f hs hchoice hif hM hS hremap hreq hf => ?_⟩
  · exact congrArg Host.Outcome.next (deliver_of_deliveryFault ((sameGates_swint v s).deliveryFault hf))
  · rw [step_of_request hs hchoice hif hM hS hremap hreq,
      deliver_of_deliveryFault ((sameGates_acknowledge c n s).deliveryFault hf)]

/-- Settles O42. -/
theorem hardwareDeliveryCompletes : Obligations.HardwareDeliveryCompletes := by
  unfold Obligations.HardwareDeliveryCompletes
  intro s c n r d prog hs hchoice hif hM hS hremap hreq hread hgood hprog hroom
  have hgates := sameGates_acknowledge c n s
  have hdeliver := deliver_of_goodGate (prog := prog) (hgates.readsDescriptor hread) hgood
    (by rw [hgates.cfg]; exact hprog) (by rw [hgates.depth, hgates.cfg]; exact hroom)
  have hstep := step_of_request hs hchoice hif hM hS hremap hreq
  rw [hdeliver] at hstep
  refine ⟨_, hstep, ?_⟩
  have hflag : (s.popChoice.acknowledge c n).IF = true := by cases c <;> exact hif
  rw [hflag]
  cases c <;> exact ⟨by rw [← hif]; rfl, rfl, rfl, rfl, rfl, fun _ => rfl, rfl, ⟨rfl, rfl⟩, rfl, rfl, ⟨rfl, rfl⟩⟩

/-- Where it is not enabled a delivery move passes the schedule only (log 2). -/
theorem step_of_not_enabled {s : State} (hs : s.canMove) (hchoice : s.nextChoice = .deliver)
    (h : s.deliveryEnabled = false) : step s = .next s.popChoice := by
  have hpopped : s.popChoice.deliveryEnabled = false := h
  rw [step_of_deliver hs hchoice, State.hardwareDelivery, hpopped]
  rfl

/-- With no line raised there is no request (R105). -/
theorem request_of_no_line {s : State} (hM : s.picM.irr = 0) (hS : s.picS.irr = 0) : s.request = none := by
  cases hreq : s.request with
  | none => rfl
  | some x =>
    have hasks := ((requestIsHighestPriority s).1 x hreq).1
    obtain ⟨c, n⟩ := x
    cases c with
    | M =>
      obtain ⟨-, -, hirr, -⟩ := hasks
      simp [hM] at hirr
    | S =>
      obtain ⟨-, hirr, -⟩ := hasks
      simp [hS] at hirr

theorem unconfiguredRequest_of {s : State} {c : Ctrl} (hc : (s.pic c).configured = false) (hirr : (s.pic c).irr ≠ 0) :
    s.unconfiguredRequest = true := by
  have hline : (!(s.pic c).configured && (s.pic c).irr != 0) = true := by
    rw [hc, bne_iff_ne.mpr hirr]
    rfl
  rw [State.unconfiguredRequest, Bool.or_eq_true]
  cases c with
  | M => exact .inl hline
  | S => exact .inr hline

/-- Settles O43: each clause is one branch of the hardware delivery step. -/
theorem hardwareDeliveryGuards : Obligations.HardwareDeliveryGuards := by
  unfold Obligations.HardwareDeliveryGuards
  intro s hs hchoice
  have hrun : s.stopped = false := State.canMove_stopped hs
  refine ⟨fun hif => ?_, fun hM hS => ?_, fun hM hS hreq => ?_, fun hif hreq hremap => ?_,
    fun c hif hc hirr hremap => ?_⟩
  · exact step_of_not_enabled hs hchoice (by simp [State.deliveryEnabled, hif])
  · exact step_of_not_enabled hs hchoice (by
      simp [State.deliveryEnabled, request_of_no_line hM hS, State.unconfiguredRequest, hM, hS])
  · exact step_of_not_enabled hs hchoice (by
      simp [State.deliveryEnabled, hreq, (unconfigured_of_configured hM hS).1])
  · have henabled : s.popChoice.deliveryEnabled = true := by
      change s.deliveryEnabled = true
      simp [State.deliveryEnabled, hrun, hif, Option.isSome_iff_ne_none.mpr hreq]
    have hin : s.popChoice.remapInProgress = true := (remapInProgress_iff s).2 hremap
    rw [step_of_deliver hs hchoice, State.hardwareDelivery, henabled, hin]
    rfl
  · have hwaiting : s.popChoice.unconfiguredRequest = true := unconfiguredRequest_of hc hirr
    have henabled : s.popChoice.deliveryEnabled = true := by
      change s.deliveryEnabled = true
      simp [State.deliveryEnabled, hrun, hif, show s.unconfiguredRequest = true from hwaiting]
    have hnone : s.popChoice.remapInProgress = false := remapInProgress_of_none hremap
    rw [step_of_deliver hs hchoice, State.hardwareDelivery, henabled, hnone, hwaiting]
    rfl

end Sys2Proof.Machine
end
